-- ==== Sys2Proof/Word.lean ====
section
/-!
DEFINITION. The word types of PDFAUDIT-CORE (spec/00_scope.md R10, R11): bytes, codes, byte-strings, and
the reading of a list of bits as a number, first bit most significant (spec/20_memory.md R61).
-/

namespace Sys2Proof

/-- A byte: 8 bits, bit 7 its most significant (R10). -/
abbrev Byte := BitVec 8

/-- An LZW code zero-extended to 12 bits, the widest format `C12` (R91, R104). -/
abbrev Code := BitVec 12

/-- A byte-string: a finite sequence of bytes (R11). -/
abbrev Bytes := List Byte

/-- The value of a bit: 1 for a set bit, 0 for a clear one. -/
abbrev bitVal (b : Bool) : Nat := b.toNat

end Sys2Proof
end

