-- ==== Sys2Proof/Config.lean ====
section
/-!
DEFINITION. What an implementation of PDFAUDIT-CORE fixes: the parameters of spec/00_scope.md R8.
The constants that the source fixes (R7) stand where they are used, in Decode.lean and Machine/.
-/

namespace Sys2Proof

/-- The open parameter `AHX_PAIR_MODE` (R8, D16): how the ASCIIHex engine treats a non-hex byte between
two hex digits. Fixed for the life of an instance (R21(c)); an instance carries it in its state. -/
inductive PairMode where
  | adjacent
  | stream
deriving DecidableEq, Repr

/-- The three engines (R2). -/
inductive Engine where
  | lzw
  | a85
  | ahx
deriving DecidableEq, Repr

namespace Config

/-- `TCAP`, the storage capacity of the code table in entries (R8, D9). -/
abbrev tcap : Nat := 4096

/-- `SMAX`, the longest byte-string a table entry or `prev` can hold (R8, R31). -/
abbrev smax : Nat := 3839

/-- DESIGN CHOICE (log 3), unsafe for a claim about runs from reset: the pair mode of the instance that the
reset state describes. The spec's own vectors use `ADJACENT` (R8). -/
abbrev resetPairMode : PairMode := .adjacent

/-- The size in bytes of an engine's output staging (spec/10_state.md R22), which the spec leaves to the implementation
(log 13). It has no value here: every statement holds for every size. A size of 0 acts as a size of 1. -/
opaque outStaging : Engine → Nat

end Config
end Sys2Proof
end

