-- ==== Sys2Proof/Syntax.lean ====
section
/-!
DEFINITION. The syntax of PDFAUDIT-CORE: one constructor per row of spec/opcode_table.json. An instruction
is one symbol class of one engine with the symbol's value as its operand (spec/00_scope.md R6;
spec/30_encoding.md R98, R100, R101, R104).
-/

namespace Sys2Proof

/-- The four units that read symbols, one per symbol format of R90. -/
inductive SymbolUnit where
  | bitReader
  | lzw
  | a85
  | ahx
deriving DecidableEq, Repr

/-- The decoder state `fsm` of the LZW engine (spec/10_state.md R26). -/
inductive LzwFsm where
  | awaitingClear
  | running
  | terminated
deriving DecidableEq, Repr

/-- The state `a_fsm`, `h_fsm` of a text engine (R40, R43). -/
inductive TextFsm where
  | running
  | terminated
deriving DecidableEq, Repr

/-- The symbol classes, in the order of spec/opcode_table.json. A class whose symbol has one value only
(`LZW.CLEAR`, `A85.Z`, ...) or no symbol (`*.EOI`) carries no operand. -/
inductive Instr where
  | brRead (n : BitVec 6)
  | lzwEoi
  | lzwClear
  | lzwEod
  | lzwNoclear (code : Code)
  | lzwFirst (code : Code)
  | lzwBadfirst (code : Code)
  | lzwRef (code : Code)
  | lzwKwkwk (code : Code)
  | lzwCorrupt (code : Code)
  | a85Eoi
  | a85Digit (c : Byte)
  | a85Z
  | a85Zbad
  | a85End
  | a85Skip (c : Byte)
  | ahxEoi
  | ahxDigit (c : Byte)
  | ahxEnd
  | ahxSkip (c : Byte)
deriving DecidableEq, Repr

/-- The unit whose symbol an instruction is (the table's `engine`). -/
def Instr.unit : Instr → SymbolUnit
  | .brRead _ => .bitReader
  | .lzwEoi | .lzwClear | .lzwEod | .lzwNoclear _ | .lzwFirst _ | .lzwBadfirst _ | .lzwRef _ | .lzwKwkwk _
  | .lzwCorrupt _ => .lzw
  | .a85Eoi | .a85Digit _ | .a85Z | .a85Zbad | .a85End | .a85Skip _ => .a85
  | .ahxEoi | .ahxDigit _ | .ahxEnd | .ahxSkip _ => .ahx

end Sys2Proof
end

