-- ==== Sys2Proof/WellFormed.lean ====
section
/-!
DEFINITION. Which operands an instruction can have: the `range` and `match` columns of
spec/opcode_table.json, without the conditions on the state (those are in Decode.lean). The ranges are written
out here from the table, apart from the decoder's own tests, so that the two check each other.
-/

namespace Sys2Proof

/-- A bit count of the BitReader's contract (spec/40_bitreader.md R120, R123). -/
def bitCountOk (n : BitVec 6) : Bool := 1 ≤ n.toNat && n.toNat ≤ 32

/-- A value in one of the ranges of a table row. -/
def inRanges (v : Nat) (ranges : List (Nat × Nat)) : Bool := ranges.any fun r => r.1 ≤ v && v ≤ r.2

/-- The operand ranges of the table. -/
def Instr.wellFormed : Instr → Bool
  | .brRead n => bitCountOk n
  | .lzwEoi | .lzwClear | .lzwEod => true
  | .lzwNoclear code => inRanges code.toNat [(0, 255), (258, 4095)]
  | .lzwFirst code => inRanges code.toNat [(0, 255)]
  | .lzwBadfirst code => inRanges code.toNat [(258, 4095)]
  | .lzwRef code => inRanges code.toNat [(0, 255), (258, 4095)]
  | .lzwKwkwk code => inRanges code.toNat [(258, 4095)]
  | .lzwCorrupt code => inRanges code.toNat [(259, 4095)]
  | .a85Eoi | .a85Z | .a85Zbad | .a85End => true
  | .a85Digit c => inRanges c.toNat [(33, 117)]
  | .a85Skip c => inRanges c.toNat [(0, 32), (118, 121), (123, 125), (127, 255)]
  | .ahxEoi | .ahxEnd => true
  | .ahxDigit c => inRanges c.toNat [(48, 57), (65, 70), (97, 102)]
  | .ahxSkip c => inRanges c.toNat [(0, 47), (58, 61), (63, 64), (71, 96), (103, 255)]

end Sys2Proof
end

