-- ==== Sys2Proof/Decode.lean ====
section
/-!
DEFINITION. From symbols to instructions and back: the code width (spec/10_state.md R29), the order of bits
(spec/20_memory.md R60, R61), the classes of the three alphabets (spec/30_encoding.md R98, R100, R101), a decoder
that is total on any list of bits, the encoder, and the probe of the opcode table's words.
-/

namespace Sys2Proof

/-! ### Code width and bit order -/

/-- The width in bits of the next LZW code at table length `t` (R29). -/
def width (t : Nat) : Nat :=
  if t < 511 then 9 else if t < 1023 then 10 else if t < 2047 then 11 else 12

/-- The bits of a byte in stream order, bit 7 first (R60). -/
def byteBits (b : Byte) : List Bool := (List.range 8).map fun j => b.getLsbD (7 - j)

/-- The stream bits of a byte sequence (R60). -/
def streamBits (bs : Bytes) : List Bool := bs.flatMap byteBits

/-- The number whose bits are given, first bit most significant (R61). -/
def bitsValue (bits : List Bool) : Nat := bits.foldl (fun v b => 2 * v + bitVal b) 0

/-- The low `w` bits of `v` in stream order, bit `w - 1` first (R90): the inverse of `bitsValue`. -/
def valueBits (w v : Nat) : List Bool := (List.range w).map fun j => v.testBit (w - 1 - j)

/-! ### Digits -/

/-- An ASCII85 digit character, `'!'` (33) to `'u'` (117) (R94). -/
def isA85Digit (c : Byte) : Bool := 33 ≤ c.toNat && c.toNat ≤ 117

/-- The value of an ASCII85 digit, 0 to 84 (R94). -/
def a85Value (c : Byte) : Nat := c.toNat - 33

/-- The value `hv(c)` of a hex digit character, none for any other byte (R96). PRESUMED (log 16): the byte values
are the ASCII code points, which the spec marks as general knowledge (G2). -/
def hexValue? (c : Byte) : Option Nat :=
  if 48 ≤ c.toNat ∧ c.toNat ≤ 57 then some (c.toNat - 48)
  else if 65 ≤ c.toNat ∧ c.toNat ≤ 70 then some (c.toNat - 55)
  else if 97 ≤ c.toNat ∧ c.toNat ≤ 102 then some (c.toNat - 87)
  else none

/-- A code that neither control class takes (R98 rows 1 and 2). -/
def isDataCode (code : Code) : Bool := code.toNat != 256 && code.toNat != 257

/-- `'z'`, the shorthand for an all-zero group (R7). -/
def a85ZChar : Byte := 122

/-- `'~'`, the ASCII85 end-of-data marker (R7). -/
def a85Tilde : Byte := 126

/-- `'>'`, the ASCIIHex terminator `AHX_GT` (R8). PRESUMED (log 16): the byte value 62 (G1). -/
def ahxGt : Byte := 62

/-! ### Classes -/

/-- What the class of a symbol depends on beside the symbol: `fsm`, the emptiness of `prev`, `tlen` (R98) and
`a_cnt` (R100), all as they are before the step. -/
structure Context where
  fsm : LzwFsm
  prevEmpty : Bool
  tlen : Nat
  aCnt : Nat
deriving DecidableEq, Repr

/-- The class of a code: the first condition of R141 that holds. -/
def classifyCode (k : Context) (code : Code) : Instr :=
  if code.toNat = 256 then .lzwClear
  else if code.toNat = 257 then .lzwEod
  else if k.fsm = .awaitingClear then .lzwNoclear code
  else if k.prevEmpty then (if code.toNat ≤ 255 then .lzwFirst code else .lzwBadfirst code)
  else if code.toNat < k.tlen then .lzwRef code
  else if code.toNat = k.tlen then .lzwKwkwk code
  else .lzwCorrupt code

/-- The class of an ASCII85 byte (R100). DEDUCED (log 10): `'>'` (62) lies in the digit range and is a digit, as the
ranges of R100, R171 and R174 say, though a remark in R174 calls it skipped. -/
def classifyA85 (aCnt : Nat) (c : Byte) : Instr :=
  if isA85Digit c then .a85Digit c
  else if c = a85ZChar then (if aCnt = 0 then .a85Z else .a85Zbad)
  else if c = a85Tilde then .a85End
  else .a85Skip c

/-- The class of an ASCIIHex byte (R101). -/
def classifyAhx (c : Byte) : Instr :=
  if (hexValue? c).isSome then .ahxDigit c
  else if c = ahxGt then .ahxEnd
  else .ahxSkip c

/-- A BitReader request, where its count is in the contract (R120, R123). -/
def classifyRequest (n : BitVec 6) : Option Instr :=
  if 1 ≤ n.toNat ∧ n.toNat ≤ 32 then some (.brRead n) else none

/-! ### The decoder -/

/-- The unit whose symbols an engine decodes. -/
def Engine.unit : Engine → SymbolUnit
  | .lzw => .lzw
  | .a85 => .a85
  | .ahx => .ahx

/-- Why a list of bits is not an instruction. -/
inductive DecodeError where
  /-- A BitReader request with `n = 0` or `n > 32` (R123). -/
  | requestOutOfContract (n : BitVec 6)
  /-- Fewer than the 6 bits of a BitReader request. -/
  | truncatedRequest
  /-- Fewer than the 8 bits of a text symbol, and not none: a byte stream has no such end. -/
  | truncatedByte
deriving DecidableEq, Repr

/-- One symbol from the front of the bits that are left of a stream which ends where the list ends, with the bits
after it. LZW and the text engines answer their `EOI` class when no whole symbol is left (R98 row 0, R100, R101);
a partial LZW code is consumed by it (R66, R122). -/
def decode (u : SymbolUnit) (k : Context) (bits : List Bool) : Except DecodeError (Instr × List Bool) :=
  match u with
  | .bitReader =>
    if bits.length < 6 then .error .truncatedRequest
    else
      let n : BitVec 6 := BitVec.ofNat 6 (bitsValue (bits.take 6))
      match classifyRequest n with
      | some i => .ok (i, bits.drop 6)
      | none => .error (.requestOutOfContract n)
  | .lzw =>
    if bits.length < width k.tlen then .ok (.lzwEoi, [])
    else .ok (classifyCode k (BitVec.ofNat 12 (bitsValue (bits.take (width k.tlen)))), bits.drop (width k.tlen))
  | .a85 =>
    if bits = [] then .ok (.a85Eoi, [])
    else if bits.length < 8 then .error .truncatedByte
    else .ok (classifyA85 k.aCnt (BitVec.ofNat 8 (bitsValue (bits.take 8))), bits.drop 8)
  | .ahx =>
    if bits = [] then .ok (.ahxEoi, [])
    else if bits.length < 8 then .error .truncatedByte
    else .ok (classifyAhx (BitVec.ofNat 8 (bitsValue (bits.take 8))), bits.drop 8)

/-! ### The encoder -/

/-- The code value of an LZW instruction, where it has one. -/
def Instr.code? : Instr → Option Nat
  | .lzwClear => some 256
  | .lzwEod => some 257
  | .lzwNoclear code | .lzwFirst code | .lzwBadfirst code | .lzwRef code | .lzwKwkwk code | .lzwCorrupt code =>
    some code.toNat
  | _ => none

/-- The bits of an instruction's symbol in stream order; an LZW code is written at the width that the decoder will
use for it (R92, R103). An `EOI` class has no symbol and no bits. -/
def encode (k : Context) : Instr → List Bool
  | .brRead n => valueBits 6 n.toNat
  | .lzwEoi => []
  | .lzwClear => valueBits (width k.tlen) 256
  | .lzwEod => valueBits (width k.tlen) 257
  | .lzwNoclear code => valueBits (width k.tlen) code.toNat
  | .lzwFirst code => valueBits (width k.tlen) code.toNat
  | .lzwBadfirst code => valueBits (width k.tlen) code.toNat
  | .lzwRef code => valueBits (width k.tlen) code.toNat
  | .lzwKwkwk code => valueBits (width k.tlen) code.toNat
  | .lzwCorrupt code => valueBits (width k.tlen) code.toNat
  | .a85Eoi => []
  | .a85Digit c => byteBits c
  | .a85Z => byteBits a85ZChar
  | .a85Zbad => byteBits a85ZChar
  | .a85End => byteBits a85Tilde
  | .a85Skip c => byteBits c
  | .ahxEoi => []
  | .ahxDigit c => byteBits c
  | .ahxEnd => byteBits ahxGt
  | .ahxSkip c => byteBits c

/-- The condition column of the table: the states in which a symbol of this class is classified so (R98, R100,
R101), and for an LZW code that it can be written at the current width (R91). -/
def Instr.applies (k : Context) : Instr → Bool
  | .brRead _ => true
  | .lzwEoi | .lzwClear | .lzwEod => true
  | .lzwNoclear code => k.fsm == .awaitingClear && code.toNat < 2 ^ width k.tlen
  | .lzwFirst _ => k.fsm != .awaitingClear && k.prevEmpty
  | .lzwBadfirst code => k.fsm != .awaitingClear && k.prevEmpty && code.toNat < 2 ^ width k.tlen
  | .lzwRef code => k.fsm != .awaitingClear && !k.prevEmpty && code.toNat < k.tlen && code.toNat < 2 ^ width k.tlen
  | .lzwKwkwk code => k.fsm != .awaitingClear && !k.prevEmpty && code.toNat == k.tlen && code.toNat < 2 ^ width k.tlen
  | .lzwCorrupt code => k.fsm != .awaitingClear && !k.prevEmpty && k.tlen < code.toNat && code.toNat < 2 ^ width k.tlen
  | .a85Eoi | .a85Digit _ | .a85End | .a85Skip _ => true
  | .a85Z => k.aCnt == 0
  | .a85Zbad => k.aCnt != 0
  | .ahxEoi | .ahxDigit _ | .ahxEnd | .ahxSkip _ => true

/-- A class that stands for the end of the input and has no symbol. -/
def Instr.isEoi : Instr → Bool
  | .lzwEoi | .a85Eoi | .ahxEoi => true
  | _ => false

/-! ### The opcode table's words -/

/-- How a bare word of the opcode table is taken (DESIGN CHOICE, log 15): the table gives a word no engine, so its
length tells the format, and a byte goes to the engine for which the table matches that very byte (62 to ASCIIHex,
any other to ASCII85). -/
def probeUnit (nbits w : Nat) : SymbolUnit :=
  if nbits = 0 then .lzw
  else if nbits ≤ 6 then .bitReader
  else if nbits ≤ 8 then (if w = 62 then .ahx else .a85)
  else .lzw

/-- The state a bare word is read in (DESIGN CHOICE, log 15): directly after a CLEAR, no digit pending. -/
def probeContext : Context := { fsm := .running, prevEmpty := true, tlen := 258, aCnt := 0 }

/-- The length of the symbol a bare word stands for: an LZW code is read at the width 9 of `probeContext`. -/
def probeLength (nbits w : Nat) : Nat :=
  match probeUnit nbits w with
  | .bitReader => 6
  | .lzw => if nbits = 0 then 0 else width probeContext.tlen
  | .a85 | .ahx => 8

/-- The stream bits of a bare word, none where its value does not fit the symbol. -/
def probeBits (nbits w : Nat) : Option (List Bool) :=
  if w < 2 ^ probeLength nbits w then some (valueBits (probeLength nbits w) w) else none

/-- The instruction the decoder reads from a word of the opcode table (log 15). -/
def decodeTableWord (nbits w : Nat) : Option Instr :=
  match probeBits nbits w with
  | none => none
  | some bits =>
    match decode (probeUnit nbits w) probeContext bits with
    | .ok (i, _) => some i
    | .error _ => none

end Sys2Proof
end

