-- ==== Sys2Proof/Machine/State.lean ====
section
/-!
DEFINITION. The state of PDFAUDIT-CORE (spec/10_state.md R20 to R47) as plain data, and its reset value. Two fields
of `State` (`active`, `host`) and the latches `req`, `resp` are the model's own (log 4, log 8); `inp`, `eof` and
`taken` hold the host's side of the streams of R22 (log 5, log 13).
-/

namespace Sys2Proof.Machine

/-- Why an engine terminated (R37, R210). Code 7 is reserved and never produced (U20). -/
inductive Cause where
  | none
  | endOfData
  | endOfInput
  | terminator
  | corruptTable
  | invalidShorthand
  | a85Overflow
deriving DecidableEq, Repr

/-- The streams and the status registers that each engine has for itself (R20, R22, R24, R25, R37). -/
structure Stream where
  /-- `IN`: the bytes the host has supplied since the last reset, first byte first (R12, R21). -/
  inp : Bytes
  /-- `in_eof`: the host will supply no further byte (R22). -/
  eof : Bool
  /-- `ipos`: the number of input bytes consumed (R24). -/
  ipos : Nat
  /-- `OUT`: every byte emitted since the last reset (R25). -/
  out : Bytes
  /-- The number of bytes of `OUT` that the consumer has taken (R22). -/
  taken : Nat
  /-- `cause` (R37). -/
  cause : Cause
  /-- `err` (R37). -/
  err : Bool
  /-- `info` (R37). -/
  info : BitVec 12
deriving DecidableEq, Repr

/-- The dynamic slots of the code table: pairs of an index and the byte-string the slot holds, indices strictly
rising. An unlisted slot holds the empty byte-string, as every slot does after reset (DESIGN CHOICE, log 2). -/
abbrev Memory := List (Nat × Bytes)

/-- The BitReader's last response (R23). -/
inductive Response where
  | none
  | value (v : BitVec 32)
  | endOfInput
deriving DecidableEq, Repr

/-- The LZW engine: LZWDecoder and its private BitReader (R20). -/
structure Lzw where
  /-- `fsm` (R26). -/
  fsm : LzwFsm
  /-- `T[258..4095]` (R27). -/
  table : Memory
  /-- `tlen`, 258 to 4096 (R28). -/
  tlen : Nat
  /-- `prev`, the previous-output buffer (R30). -/
  prev : Bytes
  /-- `cur`, the BitReader's current byte (R34). -/
  cur : Byte
  /-- `bpos`, the number of bits of `cur` consumed, 0 to 8 (R35). -/
  bpos : Nat
  /-- The request at the BitReader's interface (R23). The LZW decoder alone drives it, and its requests are made and
  answered inside one step, so none stands here between steps; no step and no host action puts one here. The opcode
  table's `BR.READ` row alone, a BitReader without its decoder, is read from here (log 8). -/
  req : Option (BitVec 6)
  /-- The BitReader's last response (R23; log 8). -/
  resp : Response
  io : Stream
deriving DecidableEq, Repr

/-- The ASCII85 engine (R20). -/
structure A85 where
  /-- `a_fsm` (R40). -/
  fsm : TextFsm
  /-- `a_acc`, the group accumulator, below `2^33` (R38). -/
  acc : Nat
  /-- `a_cnt`, the number of digits pending (R39). -/
  cnt : Nat
  io : Stream
deriving DecidableEq, Repr

/-- The ASCIIHex engine (R20). -/
structure Ahx where
  /-- `h_fsm` (R43). -/
  fsm : TextFsm
  /-- `h_pv`: a digit is pending (R41). -/
  pv : Bool
  /-- `h_pend`: its value (R41). -/
  pend : BitVec 4
  /-- `h_sep`: a non-hex byte has come since the pending digit (R42). -/
  sep : Bool
  /-- `h_stray`: an earlier digit was dropped (R42). -/
  stray : Bool
  /-- `AHX_PAIR_MODE`, fixed for the life of the instance (R8, R21(c); log 3). -/
  mode : PairMode
  io : Stream
deriving DecidableEq, Repr

/-- What the host can do to the block between two steps (R22, R23, R240; log 4). -/
inductive HostAct where
  /-- Assert and release `rst` of one engine. -/
  | rst (e : Engine)
  /-- Supply one input byte. -/
  | offer (e : Engine) (b : Byte)
  /-- Raise `in_eof`. -/
  | eof (e : Engine)
  /-- Take one output byte: `out_ready` is high for one transfer. While no such action comes `out_ready` is low. -/
  | take (e : Engine)
  /-- Let an engine take its next step, and make it the active one. -/
  | run (e : Engine)
deriving DecidableEq, Repr

/-- The whole block: one instance of each engine (R2, R20; log 4), and the host's side. -/
structure State where
  lzw : Lzw
  a85 : A85
  ahx : Ahx
  /-- The engine that steps while no host action waits (log 4). -/
  active : Engine
  /-- The host's actions still to come, oldest first (log 4). -/
  host : List HostAct
deriving DecidableEq, Repr

/-- Why the machine stops with a fault. Both reasons are the model's own and safe: no state that meets the
invariants of Safety.lean reaches one. -/
inductive Fault where
  /-- Raised by `LZW.FIRST` and `LZW.REF`: the index is not that of a byte-string, 256, 257 or beyond the table (R27);
  their own conditions rule it out. Safe. -/
  | unreadableSlot (index : Nat)
  /-- Raised by `LZW.REF`: `first` of an empty byte-string, which R11 does not define. Safe. -/
  | firstOfEmpty
deriving DecidableEq, Repr

/-- Why the machine has no step. -/
inductive Refusal where
  /-- Raised by `exec` for an instruction that has no meaning yet. Safe. -/
  | notModelled (mnemonic : String)
  /-- Raised by `BR.READ n` with `n = 0` or `n > 32`, and by the fetch of such a request: R123 gives it no step. Safe. -/
  | requestOutOfContract (n : BitVec 6)
  /-- Raised by a meaning that is asked to run in a state where its class's condition does not hold (R98, R100,
  R101) or whose engine has terminated (R140, R170, R190); the fetch never asks so. Safe (log 9). -/
  | classDoesNotApply
  /-- Raised by the host action that supplies a byte after `in_eof` (R243(d), U19). Safe. -/
  | offerAfterEof
deriving DecidableEq, Repr

/-- The streams and status of a freshly reset engine (R47, R240). -/
def Stream.reset : Stream :=
  { inp := [], eof := false, ipos := 0, out := [], taken := 0, cause := .none, err := false, info := 0 }

/-- The LZW engine after reset (R47). DESIGN CHOICE: `cur` is 0 (log 1), every dynamic slot holds the empty byte-string
(log 2), no request and no response (log 8). -/
def Lzw.reset : Lzw :=
  { fsm := .awaitingClear, table := [], tlen := 258, prev := [], cur := 0, bpos := 8, req := none, resp := .none,
    io := Stream.reset }

/-- The ASCII85 engine after reset (R47). -/
def A85.reset : A85 := { fsm := .running, acc := 0, cnt := 0, io := Stream.reset }

/-- The ASCIIHex engine of pair mode `m` after reset (R47). DESIGN CHOICE: `h_pend` is 0 (log 1). -/
def Ahx.reset (m : PairMode) : Ahx :=
  { fsm := .running, pv := false, pend := 0, sep := false, stray := false, mode := m, io := Stream.reset }

/-- The block after reset, its ASCIIHex instance of pair mode `m`, no host action waiting. -/
def State.resetWith (m : PairMode) : State :=
  { lzw := Lzw.reset, a85 := A85.reset, ahx := Ahx.reset m, active := .lzw, host := [] }

/-- The block after reset. DESIGN CHOICE: pair mode `ADJACENT` (log 3), the LZW engine active (log 4). -/
def State.reset : State := State.resetWith Config.resetPairMode

end Sys2Proof.Machine
end

