-- ==== Sys2Proof/Machine/Ops.lean ====
section
/-!
DEFINITION. The shared operations: the stream primitives `InExhausted`, `InNext`, `Emit` (spec/00_scope.md R12), the
code table's read, write, append and reset, the BitReader's read (spec/40_bitreader.md R121, R122), termination
(`raise`, spec/60_exceptions.md R211) and, beside it, the only way out of it, hardware reset (R220, R240).
-/

namespace Sys2Proof.Machine

/-! ### Streams -/

/-- `InExhausted()`: every supplied byte is consumed and none will follow (R12, R22). -/
def Stream.inExhausted (io : Stream) : Bool := io.inp.length ≤ io.ipos && io.eof

/-- `InNext()`: the next byte and the stream past it; none where no supplied byte is left (R12). -/
def Stream.inNext (io : Stream) : Option (Byte × Stream) :=
  match io.inp[io.ipos]? with
  | some b => some (b, { io with ipos := io.ipos + 1 })
  | none => none

/-- `Emit(s)`: append to `OUT` (R12, R25). -/
def Stream.emit (io : Stream) (bs : Bytes) : Stream := { io with out := io.out ++ bs }

/-! ### Causes -/

/-- The causes that set `err` (R37, R211). -/
def Cause.isFailure : Cause → Bool
  | .invalidShorthand | .a85Overflow => true
  | _ => false

/-- The causes that write `info` (R37, R211). -/
def Cause.hasInfo : Cause → Bool
  | .corruptTable | .invalidShorthand | .a85Overflow => true
  | _ => false

/-- The status registers' part of `raise` (R211). -/
def Stream.raise (io : Stream) (c : Cause) (info : BitVec 12) : Stream :=
  { io with
    cause := c
    err := if c.isFailure then true else io.err
    info := if c.hasInfo then info else io.info }

/-! ### The code table -/

/-- The value listed for an index. -/
def Memory.lookup : Memory → Nat → Option Bytes
  | [], _ => none
  | (j, y) :: m, i => if j = i then some y else Memory.lookup m i

/-- List a value for an index, keeping the indices strictly rising. -/
def Memory.insert : Memory → Nat → Bytes → Memory
  | [], i, x => [(i, x)]
  | (j, y) :: m, i, x =>
    if i < j then (i, x) :: (j, y) :: m
    else if i = j then (i, x) :: m
    else (j, y) :: Memory.insert m i x

/-- Take an index off the list. -/
def Memory.remove (m : Memory) (i : Nat) : Memory := m.filter fun p => p.1 != i

/-- `T[i]` (R27): a literal for 0 to 255, `NONE` for 256 and 257, the listed value of a dynamic slot, and the empty
byte-string for one that is not listed (log 2); beyond the table there is no slot. -/
def Memory.read (m : Memory) (i : Nat) : Option Bytes :=
  if i < 256 then some [BitVec.ofNat 8 i]
  else if i < 258 then none
  else if i < Config.tcap then some ((m.lookup i).getD [])
  else none

/-- `T[i] <- x` (R27, R70): only the dynamic slots 258 to 4095 have storage; the others are hardwired. Writing what an
unlisted slot holds takes the slot off the list. -/
def Memory.write (m : Memory) (i : Nat) (x : Bytes) : Memory :=
  if 258 ≤ i ∧ i < Config.tcap then (if x = [] then m.remove i else m.insert i x) else m

/-- Every listed index lies at or above `lo` and below the capacity, they rise strictly, and no entry is what an
unlisted slot holds. -/
def Memory.risingFrom : Nat → Memory → Bool
  | _, [] => true
  | lo, (i, x) :: m => lo ≤ i && i < Config.tcap && x != [] && Memory.risingFrom (i + 1) m

/-- The canonical form: indices strictly rising and within the dynamic slots, no entry empty. -/
def Memory.wf (m : Memory) : Bool := Memory.risingFrom 258 m

/-- The append of R145 and R146: slot `tlen` is written and `tlen` grows by 1, unless the table is full (R28, D9). -/
def Lzw.append (e : Lzw) (x : Bytes) : Lzw :=
  if e.tlen < Config.tcap then { e with table := e.table.write e.tlen x, tlen := e.tlen + 1 } else e

/-- The table reset that a CLEAR code performs (R142, R242): slots keep their bits and become unreadable. -/
def Lzw.tableReset (e : Lzw) : Lzw := { e with tlen := 258, prev := [] }

/-! ### The BitReader -/

/-- How the loop of R121 ends: with the value, or for want of a byte. The cursor is the one it leaves. -/
inductive LoopEnd where
  | value (v : Nat) (cur : Byte) (bpos ipos : Nat)
  | noByte (cur : Byte) (ipos : Nat)
deriving DecidableEq, Repr

/-- The loop of R121: `v` the bits taken so far, `k` the count still wanted, the cursor, and the bytes not loaded. -/
def readLoop (v k : Nat) (cur : Byte) (bpos ipos : Nat) : Bytes → LoopEnd
  | [] =>
    if k ≤ 8 - bpos then
      .value ((v <<< k) ||| ((cur.toNat >>> (8 - bpos - k)) &&& (2 ^ k - 1))) cur (bpos + k) ipos
    else .noByte cur ipos
  | b :: rest =>
    if k ≤ 8 - bpos then
      .value ((v <<< k) ||| ((cur.toNat >>> (8 - bpos - k)) &&& (2 ^ k - 1))) cur (bpos + k) ipos
    else
      readLoop ((v <<< (8 - bpos)) ||| (cur.toNat &&& (2 ^ (8 - bpos) - 1))) (k - (8 - bpos)) b 0 (ipos + 1) rest

/-- The BitReader's answer to a request. -/
inductive ReadEnd where
  /-- A byte is needed, none is supplied and `in_eof` is low: the request is held, the state unchanged (R22, R256). -/
  | waits
  /-- `EndOfInput`, and the engine it leaves (R122). -/
  | endOfInput (e : Lzw)
  /-- The value, and the engine it leaves (R121). -/
  | value (v : Nat) (e : Lzw)
deriving DecidableEq, Repr

/-- `BR.READ n` on the engine's bit cursor (R121, R122): the cursor and the response are written, nothing else. -/
def readBits (n : Nat) (e : Lzw) : ReadEnd :=
  match readLoop 0 n e.cur e.bpos e.io.ipos (e.io.inp.drop e.io.ipos) with
  | .value v cur bpos ipos =>
    .value v { e with cur := cur, bpos := bpos, resp := .value (BitVec.ofNat 32 v), io := { e.io with ipos := ipos } }
  | .noByte cur ipos =>
    if e.io.eof then
      .endOfInput { e with cur := cur, bpos := 8, resp := .endOfInput, io := { e.io with ipos := ipos } }
    else .waits

/-! ### One engine of the block -/

/-- The streams and status of an engine. -/
def State.io (s : State) : Engine → Stream
  | .lzw => s.lzw.io
  | .a85 => s.a85.io
  | .ahx => s.ahx.io

/-- Replace the streams and status of an engine. -/
def State.setIo (s : State) (e : Engine) (io : Stream) : State :=
  match e with
  | .lzw => { s with lzw := { s.lzw with io := io } }
  | .a85 => { s with a85 := { s.a85 with io := io } }
  | .ahx => { s with ahx := { s.ahx with io := io } }

/-- The engine is `Terminated` (R26, R40, R43). -/
def State.terminated (s : State) : Engine → Bool
  | .lzw => s.lzw.fsm == .terminated
  | .a85 => s.a85.fsm == .terminated
  | .ahx => s.ahx.fsm == .terminated

/-- Put the engine's state register to `Terminated`. -/
def State.setTerminated (s : State) (e : Engine) : State :=
  match e with
  | .lzw => { s with lzw := { s.lzw with fsm := .terminated } }
  | .a85 => { s with a85 := { s.a85 with fsm := .terminated } }
  | .ahx => { s with ahx := { s.ahx with fsm := .terminated } }

/-- `Emit(s)` on an engine's output stream (R12). -/
def State.emit (s : State) (e : Engine) (bs : Bytes) : State := s.setIo e ((s.io e).emit bs)

/-- `raise <Cause>(info)`: termination, the block's only kind of exception (R211). It writes the engine's state
register, `cause`, `err` and `info` and nothing else; nothing is saved and no handler is entered (R219). -/
def raise (e : Engine) (c : Cause) (info : BitVec 12) (s : State) : State :=
  (s.setIo e ((s.io e).raise c info)).setTerminated e

/-- Hardware reset of one engine (R240, R241), the only way out of `Terminated` (R220): every state element takes
its reset value, whatever the engine was doing; the pair mode is a parameter and stays (R21(c)). -/
def hwReset (e : Engine) (s : State) : State :=
  match e with
  | .lzw => { s with lzw := Lzw.reset }
  | .a85 => { s with a85 := A85.reset }
  | .ahx => { s with ahx := Ahx.reset s.ahx.mode }

end Sys2Proof.Machine
end

