-- ==== Sys2Proof/Machine/Operands.lean ====
section
/-!
DEFINITION. The operand arithmetic of the text engines and of byte-strings: `BE32` and `first` (spec/00_scope.md R11),
the ASCII85 group value and its padding (spec/30_encoding.md R95), the ASCIIHex byte (R97).
-/

namespace Sys2Proof.Machine

/-- `first(s)`: the one-byte string of the first byte, not defined for an empty byte-string (R11). -/
def first? : Bytes → Option Bytes
  | [] => none
  | b :: _ => some [b]

/-- `BE32(v)`: the four bytes of `v < 2^32`, most significant first (R11). -/
def be32 (v : Nat) : Bytes :=
  [BitVec.ofNat 8 (v >>> 24), BitVec.ofNat 8 (v >>> 16), BitVec.ofNat 8 (v >>> 8), BitVec.ofNat 8 v]

/-- One digit more in a group: `a_acc * 85 + d` (R95, R171). -/
def groupStep (acc d : Nat) : Nat := acc * 85 + d

/-- `k` padding digits of value 84 at the end of a group (R95, R175). -/
def padGroup : Nat → Nat → Nat
  | 0, acc => acc
  | k + 1, acc => padGroup k (groupStep acc 84)

/-- A group value that does not fit 32 bits (R95, R177). -/
def groupOverflows (acc : Nat) : Bool := 2 ^ 32 ≤ acc

/-- The byte of a pair of hex digit values: the first is the high nibble (R97, R63). -/
def hexByte (hi : BitVec 4) (lo : Nat) : Byte := BitVec.ofNat 8 (hi.toNat * 16 + lo)

/-- The class context that the engines' registers give (R98, R100). -/
def State.context (s : State) : Context :=
  { fsm := s.lzw.fsm, prevEmpty := s.lzw.prev.isEmpty, tlen := s.lzw.tlen, aCnt := s.a85.cnt }

end Sys2Proof.Machine
end

