-- ==== Sys2Proof/Machine/Flags.lean ====
section
/-!
DEFINITION. The status outputs: the numeric codes of the state registers and causes (spec/10_state.md R26, R37, R40,
R43), and the output signals of R22 as functions of the state. The block has no arithmetic condition codes (R44).
-/

namespace Sys2Proof.Machine

/-- `cause[2:0]` (R37). -/
def Cause.code : Cause → BitVec 3
  | .none => 0
  | .endOfData => 1
  | .endOfInput => 2
  | .terminator => 3
  | .corruptTable => 4
  | .invalidShorthand => 5
  | .a85Overflow => 6

/-- The encoding of `fsm` (R26); 3 is never produced. -/
def fsmCode : LzwFsm → BitVec 2
  | .awaitingClear => 0
  | .running => 1
  | .terminated => 2

/-- The encoding of `a_fsm` and `h_fsm` (R40, R43). -/
def textFsmCode : TextFsm → BitVec 1
  | .running => 0
  | .terminated => 1

/-- `out_valid`: a byte of `OUT` is waiting for the consumer (R22). -/
def State.outValid (s : State) (e : Engine) : Bool := (s.io e).taken < (s.io e).out.length

/-- `out_data`: that byte (R22). -/
def State.outData (s : State) (e : Engine) : Option Byte := (s.io e).out[(s.io e).taken]?

/-- The output staging is full: bytes wait for the consumer, as many as the staging holds or more (R22). A step that
begins with room stages all its bytes (log 13). -/
def State.outFull (s : State) (e : Engine) : Bool :=
  s.outValid e && decide (Config.outStaging e ≤ (s.io e).out.length - (s.io e).taken)

/-- `done`: the engine has terminated and the consumer has every byte of `OUT` (R22). -/
def State.done (s : State) (e : Engine) : Bool := s.terminated e && (s.io e).out.length ≤ (s.io e).taken

/-- `in_ready`: the engine still takes input bytes (R22, R216). DESIGN CHOICE (log 14): input staging is unbounded. -/
def State.inReady (s : State) (e : Engine) : Bool := !s.terminated e

/-- `cause`, `err` and `info` as the host reads them (R22, R37). -/
def State.status (s : State) (e : Engine) : BitVec 3 × Bool × BitVec 12 :=
  ((s.io e).cause.code, (s.io e).err, (s.io e).info)

end Sys2Proof.Machine
end

