-- ==== Sys2Proof/Machine/Ascii85.lean ====
section
/-!
DEFINITION. The meanings of the ASCII85 classes (spec/42_ascii85.md), each run after its byte has been consumed. A
meaning asked for in a state where its class's condition does not hold is refused (log 9).
-/

namespace Sys2Proof.Machine

/-- `A85.EOI` (R176): pending digits are dropped. -/
def execA85Eoi (s : State) : Host.Outcome State Fault Refusal :=
  if s.a85.fsm = .running ∧ s.a85.io.inExhausted then .next (raise .a85 .endOfInput 0 s)
  else .refused .classDoesNotApply

/-- `A85.DIGIT` (R171, R177): the fifth digit completes the group. DEDUCED (log 11): an overflow leaves `a_acc` and
`a_cnt` as they are when `raise` is reached (R211). -/
def execA85Digit (c : Byte) (s : State) : Host.Outcome State Fault Refusal :=
  if s.a85.fsm = .running ∧ isA85Digit c then
    let acc := groupStep s.a85.acc (a85Value c)
    let cnt := s.a85.cnt + 1
    let s1 := { s with a85 := { s.a85 with acc := acc, cnt := cnt } }
    if cnt = 5 then
      if groupOverflows acc then .next (raise .a85 .a85Overflow 5 s1)
      else
        let s2 := s1.emit .a85 (be32 acc)
        .next { s2 with a85 := { s2.a85 with acc := 0, cnt := 0 } }
    else .next s1
  else .refused .classDoesNotApply

/-- `A85.Z` (R172): the all-zero group, with no digit pending. -/
def execA85Z (s : State) : Host.Outcome State Fault Refusal :=
  if s.a85.fsm = .running ∧ s.a85.cnt = 0 then .next (s.emit .a85 [0, 0, 0, 0]) else .refused .classDoesNotApply

/-- `A85.ZBAD` (R173): the shorthand while digits are pending. -/
def execA85Zbad (s : State) : Host.Outcome State Fault Refusal :=
  if s.a85.fsm = .running ∧ s.a85.cnt ≠ 0 then
    .next (raise .a85 .invalidShorthand (BitVec.ofNat 12 s.a85.cnt) s)
  else .refused .classDoesNotApply

/-- `A85.END` (R175, R177): a pending short group is padded, tested and emitted, then the decode ends. -/
def execA85End (s : State) : Host.Outcome State Fault Refusal :=
  if s.a85.fsm = .running then
    if 0 < s.a85.cnt then
      let n := s.a85.cnt
      let acc := padGroup (5 - n) s.a85.acc
      let s1 := { s with a85 := { s.a85 with acc := acc } }
      if groupOverflows acc then .next (raise .a85 .a85Overflow (BitVec.ofNat 12 n) s1)
      else .next (raise .a85 .terminator 0 (s1.emit .a85 ((be32 acc).take (n - 1))))
    else .next (raise .a85 .terminator 0 s)
  else .refused .classDoesNotApply

/-- `A85.SKIP` (R174): nothing but the cursor moves, and that the fetch has done. -/
def execA85Skip (c : Byte) (s : State) : Host.Outcome State Fault Refusal :=
  if s.a85.fsm = .running ∧ ¬ isA85Digit c ∧ c ≠ a85ZChar ∧ c ≠ a85Tilde then .next s
  else .refused .classDoesNotApply

end Sys2Proof.Machine
end

