-- ==== Sys2Proof/Machine/AsciiHex.lean ====
section
/-!
DEFINITION. The meanings of the ASCIIHex classes (spec/43_asciihex.md), each run after its byte has been consumed, for
both values of `AHX_PAIR_MODE`. A meaning asked for in a state where its class's condition does not hold is refused
(log 9).
-/

namespace Sys2Proof.Machine

/-- `FLUSH` (R195): a lone trailing digit becomes the high nibble of a last byte, unless a digit was dropped. -/
def ahxFlush (s : State) : State :=
  let s1 := if s.ahx.pv ∧ ¬ s.ahx.stray then s.emit .ahx [hexByte s.ahx.pend 0] else s
  { s1 with ahx := { s1.ahx with pv := false } }

/-- `AHX.EOI` (R193). -/
def execAhxEoi (s : State) : Host.Outcome State Fault Refusal :=
  if s.ahx.fsm = .running ∧ s.ahx.io.inExhausted then .next (raise .ahx .endOfInput 0 (ahxFlush s))
  else .refused .classDoesNotApply

/-- `AHX.DIGIT` (R191): complete a pair, or drop a separated digit (`ADJACENT` only), or start a pair. -/
def execAhxDigit (c : Byte) (s : State) : Host.Outcome State Fault Refusal :=
  if s.ahx.fsm = .running then
    match hexValue? c with
    | none => .refused .classDoesNotApply
    | some v =>
      if s.ahx.pv ∧ (s.ahx.mode = .stream ∨ ¬ s.ahx.sep) then
        let s1 := s.emit .ahx [hexByte s.ahx.pend v]
        .next { s1 with ahx := { s1.ahx with pv := false } }
      else if s.ahx.pv then
        .next { s with ahx := { s.ahx with stray := true, pend := BitVec.ofNat 4 v, sep := false } }
      else
        .next { s with ahx := { s.ahx with pend := BitVec.ofNat 4 v, pv := true, sep := false } }
  else .refused .classDoesNotApply

/-- `AHX.END` (R192). -/
def execAhxEnd (s : State) : Host.Outcome State Fault Refusal :=
  if s.ahx.fsm = .running then .next (raise .ahx .terminator 0 (ahxFlush s)) else .refused .classDoesNotApply

/-- `AHX.SKIP` (R194): in `ADJACENT` mode a pending digit is marked as separated. -/
def execAhxSkip (c : Byte) (s : State) : Host.Outcome State Fault Refusal :=
  if s.ahx.fsm = .running ∧ hexValue? c = none ∧ c ≠ ahxGt then
    if s.ahx.mode = .adjacent ∧ s.ahx.pv then .next { s with ahx := { s.ahx with sep := true } } else .next s
  else .refused .classDoesNotApply

end Sys2Proof.Machine
end

