-- ==== Sys2Proof/Machine/BitReader.lean ====
section
/-!
DEFINITION. The BitReader's one operation (spec/40_bitreader.md).
-/

namespace Sys2Proof.Machine

/-- `BR.READ n` (R120 to R123): the value or `EndOfInput` as the response, the cursor moved; held with the state
unchanged while a byte it needs may still come (R22); refused outside `1 <= n <= 32`. -/
def execBrRead (n : BitVec 6) (s : State) : Host.Outcome State Fault Refusal :=
  if 1 ≤ n.toNat ∧ n.toNat ≤ 32 then
    match readBits n.toNat s.lzw with
    | .waits => .next s
    | .endOfInput e => .next { s with lzw := e }
    | .value _ e => .next { s with lzw := e }
  else .refused (.requestOutOfContract n)

end Sys2Proof.Machine
end

