-- ==== Sys2Proof/Machine/LzwDecoder.lean ====
section
/-!
DEFINITION. The meanings of the LZW classes (spec/41_lzw.md), each run after the code has been read. A meaning asked
for in a state where its class's condition does not hold is refused (log 9); the fetch never asks so.
-/

namespace Sys2Proof.Machine

/-- `LZW.EOI` (R151): the BitReader answered `EndOfInput`. -/
def execLzwEoi (s : State) : Host.Outcome State Fault Refusal :=
  if s.lzw.fsm ≠ .terminated ∧ s.lzw.resp = .endOfInput then .next (raise .lzw .endOfInput 0 s)
  else .refused .classDoesNotApply

/-- `LZW.CLEAR` (R142). -/
def execLzwClear (s : State) : Host.Outcome State Fault Refusal :=
  if s.lzw.fsm ≠ .terminated then
    .next (State.emit { s with lzw := { s.lzw.tableReset with fsm := .running } } .lzw [])
  else .refused .classDoesNotApply

/-- `LZW.EOD` (R143). -/
def execLzwEod (s : State) : Host.Outcome State Fault Refusal :=
  if s.lzw.fsm ≠ .terminated then .next (raise .lzw .endOfData 0 s) else .refused .classDoesNotApply

/-- `LZW.NOCLEAR` (R149): a data code before any CLEAR. -/
def execLzwNoclear (code : Code) (s : State) : Host.Outcome State Fault Refusal :=
  if s.lzw.fsm = .awaitingClear ∧ isDataCode code then .next (raise .lzw .corruptTable code s)
  else .refused .classDoesNotApply

/-- `LZW.FIRST` (R144): the first data code after a table reset. -/
def execLzwFirst (code : Code) (s : State) : Host.Outcome State Fault Refusal :=
  if s.lzw.fsm = .running ∧ s.lzw.prev = [] ∧ code.toNat ≤ 255 then
    match s.lzw.table.read code.toNat with
    | none => .fault (.unreadableSlot code.toNat)
    | some x =>
      let s1 := s.emit .lzw x
      .next { s1 with lzw := { s1.lzw with prev := x } }
  else .refused .classDoesNotApply

/-- `LZW.BADFIRST` (R148): a code of 258 or more as the first data code after a table reset. -/
def execLzwBadfirst (code : Code) (s : State) : Host.Outcome State Fault Refusal :=
  if s.lzw.fsm = .running ∧ s.lzw.prev = [] ∧ 258 ≤ code.toNat then .next (raise .lzw .corruptTable code s)
  else .refused .classDoesNotApply

/-- `LZW.REF` (R145): the lookup comes before the append (R251), and `prev` changes last (R253). -/
def execLzwRef (code : Code) (s : State) : Host.Outcome State Fault Refusal :=
  if s.lzw.fsm = .running ∧ s.lzw.prev ≠ [] ∧ code.toNat < s.lzw.tlen ∧ isDataCode code then
    match s.lzw.table.read code.toNat with
    | none => .fault (.unreadableSlot code.toNat)
    | some x =>
      match first? x with
      | none => .fault .firstOfEmpty
      | some f =>
        let s1 := { s with lzw := s.lzw.append (s.lzw.prev ++ f) }
        let s2 := s1.emit .lzw x
        .next { s2 with lzw := { s2.lzw with prev := x } }
  else .refused .classDoesNotApply

/-- `LZW.KWKWK` (R146): the chunk is built from `prev`; no slot is read (R252). -/
def execLzwKwkwk (code : Code) (s : State) : Host.Outcome State Fault Refusal :=
  if s.lzw.fsm = .running ∧ s.lzw.prev ≠ [] ∧ code.toNat = s.lzw.tlen ∧ isDataCode code then
    match first? s.lzw.prev with
    | none => .fault .firstOfEmpty
    | some f =>
      let x := s.lzw.prev ++ f
      let s1 := { s with lzw := s.lzw.append x }
      let s2 := s1.emit .lzw x
      .next { s2 with lzw := { s2.lzw with prev := x } }
  else .refused .classDoesNotApply

/-- `LZW.CORRUPT` (R147): a code beyond the next slot to append. -/
def execLzwCorrupt (code : Code) (s : State) : Host.Outcome State Fault Refusal :=
  if s.lzw.fsm = .running ∧ s.lzw.prev ≠ [] ∧ s.lzw.tlen < code.toNat ∧ isDataCode code then
    .next (raise .lzw .corruptTable code s)
  else .refused .classDoesNotApply

end Sys2Proof.Machine
end

