-- ==== Sys2Proof/Machine/Dispatch.lean ====
section
/-!
DEFINITION. One arm per symbol class: which meaning runs.
-/

namespace Sys2Proof.Machine

def exec (i : Instr) (s : State) : Host.Outcome State Fault Refusal :=
  match i with
  | .brRead n => Sys2Proof.Machine.execBrRead n s
  | .lzwEoi => Sys2Proof.Machine.execLzwEoi s
  | .lzwClear => Sys2Proof.Machine.execLzwClear s
  | .lzwEod => Sys2Proof.Machine.execLzwEod s
  | .lzwNoclear code => Sys2Proof.Machine.execLzwNoclear code s
  | .lzwFirst code => Sys2Proof.Machine.execLzwFirst code s
  | .lzwBadfirst code => Sys2Proof.Machine.execLzwBadfirst code s
  | .lzwRef code => Sys2Proof.Machine.execLzwRef code s
  | .lzwKwkwk code => Sys2Proof.Machine.execLzwKwkwk code s
  | .lzwCorrupt code => Sys2Proof.Machine.execLzwCorrupt code s
  | .a85Eoi => Sys2Proof.Machine.execA85Eoi s
  | .a85Digit c => Sys2Proof.Machine.execA85Digit c s
  | .a85Z => Sys2Proof.Machine.execA85Z s
  | .a85Zbad => Sys2Proof.Machine.execA85Zbad s
  | .a85End => Sys2Proof.Machine.execA85End s
  | .a85Skip c => Sys2Proof.Machine.execA85Skip c s
  | .ahxEoi => Sys2Proof.Machine.execAhxEoi s
  | .ahxDigit c => Sys2Proof.Machine.execAhxDigit c s
  | .ahxEnd => Sys2Proof.Machine.execAhxEnd s
  | .ahxSkip c => Sys2Proof.Machine.execAhxSkip c s

end Sys2Proof.Machine
end

