-- ==== Sys2Proof/Machine/Fetch.lean ====
section
/-!
DEFINITION. How an engine gets its next symbol: one BitReader read at the current width for LZW (spec/41_lzw.md R140),
one byte for the text engines (R170, R190), and the placing of an opcode-table word in front of an engine.
-/

namespace Sys2Proof.Machine

/-- What an engine finds when it looks for its next symbol. -/
inductive Fetched where
  /-- The engine has terminated and has no step (R140, R170, R190, R216). -/
  | halted
  /-- A byte is needed, none is supplied and `in_eof` is low: the engine holds (R22, R256). -/
  | waits
  /-- The BitReader's waiting request is outside its contract (R123). -/
  | rejected (n : BitVec 6)
  /-- The symbol's class, and the state with the symbol consumed. -/
  | got (i : Instr) (s : State)
deriving DecidableEq, Repr

/-- The LZW decoder's fetch (R140): `BR.READ width(tlen)`, then the class of the code (R141). -/
def fetchCode (s : State) : Fetched :=
  match readBits (width s.lzw.tlen) s.lzw with
  | .waits => .waits
  | .endOfInput e => .got .lzwEoi { s with lzw := e }
  | .value v e => .got (classifyCode s.context (BitVec.ofNat 12 v)) { s with lzw := e }

/-- A request that stands at the BitReader's interface (R23; log 8): it stays waiting while its bytes are missing, else
it is taken off and served. -/
def fetchRequest (n : BitVec 6) (s : State) : Fetched :=
  match classifyRequest n with
  | none => .rejected n
  | some i =>
    match readBits n.toNat s.lzw with
    | .waits => .waits
    | _ => .got i { s with lzw := { s.lzw with req := none } }

/-- The LZW engine: a terminated one is frozen (R216); a standing request is answered before the next is
made (R125), and the decoder's own request is for its next code. -/
def fetchLzw (s : State) : Fetched :=
  if s.lzw.fsm = .terminated then .halted
  else
    match s.lzw.req with
    | some n => fetchRequest n s
    | none => fetchCode s

/-- The ASCII85 engine (R170). -/
def fetchA85 (s : State) : Fetched :=
  if s.a85.fsm = .terminated then .halted
  else
    match s.a85.io.inNext with
    | some (c, io) => .got (classifyA85 s.a85.cnt c) (s.setIo .a85 io)
    | none => if s.a85.io.inExhausted then .got .a85Eoi s else .waits

/-- The ASCIIHex engine (R190). -/
def fetchAhx (s : State) : Fetched :=
  if s.ahx.fsm = .terminated then .halted
  else
    match s.ahx.io.inNext with
    | some (c, io) => .got (classifyAhx c) (s.setIo .ahx io)
    | none => if s.ahx.io.inExhausted then .got .ahxEoi s else .waits

/-- The next symbol of an engine. -/
def fetch (e : Engine) (s : State) : Fetched :=
  match e with
  | .lzw => fetchLzw s
  | .a85 => fetchA85 s
  | .ahx => fetchAhx s

/-! ### The bits an engine has not read -/

/-- The stream bits of the LZW input that no read has consumed (R24): the rest of `cur`, then the bytes not loaded. -/
def Lzw.unread (e : Lzw) : List Bool := (byteBits e.cur).drop e.bpos ++ streamBits (e.io.inp.drop e.io.ipos)

/-- The input bits an engine has not consumed. -/
def State.unread (s : State) : Engine → List Bool
  | .lzw => s.lzw.unread
  | .a85 => streamBits (s.a85.io.inp.drop s.a85.io.ipos)
  | .ahx => streamBits (s.ahx.io.inp.drop s.ahx.io.ipos)

/-! ### Placing an opcode-table word -/

/-- Replace the unread input bytes of a stream. -/
def Stream.supply (io : Stream) (bytes : Bytes) (eof : Bool) : Stream :=
  { io with inp := io.inp.take io.ipos ++ bytes, eof := eof }

/-- A terminated engine is reset, any other is left alone: a new decode begins with `rst` (R243(a)). -/
def State.revive (s : State) (e : Engine) : State := if s.terminated e then hwReset e s else s

/-- The two bytes that hold a 9-bit code from bit 7 of the first one on, the bits after it zero (R90). -/
def codeBytes (w : Nat) : Bytes := [BitVec.ofNat 8 (w >>> 1), BitVec.ofNat 8 (w <<< 7)]

/-- An engine whose output staging is full is given a consumer that has taken every byte (R254). -/
def State.relieve (s : State) (e : Engine) : State :=
  if s.outFull e then s.setIo e { s.io e with taken := (s.io e).out.length } else s

/-- Place a word of the opcode table in front of the engine it belongs to (`probeUnit`, log 15), in the state
`probeContext` where its class depends on it. -/
def placeWord (s : State) (nbits w : Nat) : State :=
  match probeUnit nbits w with
  | .bitReader =>
    let s := (s.revive .lzw).relieve .lzw
    { s with lzw := { s.lzw with req := some (BitVec.ofNat 6 w), io := { s.lzw.io with eof := true } }, active := .lzw }
  | .lzw =>
    let s := (s.revive .lzw).relieve .lzw
    let bytes := if nbits = 0 then [] else codeBytes w
    { s with
      lzw := { s.lzw with fsm := .running, prev := [], tlen := 258, bpos := 8, req := none, io := s.lzw.io.supply bytes true }
      active := .lzw }
  | .a85 =>
    let s := (s.revive .a85).relieve .a85
    let s := if w = 122 then { s with a85 := { s.a85 with acc := 0, cnt := 0 } } else s
    { s with a85 := { s.a85 with io := s.a85.io.supply [BitVec.ofNat 8 w] true }, active := .a85 }
  | .ahx =>
    let s := (s.revive .ahx).relieve .ahx
    { s with ahx := { s.ahx with io := s.ahx.io.supply [BitVec.ofNat 8 w] true }, active := .ahx }

end Sys2Proof.Machine
end

