-- ==== Sys2Proof/Machine/HostPort.lean ====
section
/-!
DEFINITION. What the host's actions do (spec/10_state.md R22; spec/70_reset_and_hazards.md R240, R243). Each lands
between two steps (R13). The action `run` is a step of an engine and stands in Step.lean.
-/

namespace Sys2Proof.Machine

/-- The host supplies one input byte (R22). A terminated engine does not take it (R216, U17); a byte after `in_eof`
breaks the host's duty and is refused (R243(d), U19). -/
def hostOffer (e : Engine) (b : Byte) (s : State) : Host.Outcome State Fault Refusal :=
  if s.terminated e then .next s
  else if (s.io e).eof then .refused .offerAfterEof
  else .next (s.setIo e { s.io e with inp := (s.io e).inp ++ [b] })

/-- The host raises `in_eof`; it stays high until `rst` (R22). -/
def hostEof (e : Engine) (s : State) : State := s.setIo e { s.io e with eof := true }

/-- The consumer takes the byte on offer; with no byte on offer no transfer happens (R22). It lifts the hold of an
engine whose output staging was full. -/
def hostTake (e : Engine) (s : State) : State :=
  if s.outValid e then s.setIo e { s.io e with taken := (s.io e).taken + 1 } else s

end Sys2Proof.Machine
end

