-- ==== Sys2Proof/Machine/Step.lean ====
section
/-!
DEFINITION. One step of the block: the oldest waiting host action, or, while none waits, one symbol of the active
engine (spec/00_scope.md R6, R13; log 4). And the placing of an opcode-table word where the next step reads it.
-/

namespace Sys2Proof.Machine

/-- One step of an engine (R140, R170, R190). An engine that has terminated, or holds for the consumer because its
output staging is full, or waits for a byte, stays as it is (R216, R22, R254, R256, U18; log 6). -/
def engineStep (e : Engine) (s : State) : Host.Outcome State Fault Refusal :=
  if s.outFull e then .next s
  else
    match fetch e s with
    | .halted => .next s
    | .waits => .next s
    | .rejected n => .refused (.requestOutOfContract n)
    | .got i t => exec i t

/-- One host action (R22, R240). -/
def hostStep (a : HostAct) (s : State) : Host.Outcome State Fault Refusal :=
  match a with
  | .rst e => .next (hwReset e s)
  | .offer e b => hostOffer e b s
  | .eof e => .next (hostEof e s)
  | .take e => .next (hostTake e s)
  | .run e => engineStep e { s with active := e }

/-- One step of the block. -/
def step (s : State) : Host.Outcome State Fault Refusal :=
  match s.host with
  | [] => engineStep s.active s
  | a :: rest => hostStep a { s with host := rest }

/-- The state with the instruction of an opcode-table word (`decodeTableWord`) as the next one to run (log 15). -/
def State.withFetchWord (s : State) (nbits w : Nat) : State := { placeWord s nbits w with host := [] }

end Sys2Proof.Machine
end

