-- ==== Sys2Proof/Safety.lean ====
section
/-!
DEFINITION. The terms that claims use: the invariants of a reachable state (spec/10_state.md R31 to R43), which engine a
step may change, what no output ever shows (R46), the host's duties (spec/70_reset_and_hazards.md R243), and the bit
stream as the spec numbers it (spec/20_memory.md R60, R61).
-/

namespace Sys2Proof.Machine

/-! ### Invariants -/

/-- What holds of every engine's streams and status: the cursor is inside the input (R24), the consumer has no byte
that was not emitted, and the status is written at termination only, as the cause says (R37, R211). -/
structure Stream.Inv (io : Stream) (terminated : Bool) : Prop where
  ipos_le : io.ipos ≤ io.inp.length
  taken_le : io.taken ≤ io.out.length
  cause_iff : io.cause = .none ↔ terminated = false
  err_eq : io.err = io.cause.isFailure
  info_eq : io.cause.hasInfo = false → io.info = 0

/-- What holds of the LZW engine: R28 and R33(a) for `tlen`, R33(c) and R31 for the slots, R30 and R31 for `prev`, R35,
R36 and R124(d) for the bit cursor, R210 for the causes, and the canonical form of the table. -/
structure Lzw.Inv (e : Lzw) : Prop where
  io : e.io.Inv (e.fsm == .terminated)
  causes : e.io.cause ∈ [Cause.none, .endOfData, .endOfInput, .corruptTable]
  tlen_lo : 258 ≤ e.tlen
  tlen_hi : e.tlen ≤ 4096
  table_wf : e.table.wf = true
  slots : ∀ i, 258 ≤ i → i < e.tlen → ∃ x, e.table.read i = some x ∧ 2 ≤ x.length ∧ x.length ≤ i - 256
  prev_len : e.prev.length ≤ e.tlen - 257
  prev_nil : e.prev = [] → e.tlen = 258
  awaiting : e.fsm = .awaitingClear → e.prev = []
  bpos_lo : 1 ≤ e.bpos
  bpos_hi : e.bpos ≤ 8
  cur_eq : e.bpos < 8 → 0 < e.io.ipos ∧ e.io.inp[e.io.ipos - 1]? = some e.cur

/-- What holds of the ASCII85 engine: R38, R39 (and log 11 for a terminated engine), R210. -/
structure A85.Inv (e : A85) : Prop where
  io : e.io.Inv (e.fsm == .terminated)
  causes : e.io.cause ∈ [Cause.none, .endOfInput, .terminator, .invalidShorthand, .a85Overflow]
  running : e.fsm = .running → e.cnt ≤ 4 ∧ e.acc < 85 ^ e.cnt
  cnt_le : e.cnt ≤ 5
  acc_lt : e.acc < 2 ^ 33

/-- What holds of the ASCIIHex engine: R42 in `STREAM` mode, a separator only after a pending digit (R194), R210. -/
structure Ahx.Inv (e : Ahx) : Prop where
  io : e.io.Inv (e.fsm == .terminated)
  causes : e.io.cause ∈ [Cause.none, .endOfInput, .terminator]
  stream : e.mode = .stream → e.sep = false ∧ e.stray = false
  sep_pending : e.fsm = .running → e.sep = true → e.pv = true

/-- The invariant of the block. -/
structure State.Inv (s : State) : Prop where
  lzw : s.lzw.Inv
  a85 : s.a85.Inv
  ahx : s.ahx.Inv

/-- Every dynamic entry is an earlier entry and one byte more, and `prev` is empty or an entry: the pair form of R32
loses nothing. -/
structure Lzw.Linked (e : Lzw) : Prop where
  entry : ∀ i, 258 ≤ i → i < e.tlen →
    ∃ k y b, k < i ∧ e.table.read k = some y ∧ e.table.read i = some (y ++ [b])
  prev : e.prev = [] ∨ ∃ k, k < e.tlen ∧ e.table.read k = some e.prev

/-! ### Frames -/

/-- `t` differs from `s` in engine `e` at most: no other engine, and nothing of the host's side. -/
def SameElsewhere (e : Engine) (s t : State) : Prop :=
  (e ≠ .lzw → t.lzw = s.lzw) ∧ (e ≠ .a85 → t.a85 = s.a85) ∧ (e ≠ .ahx → t.ahx = s.ahx) ∧
    t.active = s.active ∧ t.host = s.host

/-- Every slot of the code table reads as before. -/
def SameTable (e f : Lzw) : Prop := ∀ i, f.table.read i = e.table.read i

/-- The LZW engine's input side is as before: the bit cursor, `IN`, `in_eof`, and the BitReader's latches. -/
def SameInput (e f : Lzw) : Prop :=
  f.cur = e.cur ∧ f.bpos = e.bpos ∧ f.req = e.req ∧ f.resp = e.resp ∧ f.io.ipos = e.io.ipos ∧
    f.io.inp = e.io.inp ∧ f.io.eof = e.io.eof

/-- The status registers of a stream are as before. -/
def SameStatus (io jo : Stream) : Prop := jo.cause = io.cause ∧ jo.err = io.err ∧ jo.info = io.info

/-- The host's side of a stream is as before: `IN`, `in_eof`, the cursor, the count of bytes taken. -/
def SameSupply (io jo : Stream) : Prop :=
  jo.inp = io.inp ∧ jo.eof = io.eof ∧ jo.ipos = io.ipos ∧ jo.taken = io.taken

/-- `t` is `s` with engine `e` terminated and its status registers written, nothing else (R211, R219). -/
def EndsWith (e : Engine) (c : Cause) (err : Bool) (info : BitVec 12) (s t : State) : Prop :=
  t = (s.setIo e { s.io e with cause := c, err := err, info := info }).setTerminated e

/-- `t` is `s` with a symbol fetched: input cursors and the BitReader's response may differ, nothing else. -/
def OnlyCursors (s t : State) : Prop :=
  t = { s with
    lzw := { s.lzw with
      cur := t.lzw.cur, bpos := t.lzw.bpos, resp := t.lzw.resp, io := { s.lzw.io with ipos := t.lzw.io.ipos } }
    a85 := { s.a85 with io := { s.a85.io with ipos := t.a85.io.ipos } }
    ahx := { s.ahx with io := { s.ahx.io with ipos := t.ahx.io.ipos } } }

/-- The two states hold the same engine `e`. -/
def AgreeOn (e : Engine) (s t : State) : Prop :=
  match e with
  | .lzw => t.lzw = s.lzw
  | .a85 => t.a85 = s.a85
  | .ahx => t.ahx = s.ahx

/-- The state is one in which the class's symbol can be met: the condition columns of R98, R100 and R101 on an engine
that still takes steps (R140, R170, R190); an `EOI` class follows a read that found the input exhausted. -/
def State.Meets (s : State) : Instr → Prop
  | .brRead _ => True
  | .lzwEoi => s.lzw.fsm ≠ .terminated ∧ s.lzw.resp = .endOfInput
  | .lzwClear | .lzwEod => s.lzw.fsm ≠ .terminated
  | .lzwNoclear _ => s.lzw.fsm = .awaitingClear
  | .lzwFirst _ | .lzwBadfirst _ => s.lzw.fsm = .running ∧ s.lzw.prev = []
  | .lzwRef code => s.lzw.fsm = .running ∧ s.lzw.prev ≠ [] ∧ code.toNat < s.lzw.tlen
  | .lzwKwkwk code => s.lzw.fsm = .running ∧ s.lzw.prev ≠ [] ∧ code.toNat = s.lzw.tlen
  | .lzwCorrupt code => s.lzw.fsm = .running ∧ s.lzw.prev ≠ [] ∧ s.lzw.tlen < code.toNat
  | .a85Eoi => s.a85.fsm = .running ∧ s.a85.io.inExhausted = true
  | .a85Digit _ | .a85End | .a85Skip _ => s.a85.fsm = .running
  | .a85Z => s.a85.fsm = .running ∧ s.a85.cnt = 0
  | .a85Zbad => s.a85.fsm = .running ∧ s.a85.cnt ≠ 0
  | .ahxEoi => s.ahx.fsm = .running ∧ s.ahx.io.inExhausted = true
  | .ahxDigit _ | .ahxEnd | .ahxSkip _ => s.ahx.fsm = .running

/-! ### What no output shows (R46) -/

/-- Two LZW engines that differ only in slots at or above `tlen`, and in `cur` while `bpos = 8`. -/
structure Lzw.Alike (e f : Lzw) : Prop where
  same : f = { e with table := f.table, cur := f.cur }
  slots : ∀ i, i < e.tlen → f.table.read i = e.table.read i
  cur_eq : e.bpos ≠ 8 → f.cur = e.cur

/-- Two ASCIIHex engines that differ only in `h_pend` while `h_pv = 0`. -/
structure Ahx.Alike (e f : Ahx) : Prop where
  same : f = { e with pend := f.pend }
  pend_eq : e.pv = true → f.pend = e.pend

/-- Two blocks that differ only in what no output shows. -/
structure State.Alike (s t : State) : Prop where
  lzw : s.lzw.Alike t.lzw
  a85 : t.a85 = s.a85
  ahx : s.ahx.Alike t.ahx
  active : t.active = s.active
  host : t.host = s.host

/-! ### The host's duties -/

/-- The next step breaks no duty of the host, no byte after `in_eof` (R243(d)), and a request that stands at the
BitReader's interface is inside its contract (R120). -/
structure State.HostDuty (s : State) : Prop where
  offer : ∀ e b rest, s.host = .offer e b :: rest → s.terminated e = true ∨ (s.io e).eof = false
  contract : ∀ n, s.lzw.req = some n → 1 ≤ n.toNat ∧ n.toNat ≤ 32

/-! ### Bits and whole decodes -/

/-- Stream bit `k`: bit `7 - (k mod 8)` of byte `IN[k div 8]` (R60); 0 past the end. -/
def streamBit (inp : Bytes) (k : Nat) : Nat :=
  match inp[k / 8]? with
  | some b => (b.getLsbD (7 - k % 8)).toNat
  | none => 0

/-- The value of `n` bits read starting at stream bit `k` (R61). -/
def bitsAt (inp : Bytes) (k n : Nat) : Nat := ∑ j ∈ Finset.range n, streamBit inp (k + j) * 2 ^ (n - 1 - j)

/-- The stream-bit position of the LZW bit cursor (R124). -/
def Lzw.bitPos (e : Lzw) : Nat := 8 * e.io.ipos - (8 - e.bpos)

/-- A decode of `bytes` by engine `e` about to begin: the block as reset, its ASCIIHex instance of pair mode `m`, the
whole input supplied and `in_eof` raised (R240, R243). -/
def startDecode (e : Engine) (m : PairMode) (bytes : Bytes) : State :=
  let s := { State.resetWith m with active := e }
  s.setIo e { s.io e with inp := bytes, eof := true }

/-- The consumer of engine `e` has taken every byte on offer (R22): what as many `take` actions as bytes wait do. -/
def State.drained (s : State) (e : Engine) : State := s.setIo e { s.io e with taken := (s.io e).out.length }

/-- `k` steps of the block under a consumer of engine `e` that keeps its duty (R243(e)): it takes what is on offer before
each step. The run stops at the first fault or refusal. -/
def run (e : Engine) : Nat → State → Host.Outcome State Fault Refusal
  | 0, s => .next s
  | k + 1, s =>
    match step (s.drained e) with
    | .next t => run e k t
    | .fault r => .fault r
    | .refused r => .refused r

/-- A decode has come to this end: what the host gets back of engine `e` (R244). -/
def Ended (o : Host.Outcome State Fault Refusal) (e : Engine) (out : Bytes) (c : Cause) (err : Bool) (info : BitVec 12) :
    Prop :=
  ∃ t, o = .next t ∧ t.terminated e = true ∧ (t.io e).out = out ∧ (t.io e).cause = c ∧ (t.io e).err = err ∧
    (t.io e).info = info

/-- No `AHX.SKIP` byte stands after a pending digit and before a later hex digit, up to the terminator (the condition
of R196(c)); `pv` says that a digit is pending. -/
def adjacentDigits (pv : Bool) : Bytes → Bool
  | [] => true
  | c :: rest =>
    match hexValue? c with
    | some _ => adjacentDigits (!pv) rest
    | none =>
      if c = ahxGt then true
      else (!pv || ((rest.takeWhile (· != ahxGt)).all fun d => (hexValue? d).isNone)) && adjacentDigits pv rest

/-- The codes of literal bytes as an encoder writes them, each at the width the decoder will read it with, then
END-OF-DATA (R103, R153): `first` says that no data code has come since the CLEAR, `t` is the table length. -/
def packLiterals (first : Bool) (t : Nat) : Bytes → List Bool
  | [] => valueBits (width t) 257
  | b :: rest =>
    valueBits (width t) b.toNat ++ packLiterals false (if first then t else min (t + 1) Config.tcap) rest

end Sys2Proof.Machine
end

