-- ==== Sys2Proof/Certificates/Slice0/Obligations.lean ====
section
/-!
DEFINITION. The statements about the model, for the provers. Each docstring says which part of the spec it formalises
and, where it rests on a decision of the spec (D<n>) or of the model (log <n>), says so.
-/

open Sys2Proof Sys2Proof.Machine

/-! ### Reset, and the invariants of every reachable state -/

/-- The reset table of 10_state.md section 10 (decisions D5, D6, D10), for an instance of either pair mode. The registers the
spec leaves unspecified (`cur`, `h_pend`, the dynamic slots) are not mentioned. -/
def Obligations.ResetHoldsTheSpecsValues : Prop :=
  ∀ m : PairMode,
    let s := State.resetWith m
    s.lzw.fsm = .awaitingClear ∧ fsmCode s.lzw.fsm = 0 ∧
    (∀ i, i < 256 → s.lzw.table.read i = some [BitVec.ofNat 8 i]) ∧
    s.lzw.table.read 256 = none ∧ s.lzw.table.read 257 = none ∧
    s.lzw.tlen = 258 ∧ s.lzw.prev = [] ∧ s.lzw.bpos = 8 ∧
    s.a85.fsm = .running ∧ s.a85.acc = 0 ∧ s.a85.cnt = 0 ∧
    s.ahx.fsm = .running ∧ s.ahx.pv = false ∧ s.ahx.sep = false ∧ s.ahx.stray = false ∧
    ∀ e, (s.io e).ipos = 0 ∧ (s.io e).out = [] ∧ s.status e = (0, false, 0)

/-- Hardware reset (70_reset_and_hazards.md section 1, decision D6): whatever an engine is doing, `rst` gives it the reset
state; the other engines go on as they are. That `rst` asserts and releases in one action, that it keeps the pair mode, and the
values of `cur`, of `h_pend` and of the dynamic slots in that state are the model's (log 17, log 3, log 1, log 2). -/
def Obligations.HardwareResetRestoresOneEngine : Prop :=
  ∀ (s : State) (e : Engine) (rest : List HostAct), s.host = .rst e :: rest →
    ∃ t, step s = .next t ∧ AgreeOn e (State.resetWith s.ahx.mode) t ∧ SameElsewhere e { s with host := rest } t

/-- The reset state, of either pair mode, meets the invariants. -/
def Obligations.InvariantsHoldAtReset : Prop :=
  ∀ m : PairMode, (State.resetWith m).Inv ∧ (State.resetWith m).lzw.Linked

/-- Every step keeps the invariant: `tlen` in 258 to 4096, every slot below it written and of the bounded length, the bit cursor
legal, the accumulator below `2^33`, the status as the cause says, the table in canonical form. -/
def Obligations.StepKeepsInvariant : Prop :=
  ∀ s t : State, s.Inv → step s = .next t → t.Inv

/-- The slots 0 to 257 are hardwired (10_state.md section 4; 20_memory.md section 4): a literal reads as its one byte and the
two reserved slots as no value, whatever is written; a write reaches a dynamic slot alone, and it reads back there. -/
def Obligations.TableSlotsBelow258AreHardwired : Prop :=
  ∀ (m : Memory) (i j : Nat) (x : Bytes),
    ((m.write i x).read j = if i = j ∧ 258 ≤ i ∧ i < 4096 then some x else m.read j) ∧
    (j < 256 → m.read j = some [BitVec.ofNat 8 j]) ∧ (j = 256 ∨ j = 257 → m.read j = none)

/-- Every step keeps the pair form of 10_state.md (Representation freedom): each dynamic entry is an earlier entry and one byte
more, and `prev` is empty or an entry. -/
def Obligations.StepKeepsEntriesLinked : Prop :=
  ∀ s t : State, s.Inv → s.lzw.Linked → step s = .next t → t.lzw.Linked

/-- No condition makes an engine trap or hang (60_exceptions.md section 1): while the host keeps its duties, every step of every
state that meets the invariant answers a next state. -/
def Obligations.StepAlwaysAnswersUnderHostDuty : Prop :=
  ∀ s : State, s.Inv → s.HostDuty → ∃ t, step s = .next t

/-! ### Fetch, holds, termination -/

/-- A step runs the instruction that the decoder reads from the input bits not yet consumed, at the state whose cursor stands
behind its symbol, while the output staging has room (its size is the implementation's, log 13). The host's action `run e` makes
`e` the active engine and is its step (log 4). -/
def Obligations.StepRunsTheDecodedInstruction : Prop :=
  (∀ (s : State) (e : Engine) (i : Instr) (rest : List Bool),
    s.Inv → s.host = [] → s.active = e → s.terminated e = false → s.outFull e = false → (e = .lzw → s.lzw.req = none) →
    decode e.unit s.context (s.unread e) = .ok (i, rest) → ((s.io e).eof = true ∨ i.isEoi = false) →
    ∃ t, step s = exec i t ∧ t.unread e = rest ∧ SameElsewhere e s t ∧ OnlyCursors s t) ∧
  ∀ (s : State) (e : Engine) (rest : List HostAct), s.host = .run e :: rest →
    step s =
      match step { s with active := e, host := [] } with
      | .next t => .next { t with host := rest }
      | .fault r => .fault r
      | .refused r => .refused r

/-- The BitReader's interface is internal to the LZW engine (10_state.md section 2): no step and no host action issues a
request, and nothing but a step of the LZW engine and its reset moves the bit cursor. A request that stands at the interface
(the opcode table's row `BR.READ` by itself, a BitReader-only model, which `withFetchWord` places: log 8) is answered as soon as
its bits or the end of the input are there, waits with nothing changed while they are not, and is refused outside the contract.
-/
def Obligations.BitReaderServesOneOwner : Prop :=
  (∀ s t : State, step s = .next t →
    (s.lzw.req = none → t.lzw.req = none) ∧
    ((s.host = [] → s.active ≠ .lzw) → (∀ rest, s.host ≠ .run .lzw :: rest) → (∀ rest, s.host ≠ .rst .lzw :: rest) →
      t.lzw.cur = s.lzw.cur ∧ t.lzw.bpos = s.lzw.bpos ∧ t.lzw.io.ipos = s.lzw.io.ipos)) ∧
  ∀ (s : State) (n : BitVec 6), s.Inv → s.host = [] → s.active = .lzw → s.lzw.fsm ≠ .terminated → s.outFull .lzw = false →
    s.lzw.req = some n →
    (1 ≤ n.toNat ∧ n.toNat ≤ 32 →
      ((n.toNat ≤ s.lzw.unread.length ∨ s.lzw.io.eof = true) →
        step s = exec (.brRead n) { s with lzw := { s.lzw with req := none } }) ∧
      (s.lzw.unread.length < n.toNat → s.lzw.io.eof = false → step s = .next s)) ∧
    (n.toNat = 0 ∨ 32 < n.toNat → step s = .refused (.requestOutOfContract n))

/-- Holds are not state changes (10_state.md section 2; 70_reset_and_hazards.md section 3; decision D3). An engine that needs a
byte, has none and has no `in_eof` holds with its state unchanged, and so does one whose output staging is full. A step that is
taken does not depend on how many bytes the consumer has taken, nor on input that comes later, so no pattern of waits changes a
result. That a step is held as a whole, and begins whenever the staging has room, is the model's reading (log 5, log 13). -/
def Obligations.HoldsChangeNothing : Prop :=
  ∀ (s : State) (e : Engine), s.Inv → s.host = [] → s.active = e →
    (s.terminated e = false → (e = .lzw → s.lzw.req = none) → (s.io e).eof = false →
      (s.unread e).length < (if e = .lzw then width s.lzw.tlen else 8) → step s = .next s) ∧
    (s.outFull e = true → step s = .next s) ∧
    (∀ (t : State) (n : Nat), s.outFull e = false → (s.setIo e { s.io e with taken := n }).outFull e = false →
      step s = .next t → step (s.setIo e { s.io e with taken := n }) = .next (t.setIo e { t.io e with taken := n })) ∧
    ∀ (t : State) (x : Bytes) (eof : Bool), (s.io e).eof = false → step s = .next t → t ≠ s →
      step (s.setIo e { s.io e with inp := (s.io e).inp ++ x, eof := eof }) =
        .next (t.setIo e { t.io e with inp := (t.io e).inp ++ x, eof := eof })

/-- No operation resumes a terminated engine, clears its cause, moves its cursor or writes a register of it: all its state but
the count of bytes taken and `in_eof` is frozen; hardware reset alone leads out, and begins from the reset state with a new
input (60_exceptions.md sections 4 and 5). The reset state's open values are the model's (log 1, log 2, log 3, log 17). -/
def Obligations.OnlyResetLeavesTermination : Prop :=
  ∀ (s t : State) (e : Engine), s.terminated e = true → step s = .next t →
    ((∀ rest, s.host ≠ .rst e :: rest) →
      t.terminated e = true ∧ t.io e = { s.io e with taken := (t.io e).taken, eof := (t.io e).eof } ∧
      (e = .lzw → t.lzw = { s.lzw with io := t.lzw.io }) ∧ (e = .a85 → t.a85 = { s.a85 with io := t.a85.io }) ∧
      (e = .ahx → t.ahx = { s.ahx with io := t.ahx.io })) ∧
    ((∃ rest, s.host = .rst e :: rest) →
      AgreeOn e (State.resetWith s.ahx.mode) t ∧ t.terminated e = false ∧ (t.io e).cause = .none ∧ (t.io e).inp = [])

/-- `OUT` is append-only: a step that is not a reset of the engine appends, 3839 bytes at most (10_state.md section 3, decision
D4; 20_memory.md section 3). -/
def Obligations.OutputIsOnlyAppended : Prop :=
  ∀ (s t : State) (e : Engine), s.Inv → step s = .next t → (∀ rest, s.host ≠ .rst e :: rest) →
    ∃ x, (t.io e).out = (s.io e).out ++ x ∧ x.length ≤ 3839

/-- No operation but a reset moves a cursor back or beyond the input, and `IN` only grows (10_state.md section 3). -/
def Obligations.InputCursorMovesForwardOnly : Prop :=
  ∀ (s t : State) (e : Engine), s.Inv → step s = .next t → (∀ rest, s.host ≠ .rst e :: rest) →
    (s.io e).ipos ≤ (t.io e).ipos ∧ (t.io e).ipos ≤ (t.io e).inp.length ∧ (∃ x, (t.io e).inp = (s.io e).inp ++ x) ∧
    (e = .lzw → s.lzw.bitPos ≤ t.lzw.bitPos)

/-- The engines share no state (10_state.md section 1): a step of one leaves the others alone, and what it does to its own
engine depends on nothing else. -/
def Obligations.EnginesDoNotInteract : Prop :=
  ∀ (s t s' : State) (e : Engine), s.host = [] → t.host = [] → s.active = e → t.active = e → AgreeOn e s t →
    step s = .next s' → SameElsewhere e s s' ∧ ∃ t', step t = .next t' ∧ AgreeOn e s' t' ∧ SameElsewhere e t t'

/-! ### The host's side of the streams -/

/-- The consumer takes the bytes of `OUT` one at a time and in order: `out_data` is the first byte not yet taken, a transfer
makes the next one the byte on offer, with none on offer nothing is transferred, and `done` is high exactly when the engine has
terminated and every byte is taken (10_state.md section 2, decision D5; log 13). -/
def Obligations.ConsumerTakesOutputInOrder : Prop :=
  ∀ (s : State) (e : Engine) (rest : List HostAct), s.Inv → s.host = .take e :: rest →
    ∃ t, step s = .next t ∧
      t = ({ s with host := rest } : State).setIo e
        { s.io e with taken := (s.io e).taken + if s.outValid e then 1 else 0 } ∧
      (s.outValid e = true ↔ (s.io e).taken < (s.io e).out.length) ∧
      s.outData e = (s.io e).out[(s.io e).taken]? ∧ ((s.outData e).isSome = true ↔ s.outValid e = true) ∧
      (s.outValid e = true → t.outData e = (s.io e).out[(s.io e).taken + 1]?) ∧
      (t.done e = true ↔ t.terminated e = true ∧ (t.io e).taken = (t.io e).out.length)

/-- `in_ready` is high exactly while the engine has not terminated; a byte the host offers then joins `IN`, and after `in_eof`
it is refused; a terminated engine does not take it. `in_eof`, once high, stays high until the engine's `rst`, whatever step
comes (10_state.md section 2; 60_exceptions.md section 4; decisions D3, D17; U19; log 14). -/
def Obligations.HostSuppliesTheInput : Prop :=
  (∀ (s : State) (e : Engine) (b : Byte) (rest : List HostAct),
    (s.inReady e = true ↔ s.terminated e = false) ∧
    (s.host = .offer e b :: rest →
      (s.inReady e = true → (s.io e).eof = false →
        step s = .next (({ s with host := rest } : State).setIo e { s.io e with inp := (s.io e).inp ++ [b] })) ∧
      (s.inReady e = false → step s = .next { s with host := rest }) ∧
      (s.inReady e = true → (s.io e).eof = true → step s = .refused .offerAfterEof)) ∧
    (s.host = .eof e :: rest →
      step s = .next (({ s with host := rest } : State).setIo e { s.io e with eof := true }))) ∧
  ∀ (s t : State) (e : Engine), s.Inv → step s = .next t → (∀ rest, s.host ≠ .rst e :: rest) →
    (s.io e).eof = true → (t.io e).eof = true

/-- A meaning runs exactly where its class can be met with an operand the table admits, and is refused by name elsewhere: a
BitReader request by its count (40_bitreader.md, decision D12), any other class because it does not apply, which is the model's
own choice (log 9). -/
def Obligations.MeaningsRunExactlyWhereTheirClassApplies : Prop :=
  ∀ (s : State) (i : Instr), s.Inv →
    (i.wellFormed = true → s.Meets i → ∃ t, exec i s = .next t) ∧
    (¬ (i.wellFormed = true ∧ s.Meets i) →
      exec i s = .refused .classDoesNotApply ∨ ∃ n, i = .brRead n ∧ exec i s = .refused (.requestOutOfContract n))

/-! ### BitReader -/

/-- Where the input still holds `n` bits, `BR.READ n` runs and answers the number that stream bits `p` to `p + n - 1` are, the
first most significant (20_memory.md section 1; 40_bitreader.md), `p` being the cursor's position, and leaves the cursor at `p +
n`; nothing else changes. That the answer stands in a latch is the model's choice (log 8). -/
def Obligations.BrReadAnswersTheStreamBits : Prop :=
  ∀ (s : State) (n : BitVec 6), s.Inv → 1 ≤ n.toNat → n.toNat ≤ 32 →
    s.lzw.bitPos + n.toNat ≤ 8 * s.lzw.io.inp.length →
    ∃ t v, exec (.brRead n) s = .next t ∧ t.lzw.resp = .value v ∧
      v.toNat = bitsAt s.lzw.io.inp s.lzw.bitPos n.toNat ∧ t.lzw.bitPos = s.lzw.bitPos + n.toNat ∧
      SameElsewhere .lzw s t ∧ OnlyCursors s t

/-- Where the input holds fewer than `n` bits: with `in_eof` the answer is `EndOfInput`, every bit is consumed and `bpos` is 8
(40_bitreader.md, decision D11); without it the request waits and nothing changes (10_state.md section 2, decision D3). -/
def Obligations.BrReadAnswersEndOfInput : Prop :=
  ∀ (s : State) (n : BitVec 6), s.Inv → 1 ≤ n.toNat → n.toNat ≤ 32 →
    8 * s.lzw.io.inp.length < s.lzw.bitPos + n.toNat →
    (s.lzw.io.eof = true → ∃ t, exec (.brRead n) s = .next t ∧ t.lzw.resp = .endOfInput ∧ t.lzw.bpos = 8 ∧
      t.lzw.io.ipos = s.lzw.io.inp.length ∧ SameElsewhere .lzw s t ∧ OnlyCursors s t) ∧
    (s.lzw.io.eof = false → exec (.brRead n) s = .next s)

/-- After `EndOfInput` every later `BR.READ` answers `EndOfInput` too (40_bitreader.md, decision D11). -/
def Obligations.BrReadFailsForEverAfterEndOfInput : Prop :=
  ∀ (s t : State) (n m : BitVec 6), s.Inv → s.lzw.io.eof = true → exec (.brRead n) s = .next t →
    t.lzw.resp = .endOfInput → 1 ≤ m.toNat → m.toNat ≤ 32 →
    ∃ u, exec (.brRead m) t = .next u ∧ u.lzw.resp = .endOfInput ∧ u.lzw.bpos = 8 ∧ u.lzw.io.ipos = t.lzw.io.ipos

/-- A request for no bit or for more than 32 bits is given no step (40_bitreader.md, decision D12). -/
def Obligations.BrReadRefusesOutsideItsContract : Prop :=
  ∀ (s : State) (n : BitVec 6), n.toNat = 0 ∨ 32 < n.toNat →
    exec (.brRead n) s = .refused (.requestOutOfContract n) ∧ classifyRequest n = none

/-- Two successful reads of `a` and then `b` bits answer the two parts of one read of `a + b` bits and leave the cursor at the
same position (a property 40_bitreader.md derives). -/
def Obligations.TwoReadsAreOneRead : Prop :=
  ∀ (s : State) (a b : Nat), s.Inv → 1 ≤ a → 1 ≤ b → a + b ≤ 32 →
    s.lzw.bitPos + (a + b) ≤ 8 * s.lzw.io.inp.length →
    ∃ t u w v x y, exec (.brRead (BitVec.ofNat 6 (a + b))) s = .next t ∧ t.lzw.resp = .value v ∧
      exec (.brRead (BitVec.ofNat 6 a)) s = .next u ∧ u.lzw.resp = .value x ∧
      exec (.brRead (BitVec.ofNat 6 b)) u = .next w ∧ w.lzw.resp = .value y ∧
      x = v >>> b ∧ y.toNat = v.toNat % 2 ^ b ∧ w.lzw.bitPos = t.lzw.bitPos

/-- `BR.READ n` writes `cur`, `bpos` and `ipos` (and gives its answer, in the model's latch, log 8) and nothing else, its answer
is a value below `2^n` or `EndOfInput`, and it reads nothing but `cur`, `bpos` and the input (40_bitreader.md); it may also wait
with nothing changed (the model's reading, log 5). -/
def Obligations.BrReadTouchesOnlyItsCursor : Prop :=
  ∀ (s t : State) (n : BitVec 6), exec (.brRead n) s = .next t →
    SameElsewhere .lzw s t ∧ OnlyCursors s t ∧
    (t = s ∨ t.lzw.resp = .endOfInput ∨ ∃ v, t.lzw.resp = .value v ∧ v.toNat < 2 ^ n.toNat) ∧
    ∀ s2, s2.lzw.cur = s.lzw.cur → s2.lzw.bpos = s.lzw.bpos → s2.lzw.io.ipos = s.lzw.io.ipos →
      s2.lzw.io.inp = s.lzw.io.inp → s2.lzw.io.eof = s.lzw.io.eof →
      ∃ t2, exec (.brRead n) s2 = .next t2 ∧ t2.lzw.cur = t.lzw.cur ∧ t2.lzw.bpos = t.lzw.bpos ∧
        t2.lzw.io.ipos = t.lzw.io.ipos ∧ (t2.lzw.resp = t.lzw.resp ∨ (t = s ∧ t2 = s2))

/-! ### LZW: one instruction each -/

/-- The width of a code changes at table lengths exactly 511, 1023 and 2047 (10_state.md section 4; 20_memory.md section 5). -/
def Obligations.CodeWidthByTableLength : Prop :=
  ∀ t : Nat, (width t = 9 ↔ t < 511) ∧ (width t = 10 ↔ 511 ≤ t ∧ t < 1023) ∧ (width t = 11 ↔ 1023 ≤ t ∧ t < 2047) ∧
    (width t = 12 ↔ 2047 ≤ t)

/-- `LZW.CLEAR` (R142): `tlen` is 258, `prev` empty, the engine runs, the next code is 9 bits wide; no slot's bits change, no
byte is emitted, the bit cursor stays where it is. -/
def Obligations.ClearResetsTheTable : Prop :=
  ∀ s : State, s.lzw.fsm ≠ .terminated →
    ∃ t, exec .lzwClear s = .next t ∧ t.lzw.tlen = 258 ∧ t.lzw.prev = [] ∧ t.lzw.fsm = .running ∧ width t.lzw.tlen = 9 ∧
      t.lzw.io = s.lzw.io ∧ SameTable s.lzw t.lzw ∧ SameInput s.lzw t.lzw ∧ SameElsewhere .lzw s t

/-- `LZW.EOD` (R143): the engine terminates with cause 1, `err` and `info` unchanged (0); nothing else changes. -/
def Obligations.EndOfDataTerminates : Prop :=
  ∀ s : State, s.Inv → s.lzw.fsm ≠ .terminated →
    ∃ t, exec .lzwEod s = .next t ∧ EndsWith .lzw .endOfData false 0 s t ∧ t.status .lzw = (1, false, 0) ∧
      s.lzw.io.err = false ∧ s.lzw.io.info = 0

/-- `LZW.EOI` (R151): the BitReader's `EndOfInput` (in the response latch of the model, log 8) terminates the engine with cause
2, `err` and `info` 0, in `AwaitingClear` and in `Running`; nothing is emitted or appended. -/
def Obligations.EndOfInputTerminatesLzw : Prop :=
  ∀ s : State, s.Inv → s.lzw.fsm ≠ .terminated → s.lzw.resp = .endOfInput →
    ∃ t, exec .lzwEoi s = .next t ∧ EndsWith .lzw .endOfInput false 0 s t ∧ t.status .lzw = (2, false, 0)

/-- `LZW.FIRST` (R144): the literal is emitted and becomes `prev`; nothing is appended, `tlen` stays 258 and the next code is 9
bits wide too. -/
def Obligations.FirstLiteralIsEmitted : Prop :=
  ∀ (s : State) (code : Code), s.Inv → s.lzw.fsm = .running → s.lzw.prev = [] → code.toNat ≤ 255 →
    ∃ t, exec (.lzwFirst code) s = .next t ∧ t.lzw.io.out = s.lzw.io.out ++ [BitVec.ofNat 8 code.toNat] ∧
      t.lzw.prev = [BitVec.ofNat 8 code.toNat] ∧ s.lzw.tlen = 258 ∧ t.lzw.tlen = 258 ∧ width t.lzw.tlen = 9 ∧
      t.lzw.fsm = .running ∧
      SameTable s.lzw t.lzw ∧ SameInput s.lzw t.lzw ∧ SameStatus s.lzw.io t.lzw.io ∧ SameSupply s.lzw.io t.lzw.io ∧
      SameElsewhere .lzw s t

/-- `LZW.REF` (R145): the entry is emitted and becomes `prev`; the old `prev` with the entry's first byte is appended at `tlen`,
or nothing is where the table is full; every other slot reads as before. -/
def Obligations.RefEmitsAnEntryAndAppends : Prop :=
  ∀ (s : State) (code : Code), s.Inv → s.lzw.fsm = .running → s.lzw.prev ≠ [] → code.toNat < s.lzw.tlen →
    code.toNat ≠ 256 → code.toNat ≠ 257 →
    ∃ t b x, exec (.lzwRef code) s = .next t ∧ s.lzw.table.read code.toNat = some (b :: x) ∧
      t.lzw.io.out = s.lzw.io.out ++ b :: x ∧ t.lzw.prev = b :: x ∧ t.lzw.fsm = .running ∧
      (s.lzw.tlen < 4096 → t.lzw.tlen = s.lzw.tlen + 1 ∧ t.lzw.table.read s.lzw.tlen = some (s.lzw.prev ++ [b])) ∧
      (s.lzw.tlen = 4096 → t.lzw.tlen = 4096 ∧ SameTable s.lzw t.lzw) ∧
      (∀ i, i ≠ s.lzw.tlen → t.lzw.table.read i = s.lzw.table.read i) ∧
      SameInput s.lzw t.lzw ∧ SameStatus s.lzw.io t.lzw.io ∧ SameSupply s.lzw.io t.lzw.io ∧ SameElsewhere .lzw s t

/-- `LZW.KWKWK` (R146): `prev` with its own first byte is emitted, appended at `tlen` (slot `code`) and becomes `prev`; every
other slot reads as before. -/
def Obligations.KwkwkEmitsTheNewEntry : Prop :=
  ∀ (s : State) (code : Code) (b : Byte) (x : Bytes), s.Inv → s.lzw.fsm = .running → s.lzw.prev = b :: x →
    code.toNat = s.lzw.tlen →
    ∃ t, exec (.lzwKwkwk code) s = .next t ∧ t.lzw.io.out = s.lzw.io.out ++ (b :: x ++ [b]) ∧
      t.lzw.prev = b :: x ++ [b] ∧ t.lzw.tlen = s.lzw.tlen + 1 ∧ t.lzw.fsm = .running ∧
      t.lzw.table.read code.toNat = some (b :: x ++ [b]) ∧
      (∀ i, i ≠ s.lzw.tlen → t.lzw.table.read i = s.lzw.table.read i) ∧
      SameInput s.lzw t.lzw ∧ SameStatus s.lzw.io t.lzw.io ∧ SameSupply s.lzw.io t.lzw.io ∧ SameElsewhere .lzw s t

/-- `LZW.CORRUPT` (R147): a code beyond `tlen` terminates the engine with cause 4, `err` 0 and the code as `info`; nothing is
emitted or appended, and the earlier output stays. -/
def Obligations.CorruptCodeTerminates : Prop :=
  ∀ (s : State) (code : Code), s.Inv → s.lzw.fsm = .running → s.lzw.prev ≠ [] → s.lzw.tlen < code.toNat →
    ∃ t, exec (.lzwCorrupt code) s = .next t ∧ EndsWith .lzw .corruptTable false code s t ∧
      t.status .lzw = (4, false, code)

/-- `LZW.BADFIRST` and `LZW.NOCLEAR`: the same termination for a code of 258 or more directly after a table reset (the spec's
decision D8) and for a data code before any CLEAR (the spec's decision D7). -/
def Obligations.UnplacedCodeTerminates : Prop :=
  ∀ (s : State) (code : Code), s.Inv →
    (s.lzw.fsm = .running → s.lzw.prev = [] → 258 ≤ code.toNat →
      ∃ t, exec (.lzwBadfirst code) s = .next t ∧ EndsWith .lzw .corruptTable false code s t ∧
        t.status .lzw = (4, false, code)) ∧
    (s.lzw.fsm = .awaitingClear → code.toNat ≠ 256 → code.toNat ≠ 257 →
      ∃ t, exec (.lzwNoclear code) s = .next t ∧ EndsWith .lzw .corruptTable false code s t ∧
        t.status .lzw = (4, false, code))

/-- The transitions of `fsm` (R150): which class leads where, no class runs in `Terminated`, hardware reset leads to
`AwaitingClear`, and no other step leads back there or out of `Terminated`. -/
def Obligations.LzwStateTransitions : Prop :=
  (∀ (s t : State) (i : Instr), i.unit = .lzw → exec i s = .next t →
    s.lzw.fsm ≠ .terminated ∧
    (s.lzw.fsm = .awaitingClear →
      (i = .lzwClear ∧ t.lzw.fsm = .running) ∨
      ((i = .lzwEod ∨ i = .lzwEoi ∨ ∃ c, i = .lzwNoclear c) ∧ t.lzw.fsm = .terminated)) ∧
    (s.lzw.fsm = .running →
      ((i = .lzwClear ∨ ∃ c, i = .lzwFirst c ∨ i = .lzwRef c ∨ i = .lzwKwkwk c) ∧ t.lzw.fsm = .running) ∨
      ((i = .lzwEod ∨ i = .lzwEoi ∨ ∃ c, i = .lzwCorrupt c ∨ i = .lzwBadfirst c) ∧ t.lzw.fsm = .terminated))) ∧
  (∀ s : State, (hwReset .lzw s).lzw.fsm = .awaitingClear) ∧
  ∀ s t : State, step s = .next t → (∀ rest, s.host ≠ .rst .lzw :: rest) →
    (t.lzw.fsm = .awaitingClear → s.lzw.fsm = .awaitingClear) ∧ (s.lzw.fsm = .terminated → t.lzw.fsm = .terminated)

/-! ### LZW: the machine as a whole -/

/-- Every code has exactly one class in every context: the class the decoder gives is well formed and applies, and no other
class of this code does (30_encoding.md section 4; rows 3 and 5 are the spec's decisions D7 and D8). -/
def Obligations.CodeHasExactlyOneClass : Prop :=
  ∀ (k : Context) (code : Code), 258 ≤ k.tlen → code.toNat < 2 ^ width k.tlen →
    (classifyCode k code).unit = .lzw ∧ (classifyCode k code).code? = some code.toNat ∧
    (classifyCode k code).wellFormed = true ∧ (classifyCode k code).applies k = true ∧
    ∀ i : Instr, i.unit = .lzw → i.code? = some code.toNat → i.wellFormed = true → i.applies k = true →
      i = classifyCode k code

/-- The KwKwK case reads no table slot: whatever the table holds, the chunk and the new `prev` are the same (R252). -/
def Obligations.KwkwkReadsNoSlot : Prop :=
  ∀ (s t : State) (code : Code) (m : Memory), exec (.lzwKwkwk code) s = .next t →
    ∃ u, exec (.lzwKwkwk code) { s with lzw := { s.lzw with table := m } } = .next u ∧
      u = { t with lzw := { t.lzw with table := u.lzw.table } }

/-- Between two table resets no slot below `tlen` is rewritten and `tlen` never falls: a step resets the table (`tlen` 258,
`prev` empty) or keeps every slot below `tlen` and raises `tlen` by one at most (10_state.md section 4). -/
def Obligations.TableIsAppendOnlyBetweenResets : Prop :=
  ∀ s t : State, s.Inv → step s = .next t →
    (t.lzw.tlen = 258 ∧ t.lzw.prev = []) ∨
    (s.lzw.tlen ≤ t.lzw.tlen ∧ t.lzw.tlen ≤ s.lzw.tlen + 1 ∧
      ∀ i, i < s.lzw.tlen → t.lzw.table.read i = s.lzw.table.read i)

/-- The entry a step appends is the previous chunk and the first byte of the chunk this step emits, whichever append rule made
it (20_memory.md section 4, a consequence the spec derives). -/
def Obligations.NewEntryIsPreviousChunkAndNextByte : Prop :=
  ∀ s t : State, s.Inv → step s = .next t → t.lzw.tlen = s.lzw.tlen + 1 →
    ∃ b x, t.lzw.io.out = s.lzw.io.out ++ b :: x ∧ t.lzw.prev = b :: x ∧ s.lzw.prev ≠ [] ∧
      t.lzw.table.read s.lzw.tlen = some (s.lzw.prev ++ [b])

/-- State that no output shows stays so (10_state.md section 9): blocks that differ only in slots at or above `tlen`, in `cur`
while `bpos = 8` and in `h_pend` while `h_pv = 0` step alike. -/
def Obligations.UnobservableStateNeverShows : Prop :=
  ∀ s t s' : State, s.Inv → s.Alike t → step s = .next s' → ∃ t', step t = .next t' ∧ s'.Alike t'

/-- Every input drives the LZW engine to `Terminated` in finitely many steps, each step consuming 9 bits or more or terminating,
with exactly one of the causes 1, 2, 4 and `err` 0 (R152). The consumer takes what is on offer. -/
def Obligations.LzwDecodeTerminates : Prop :=
  (∀ (m : PairMode) (bytes : Bytes),
    ∃ out c info, Ended (run .lzw (8 * bytes.length / 9 + 1) (startDecode .lzw m bytes)) .lzw out c false info ∧
      (c = .endOfData ∨ c = .endOfInput ∨ c = .corruptTable)) ∧
  ∀ s : State, s.Inv → s.host = [] → s.active = .lzw → s.lzw.req = none → s.lzw.fsm ≠ .terminated → s.lzw.io.eof = true →
    s.outFull .lzw = false →
    ∃ t, step s = .next t ∧ (t.lzw.fsm = .terminated ∨ s.lzw.bitPos + 9 ≤ t.lzw.bitPos)

/-- Decoding a stream that begins with CLEAR, followed only by literal codes, followed by END-OF-DATA, each code at the width of
the table length, reproduces exactly those bytes, whatever bits follow (41_lzw.md section 5, laws the source states). -/
def Obligations.LiteralStreamReproducesItsBytes : Prop :=
  ∀ (m : PairMode) (literals bytes : Bytes) (pad : List Bool),
    streamBits bytes = valueBits 9 256 ++ packLiterals true 258 literals ++ pad →
    Ended (run .lzw (literals.length + 2) (startDecode .lzw m bytes)) .lzw literals .endOfData false 0

/-! ### ASCII85 -/

/-- The class of an ASCII85 byte, and `A85.EOI` where no byte is left: exactly one applies (R100). -/
def Obligations.A85ByteHasExactlyOneClass : Prop :=
  (∀ (n : Nat) (c : Byte),
    (classifyA85 n c = .a85Digit c ↔ 33 ≤ c.toNat ∧ c.toNat ≤ 117) ∧
    (classifyA85 n c = .a85Z ↔ c.toNat = 122 ∧ n = 0) ∧
    (classifyA85 n c = .a85Zbad ↔ c.toNat = 122 ∧ n ≠ 0) ∧
    (classifyA85 n c = .a85End ↔ c.toNat = 126) ∧
    (classifyA85 n c = .a85Skip c ↔
      c.toNat ≤ 32 ∨ (118 ≤ c.toNat ∧ c.toNat ≤ 121) ∨ (123 ≤ c.toNat ∧ c.toNat ≤ 125) ∨ 127 ≤ c.toNat) ∧
    (classifyA85 n c = .a85Digit c ∨ classifyA85 n c = .a85Z ∨ classifyA85 n c = .a85Zbad ∨
      classifyA85 n c = .a85End ∨ classifyA85 n c = .a85Skip c)) ∧
  ∀ s t : State, fetch .a85 s = .got .a85Eoi t ↔ s.a85.fsm = .running ∧ s.a85.io.inExhausted = true ∧ t = s

/-- `A85.DIGIT` (42_ascii85.md, the spec's decision D13): the accumulator takes the digit; the fifth digit emits the group's
four bytes, most significant first, and empties the group, or overflows: cause 6, `err` 1, `info` 5, nothing emitted. What
`a_acc` and `a_cnt` hold after an overflow, and `info` 5, are the model's reading (log 11, log 12). -/
def Obligations.DigitAccumulatesAndFifthEmits : Prop :=
  ∀ (s : State) (c : Byte), s.Inv → s.a85.fsm = .running → 33 ≤ c.toNat → c.toNat ≤ 117 →
    let v := s.a85.acc * 85 + (c.toNat - 33)
    (s.a85.cnt < 4 →
      exec (.a85Digit c) s = .next { s with a85 := { s.a85 with acc := v, cnt := s.a85.cnt + 1 } }) ∧
    (s.a85.cnt = 4 → v < 2 ^ 32 →
      exec (.a85Digit c) s = .next { s with
        a85 := { s.a85 with
          acc := 0, cnt := 0
          io := { s.a85.io with
            out := s.a85.io.out ++ [BitVec.ofNat 8 (v / 2 ^ 24), BitVec.ofNat 8 (v / 2 ^ 16), BitVec.ofNat 8 (v / 2 ^ 8),
              BitVec.ofNat 8 v] } } }) ∧
    (s.a85.cnt = 4 → 2 ^ 32 ≤ v →
      ∃ t, exec (.a85Digit c) s = .next t ∧ t.status .a85 = (6, true, 5) ∧
        EndsWith .a85 .a85Overflow true 5 { s with a85 := { s.a85 with acc := v, cnt := 5 } } t)

/-- Five digits from an empty group give the four big-endian bytes of `d1*85^4 + d2*85^3 + d3*85^2 + d4*85 + d5` where that fits
32 bits (30_encoding.md section 3). -/
def Obligations.FullGroupDecodesToFourBytes : Prop :=
  ∀ (s : State) (c1 c2 c3 c4 c5 : Byte), s.a85.fsm = .running → s.a85.cnt = 0 → s.a85.acc = 0 →
    (∀ c ∈ [c1, c2, c3, c4, c5], 33 ≤ c.toNat ∧ c.toNat ≤ 117) →
    let v := (c1.toNat - 33) * 85 ^ 4 + (c2.toNat - 33) * 85 ^ 3 + (c3.toNat - 33) * 85 ^ 2 + (c4.toNat - 33) * 85 +
      (c5.toNat - 33)
    v < 2 ^ 32 →
    ∃ s1 s2 s3 s4 s5, exec (.a85Digit c1) s = .next s1 ∧ exec (.a85Digit c2) s1 = .next s2 ∧
      exec (.a85Digit c3) s2 = .next s3 ∧ exec (.a85Digit c4) s3 = .next s4 ∧ exec (.a85Digit c5) s4 = .next s5 ∧
      s5.a85.io.out = s.a85.io.out ++ [BitVec.ofNat 8 (v / 2 ^ 24), BitVec.ofNat 8 (v / 2 ^ 16),
        BitVec.ofNat 8 (v / 2 ^ 8), BitVec.ofNat 8 v] ∧
      s5.a85 = { s.a85 with io := { s.a85.io with out := s5.a85.io.out } } ∧ SameElsewhere .a85 s s5

/-- `A85.Z` (R172): with no digit pending, four zero bytes are emitted; `a_acc` and `a_cnt` are 0 and stay so, and nothing else
changes. The byte `'z'` (122) is of this class only when no digit is pending. -/
def Obligations.ZeroGroupShorthandEmitsFourZeros : Prop :=
  (∀ s : State, s.Inv → s.a85.fsm = .running → s.a85.cnt = 0 → s.a85.acc = 0 ∧
    exec .a85Z s = .next { s with a85 := { s.a85 with io := { s.a85.io with out := s.a85.io.out ++ [0, 0, 0, 0] } } }) ∧
  ∀ n : Nat, classifyA85 n 122 = .a85Z ↔ n = 0

/-- `A85.ZBAD` (42_ascii85.md, decision D15): with digits pending the shorthand terminates the engine with cause 5, `err` 1 and
the number of pending digits as `info`; nothing is emitted. -/
def Obligations.MisplacedShorthandTerminates : Prop :=
  ∀ s : State, s.Inv → s.a85.fsm = .running → s.a85.cnt ≠ 0 →
    ∃ t, exec .a85Zbad s = .next t ∧ EndsWith .a85 .invalidShorthand true (BitVec.ofNat 12 s.a85.cnt) s t ∧
      t.status .a85 = (5, true, BitVec.ofNat 12 s.a85.cnt)

/-- `A85.END` (42_ascii85.md, the spec's decision D13): a pending group of `n` digits is padded with digit value 84 and the
first `n - 1` of its bytes are emitted, then the engine terminates with cause 3; an overflowing group terminates it with cause 6
and emits nothing. What `a_acc` holds afterwards is the model's reading (log 11). -/
def Obligations.TildeFlushesAShortGroup : Prop :=
  ∀ s : State, s.Inv → s.a85.fsm = .running →
    let n := s.a85.cnt
    let v := s.a85.acc * 85 ^ (5 - n) + (85 ^ (5 - n) - 1)
    let bytes : Bytes := [BitVec.ofNat 8 (v / 2 ^ 24), BitVec.ofNat 8 (v / 2 ^ 16), BitVec.ofNat 8 (v / 2 ^ 8)]
    (n = 0 → ∃ t, exec .a85End s = .next t ∧ EndsWith .a85 .terminator false 0 s t ∧ t.status .a85 = (3, false, 0)) ∧
    (n ≠ 0 → v < 2 ^ 32 →
      ∃ t, exec .a85End s = .next t ∧ t.status .a85 = (3, false, 0) ∧
        EndsWith .a85 .terminator false 0
          { s with a85 := { s.a85 with acc := v, io := { s.a85.io with out := s.a85.io.out ++ bytes.take (n - 1) } } } t) ∧
    (n ≠ 0 → 2 ^ 32 ≤ v →
      ∃ t, exec .a85End s = .next t ∧ t.status .a85 = (6, true, BitVec.ofNat 12 n) ∧
        EndsWith .a85 .a85Overflow true (BitVec.ofNat 12 n) { s with a85 := { s.a85 with acc := v } } t)

/-- `A85.SKIP` changes nothing (42_ascii85.md; log 10 for the remark on `'>'`), and `A85.EOI` terminates the engine with cause 2
and drops pending digits without output (the spec's decision D14). -/
def Obligations.A85SkipAndEndOfInput : Prop :=
  ∀ s : State, s.Inv → s.a85.fsm = .running →
    (∀ c : Byte, (c.toNat ≤ 32 ∨ (118 ≤ c.toNat ∧ c.toNat ≤ 121) ∨ (123 ≤ c.toNat ∧ c.toNat ≤ 125) ∨ 127 ≤ c.toNat) →
      exec (.a85Skip c) s = .next s) ∧
    (s.a85.io.inExhausted = true →
      ∃ t, exec .a85Eoi s = .next t ∧ EndsWith .a85 .endOfInput false 0 s t ∧ t.status .a85 = (2, false, 0))

/-- Under a consumer that takes what is on offer every ASCII85 decode terminates after at most `len(IN) + 1` steps with cause 2,
3, 5 or 6, and `err` is 1 exactly for 5 and 6 (a property 42_ascii85.md derives). -/
def Obligations.A85DecodeTerminates : Prop :=
  ∀ (m : PairMode) (bytes : Bytes),
    ∃ out c err info, Ended (run .a85 (bytes.length + 1) (startDecode .a85 m bytes)) .a85 out c err info ∧
      (c = .endOfInput ∨ c = .terminator ∨ c = .invalidShorthand ∨ c = .a85Overflow) ∧
      (err = true ↔ c = .invalidShorthand ∨ c = .a85Overflow)

/-- Removing every `A85.SKIP` byte from the input changes neither `OUT` nor `cause`, `err`, `info` (a property 42_ascii85.md
derives). -/
def Obligations.A85SkippedBytesDoNotMatter : Prop :=
  ∀ (m : PairMode) (bytes : Bytes),
    let kept := bytes.filter fun c => !(Instr.a85Skip c).wellFormed
    ∃ out c err info, Ended (run .a85 (bytes.length + 1) (startDecode .a85 m bytes)) .a85 out c err info ∧
      Ended (run .a85 (kept.length + 1) (startDecode .a85 m kept)) .a85 out c err info

/-! ### ASCIIHex -/

/-- The class of an ASCIIHex byte, and `AHX.EOI` where no byte is left: exactly one applies (30_encoding.md section 4). The byte
values are ASCII code points, which the spec marks as general knowledge (log 16). -/
def Obligations.AhxByteHasExactlyOneClass : Prop :=
  (∀ c : Byte,
    (classifyAhx c = .ahxDigit c ↔
      (48 ≤ c.toNat ∧ c.toNat ≤ 57) ∨ (65 ≤ c.toNat ∧ c.toNat ≤ 70) ∨ (97 ≤ c.toNat ∧ c.toNat ≤ 102)) ∧
    (classifyAhx c = .ahxEnd ↔ c.toNat = 62) ∧
    (classifyAhx c = .ahxSkip c ↔ (Instr.ahxSkip c).wellFormed = true) ∧
    (classifyAhx c = .ahxDigit c ∨ classifyAhx c = .ahxEnd ∨ classifyAhx c = .ahxSkip c)) ∧
  ∀ s t : State, fetch .ahx s = .got .ahxEoi t ↔ s.ahx.fsm = .running ∧ s.ahx.io.inExhausted = true ∧ t = s

/-- `AHX.DIGIT` in both pair modes (43_asciihex.md, the spec's open parameter D16; log 16 for the digit values): a pair is
complete and its byte is emitted, or a separated digit is dropped, or a pair begins. -/
def Obligations.HexDigitPairsOrBegins : Prop :=
  ∀ (s : State) (c : Byte) (v : Nat), s.ahx.fsm = .running →
    ((48 ≤ c.toNat ∧ c.toNat ≤ 57 ∧ v = c.toNat - 48) ∨ (65 ≤ c.toNat ∧ c.toNat ≤ 70 ∧ v = c.toNat - 55) ∨
      (97 ≤ c.toNat ∧ c.toNat ≤ 102 ∧ v = c.toNat - 87)) →
    (s.ahx.pv = true → (s.ahx.mode = .stream ∨ s.ahx.sep = false) →
      exec (.ahxDigit c) s = .next { s with
        ahx := { s.ahx with
          pv := false
          io := { s.ahx.io with out := s.ahx.io.out ++ [BitVec.ofNat 8 (s.ahx.pend.toNat * 16 + v)] } } }) ∧
    (s.ahx.pv = true → s.ahx.mode = .adjacent → s.ahx.sep = true →
      exec (.ahxDigit c) s = .next { s with
        ahx := { s.ahx with stray := true, pend := BitVec.ofNat 4 v, sep := false } }) ∧
    (s.ahx.pv = false →
      exec (.ahxDigit c) s = .next { s with
        ahx := { s.ahx with pend := BitVec.ofNat 4 v, pv := true, sep := false } })

/-- `AHX.SKIP` (43_asciihex.md, D16): in `ADJACENT` mode a pending digit is marked as separated; else nothing changes. -/
def Obligations.AhxSkipMarksASeparatedDigit : Prop :=
  ∀ (s : State) (c : Byte), s.ahx.fsm = .running → (Instr.ahxSkip c).wellFormed = true →
    (s.ahx.mode = .adjacent → s.ahx.pv = true →
      exec (.ahxSkip c) s = .next { s with ahx := { s.ahx with sep := true } }) ∧
    (s.ahx.mode = .stream ∨ s.ahx.pv = false → exec (.ahxSkip c) s = .next s)

/-- `AHX.END` and `AHX.EOI` (43_asciihex.md; the spec's open parameter D16): a pending digit is flushed as a high nibble unless
a digit was dropped before, then the engine terminates with cause 3 or 2, `err` and `info` 0. -/
def Obligations.AhxEndFlushesALoneDigit : Prop :=
  ∀ s : State, s.Inv → s.ahx.fsm = .running →
    let flushed : State := { s with
      ahx := { s.ahx with
        pv := false
        io := { s.ahx.io with
          out := s.ahx.io.out ++
            if s.ahx.pv = true ∧ s.ahx.stray = false then [BitVec.ofNat 8 (s.ahx.pend.toNat * 16)] else [] } } }
    (∃ t, exec .ahxEnd s = .next t ∧ EndsWith .ahx .terminator false 0 flushed t ∧ t.status .ahx = (3, false, 0)) ∧
    (s.ahx.io.inExhausted = true →
      ∃ t, exec .ahxEoi s = .next t ∧ EndsWith .ahx .endOfInput false 0 flushed t ∧ t.status .ahx = (2, false, 0))

/-- Every ASCIIHex decode, in both pair modes, terminates after at most `len(IN) + 1` steps with cause 2 or 3, `err` 0 and
`info` 0 (a property 43_asciihex.md derives). -/
def Obligations.AhxDecodeTerminates : Prop :=
  ∀ (m : PairMode) (bytes : Bytes),
    ∃ out c, Ended (run .ahx (bytes.length + 1) (startDecode .ahx m bytes)) .ahx out c false 0 ∧
      (c = .endOfInput ∨ c = .terminator)

/-- In `STREAM` mode removing every `AHX.SKIP` byte from the input does not change `OUT` (nor the cause) (a property
43_asciihex.md derives). -/
def Obligations.StreamModeIgnoresSkippedBytes : Prop :=
  ∀ bytes : Bytes,
    let kept := bytes.filter fun c => !(Instr.ahxSkip c).wellFormed
    ∃ out c, Ended (run .ahx (bytes.length + 1) (startDecode .ahx .stream bytes)) .ahx out c false 0 ∧
      Ended (run .ahx (kept.length + 1) (startDecode .ahx .stream kept)) .ahx out c false 0

/-- The two pair modes give the same `OUT` on every input in which no skipped byte stands between a pending digit and a later
hex digit (a property 43_asciihex.md derives). -/
def Obligations.PairModesAgreeOnAdjacentDigits : Prop :=
  ∀ bytes : Bytes, adjacentDigits false bytes = true →
    ∃ out c, Ended (run .ahx (bytes.length + 1) (startDecode .ahx .adjacent bytes)) .ahx out c false 0 ∧
      Ended (run .ahx (bytes.length + 1) (startDecode .ahx .stream bytes)) .ahx out c false 0

/-! ### Termination as one operation -/

/-- `raise` (60_exceptions.md section 1, decision D5): the engine's state register, `cause`, `err` (1 for causes 5 and 6, else
unchanged) and `info` (for causes 4, 5 and 6, else unchanged), and nothing else. -/
def Obligations.RaiseWritesTheStatusOnly : Prop :=
  ∀ (e : Engine) (c : Cause) (info : BitVec 12) (s : State),
    EndsWith e c
      (if c = .invalidShorthand ∨ c = .a85Overflow then true else (s.io e).err)
      (if c = .corruptTable ∨ c = .invalidShorthand ∨ c = .a85Overflow then info else (s.io e).info) s (raise e c info s)

/-! ### Encoding -/

/-- Decoding the encoded symbol of a well-formed instruction gives it back, in every context in which its class applies, with
the bits that follow; an `EOI` class stands at the end of the stream. -/
def Obligations.DecodeOfEncodeIsTheInstruction : Prop :=
  ∀ (k : Context) (i : Instr) (rest : List Bool), i.wellFormed = true → i.applies k = true →
    (i.isEoi = true → rest = []) → decode i.unit k (encode k i ++ rest) = .ok (i, rest)

/-- Encoding what the decoder read gives the bits back: no bit of a symbol is dropped. -/
def Obligations.EncodeOfDecodeIsTheSymbol : Prop :=
  ∀ (u : SymbolUnit) (k : Context) (bits rest : List Bool) (i : Instr), 258 ≤ k.tlen →
    decode u k bits = .ok (i, rest) → i.isEoi = false → i.unit = u ∧ i.wellFormed = true ∧ encode k i ++ rest = bits

/-- A few symbols written out bit by bit as 30_encoding.md lays them out. -/
def Obligations.WordsDecodeAsTheSpecLaysThemOut : Prop :=
  decode .lzw probeContext (streamBits [0x80, 0x0B]) =
    .ok (.lzwClear, [false, false, false, true, false, true, true]) ∧
  decode .lzw { fsm := .running, prevEmpty := true, tlen := 258, aCnt := 0 }
    [false, false, false, true, false, true, true, false, true] = .ok (.lzwFirst 45, []) ∧
  decode .lzw { fsm := .running, prevEmpty := false, tlen := 511, aCnt := 0 }
    [false, false, false, true, true, false, false, false, true, false] = .ok (.lzwRef 98, []) ∧
  decode .bitReader probeContext [true, false, false, false, false, false] = .ok (.brRead 32, []) ∧
  decode .a85 probeContext [false, false, true, true, true, false, false, true] = .ok (.a85Digit 57, []) ∧
  decode .ahx probeContext [false, false, true, true, true, true, true, false] = .ok (.ahxEnd, [])
end

