-- ==== Sys2Proof/Laws/Bits.lean ====
section
/-!
SUPPORT. Bits and numbers: `bitsValue` and `valueBits` are inverse to each other, and the bits of bytes in stream order.
-/

namespace Sys2Proof

theorem bitsValue_foldl (bits : List Bool) (v : Nat) :
    bits.foldl (fun v b => 2 * v + bitVal b) v = v * 2 ^ bits.length + bitsValue bits := by
  induction bits generalizing v with
  | nil => simp [bitsValue]
  | cons b bits ih =>
    have h : bitsValue (b :: bits) = bitVal b * 2 ^ bits.length + bitsValue bits := by
      rw [bitsValue, List.foldl_cons, ih, Nat.mul_zero, Nat.zero_add]
    rw [List.foldl_cons, ih, h, List.length_cons]
    ring

@[simp] theorem bitsValue_nil : bitsValue [] = 0 := rfl

theorem bitsValue_append (xs ys : List Bool) :
    bitsValue (xs ++ ys) = bitsValue xs * 2 ^ ys.length + bitsValue ys := by
  rw [bitsValue, List.foldl_append, bitsValue_foldl]
  rfl

theorem bitsValue_lt (bits : List Bool) : bitsValue bits < 2 ^ bits.length := by
  induction bits using List.reverseRecOn with
  | nil => simp
  | append_singleton bits b ih =>
    rw [bitsValue_append, List.length_append, pow_add]
    have : bitsValue [b] < 2 := by cases b <;> decide
    simp only [List.length_singleton, pow_one]
    omega

@[simp] theorem valueBits_length (w v : Nat) : (valueBits w v).length = w := by simp [valueBits]

theorem valueBits_succ (w v : Nat) : valueBits (w + 1) v = valueBits w (v / 2) ++ [v.testBit 0] := by
  simp only [valueBits, List.range_succ, List.map_append, List.map_cons, List.map_nil]
  congr 1
  · apply List.map_congr_left
    intro j hj
    have hj := List.mem_range.mp hj
    rw [show w + 1 - 1 - j = (w - 1 - j) + 1 by omega, Nat.testBit_succ]
  · simp

/-- Reading back the low `w` bits of a number. -/
theorem bitsValue_valueBits (w v : Nat) : bitsValue (valueBits w v) = v % 2 ^ w := by
  induction w generalizing v with
  | zero => simp [valueBits, Nat.mod_one]
  | succ w ih =>
    rw [valueBits_succ, bitsValue_append, ih, Nat.pow_succ', Nat.mod_mul]
    have : bitsValue [v.testBit 0] = v % 2 := by
      rw [Nat.testBit_zero]
      rcases Nat.mod_two_eq_zero_or_one v with h | h <;> simp [h, bitsValue, bitVal]
    simp only [List.length_singleton, pow_one, this]
    ring

/-- Writing out the number that some bits are. -/
theorem valueBits_bitsValue (bits : List Bool) : valueBits bits.length (bitsValue bits) = bits := by
  induction bits using List.reverseRecOn with
  | nil => rfl
  | append_singleton bits b ih =>
    rw [List.length_append, List.length_singleton, valueBits_succ, bitsValue_append]
    have hb : bitsValue [b] < 2 := by cases b <;> decide
    have h1 : (bitsValue bits * 2 ^ [b].length + bitsValue [b]) / 2 = bitsValue bits := by
      simp only [List.length_singleton, pow_one]; omega
    have h2 : (bitsValue bits * 2 ^ [b].length + bitsValue [b]).testBit 0 = b := by
      rw [Nat.testBit_zero]
      cases b <;> simp [bitsValue, bitVal]
    rw [h1, h2, ih]

@[simp] theorem byteBits_length (b : Byte) : (byteBits b).length = 8 := by simp [byteBits]

theorem byteBits_eq_valueBits (b : Byte) : byteBits b = valueBits 8 b.toNat := rfl

@[simp] theorem bitsValue_byteBits (b : Byte) : bitsValue (byteBits b) = b.toNat := by
  rw [byteBits_eq_valueBits, bitsValue_valueBits, Nat.mod_eq_of_lt b.isLt]

@[simp] theorem streamBits_nil : streamBits [] = [] := rfl

@[simp] theorem streamBits_cons (b : Byte) (bs : Bytes) : streamBits (b :: bs) = byteBits b ++ streamBits bs := by
  simp [streamBits]

@[simp] theorem streamBits_append (xs ys : Bytes) : streamBits (xs ++ ys) = streamBits xs ++ streamBits ys := by
  simp [streamBits]

@[simp] theorem streamBits_length (bs : Bytes) : (streamBits bs).length = 8 * bs.length := by
  induction bs with
  | nil => rfl
  | cons b bs ih => simp only [streamBits_cons, List.length_append, byteBits_length, ih, List.length_cons]; ring

/-- The bits `p` to `p + k - 1` of a byte as a number (R121's shift and mask). -/
theorem byteBits_slice (b : Byte) {p k : Nat} (h : p + k ≤ 8) :
    ((byteBits b).drop p).take k = valueBits k (b.toNat >>> (8 - p - k)) := by
  apply List.ext_getElem
  · simp; omega
  · intro j h1 h2
    simp only [valueBits_length] at h2
    simp only [byteBits, valueBits, List.getElem_take, List.getElem_drop, List.getElem_map, List.getElem_range,
      Nat.testBit_shiftRight, BitVec.getLsbD]
    congr 1
    omega

/-- The code width is one of 9 to 12 (R29). -/
theorem width_range (t : Nat) : 9 ≤ width t ∧ width t ≤ 12 := by
  unfold width
  split
  · omega
  · split
    · omega
    · split <;> omega

end Sys2Proof
end

