-- ==== Sys2Proof/Laws/State.lean ====
section
/-!
SUPPORT. The small lemmas of the state's accessors and updates: what each update leaves in each field, so that no later
proof unfolds one.
-/

namespace Sys2Proof.Machine

variable (s : State) (e f : Engine) (io : Stream) (bs : Bytes) (c : Cause) (v : BitVec 12)

/-! ### Streams -/

@[simp] theorem Stream.emit_inp : (io.emit bs).inp = io.inp := rfl
@[simp] theorem Stream.emit_eof : (io.emit bs).eof = io.eof := rfl
@[simp] theorem Stream.emit_ipos : (io.emit bs).ipos = io.ipos := rfl
@[simp] theorem Stream.emit_out : (io.emit bs).out = io.out ++ bs := rfl
@[simp] theorem Stream.emit_taken : (io.emit bs).taken = io.taken := rfl
@[simp] theorem Stream.emit_cause : (io.emit bs).cause = io.cause := rfl
@[simp] theorem Stream.emit_err : (io.emit bs).err = io.err := rfl
@[simp] theorem Stream.emit_info : (io.emit bs).info = io.info := rfl

@[simp] theorem Stream.raise_inp : (io.raise c v).inp = io.inp := rfl
@[simp] theorem Stream.raise_eof : (io.raise c v).eof = io.eof := rfl
@[simp] theorem Stream.raise_ipos : (io.raise c v).ipos = io.ipos := rfl
@[simp] theorem Stream.raise_out : (io.raise c v).out = io.out := rfl
@[simp] theorem Stream.raise_taken : (io.raise c v).taken = io.taken := rfl
@[simp] theorem Stream.raise_cause : (io.raise c v).cause = c := rfl
@[simp] theorem Stream.raise_err : (io.raise c v).err = if c.isFailure then true else io.err := rfl
@[simp] theorem Stream.raise_info : (io.raise c v).info = if c.hasInfo then v else io.info := rfl

/-! ### Replacing an engine's streams -/

@[simp] theorem State.io_lzw : s.io .lzw = s.lzw.io := rfl
@[simp] theorem State.io_a85 : s.io .a85 = s.a85.io := rfl
@[simp] theorem State.io_ahx : s.io .ahx = s.ahx.io := rfl

@[simp] theorem State.setIo_lzw : s.setIo .lzw io = { s with lzw := { s.lzw with io := io } } := rfl
@[simp] theorem State.setIo_a85 : s.setIo .a85 io = { s with a85 := { s.a85 with io := io } } := rfl
@[simp] theorem State.setIo_ahx : s.setIo .ahx io = { s with ahx := { s.ahx with io := io } } := rfl

@[simp] theorem State.setIo_active : (s.setIo e io).active = s.active := by cases e <;> rfl
@[simp] theorem State.setIo_host : (s.setIo e io).host = s.host := by cases e <;> rfl
@[simp] theorem State.io_setIo : (s.setIo e io).io e = io := by cases e <;> rfl
@[simp] theorem State.terminated_setIo : (s.setIo e io).terminated f = s.terminated f := by cases e <;> cases f <;> rfl

theorem State.io_setIo_of_ne (h : e ≠ f) : (s.setIo e io).io f = s.io f := by
  cases e <;> cases f <;> first | rfl | exact absurd rfl h

/-! ### Emit -/

@[simp] theorem State.emit_lzw : s.emit .lzw bs = { s with lzw := { s.lzw with io := s.lzw.io.emit bs } } := rfl
@[simp] theorem State.emit_a85 : s.emit .a85 bs = { s with a85 := { s.a85 with io := s.a85.io.emit bs } } := rfl
@[simp] theorem State.emit_ahx : s.emit .ahx bs = { s with ahx := { s.ahx with io := s.ahx.io.emit bs } } := rfl

/-- `Emit([])` changes nothing (R12). -/
@[simp] theorem State.emit_nil : s.emit e [] = s := by
  cases e <;> simp [State.emit, State.setIo, State.io, Stream.emit]

/-! ### Termination and reset -/

@[simp] theorem State.terminated_lzw : s.terminated .lzw = (s.lzw.fsm == .terminated) := rfl
@[simp] theorem State.terminated_a85 : s.terminated .a85 = (s.a85.fsm == .terminated) := rfl
@[simp] theorem State.terminated_ahx : s.terminated .ahx = (s.ahx.fsm == .terminated) := rfl

@[simp] theorem raise_lzw :
    raise .lzw c v s = { s with lzw := { s.lzw with fsm := .terminated, io := s.lzw.io.raise c v } } := rfl
@[simp] theorem raise_a85 :
    raise .a85 c v s = { s with a85 := { s.a85 with fsm := .terminated, io := s.a85.io.raise c v } } := rfl
@[simp] theorem raise_ahx :
    raise .ahx c v s = { s with ahx := { s.ahx with fsm := .terminated, io := s.ahx.io.raise c v } } := rfl

/-- After `raise` the engine is terminated with the cause raised. -/
theorem raise_terminated : (raise e c v s).terminated e = true ∧ ((raise e c v s).io e).cause = c := by
  cases e <;> exact ⟨rfl, rfl⟩

@[simp] theorem hwReset_lzw : hwReset .lzw s = { s with lzw := Lzw.reset } := rfl
@[simp] theorem hwReset_a85 : hwReset .a85 s = { s with a85 := A85.reset } := rfl
@[simp] theorem hwReset_ahx : hwReset .ahx s = { s with ahx := Ahx.reset s.ahx.mode } := rfl

@[simp] theorem hwReset_active : (hwReset e s).active = s.active := by cases e <;> rfl
@[simp] theorem hwReset_host : (hwReset e s).host = s.host := by cases e <;> rfl

end Sys2Proof.Machine
end

