-- ==== Sys2Proof/Laws/BitReader.lean ====
section
/-!
SUPPORT. What a BitReader read does, said once: it takes the first bits that are unread, or it finds too few of them.
-/

namespace Sys2Proof.Machine

/-- Where the loop stands in the bytes: `p` bytes of `rest` are loaded, and `cur` is the last of them, if any. -/
def Loaded (cur0 : Byte) (rest : Bytes) (p : Nat) (cur : Byte) : Prop :=
  p ≤ rest.length ∧ ((cur0 :: rest)[p]? = some cur)

theorem shift_or_mask (v x k : Nat) : (v <<< k) ||| (x &&& (2 ^ k - 1)) = v * 2 ^ k + x % 2 ^ k := by
  rw [Nat.and_two_pow_sub_one_eq_mod, ← Nat.shiftLeft_add_eq_or_of_lt (Nat.mod_lt _ (Nat.two_pow_pos k)),
    Nat.shiftLeft_eq]

/-- The loop's last round: the bits wanted are in `cur`. -/
theorem takeBits_eq (v k bpos : Nat) (cur : Byte) (h : bpos + k ≤ 8) :
    (v <<< k) ||| ((cur.toNat >>> (8 - bpos - k)) &&& (2 ^ k - 1)) =
      v * 2 ^ k + bitsValue (((byteBits cur).drop bpos).take k) := by
  rw [shift_or_mask, byteBits_slice cur h, bitsValue_valueBits]

/-- An earlier round: all bits left in `cur` are taken. -/
theorem takeRest_eq (v bpos : Nat) (cur : Byte) :
    (v <<< (8 - bpos)) ||| (cur.toNat &&& (2 ^ (8 - bpos) - 1)) =
      v * 2 ^ (8 - bpos) + bitsValue ((byteBits cur).drop bpos) := by
  by_cases h : bpos ≤ 8
  · have h1 := takeBits_eq v (8 - bpos) bpos cur (by omega)
    rw [Nat.sub_self, Nat.shiftRight_zero, List.take_of_length_le (by simp)] at h1
    exact h1
  · rw [shift_or_mask, show 8 - bpos = 0 by omega, List.drop_of_length_le (by simp; omega)]
    simp [Nat.mod_one]

/-- The loop of R121 in full: where enough bits are unread it answers their value after `v` and stands behind them;
where too few are, it has loaded every byte. -/
theorem readLoop_spec (v k : Nat) (cur : Byte) (bpos ipos : Nat) (rest : Bytes) (hb : bpos ≤ 8) (hk : 1 ≤ k) :
    (k ≤ ((byteBits cur).drop bpos ++ streamBits rest).length →
      ∃ p cur' bpos', readLoop v k cur bpos ipos rest =
          .value (v * 2 ^ k + bitsValue (((byteBits cur).drop bpos ++ streamBits rest).take k)) cur' bpos' (ipos + p) ∧
        Loaded cur rest p cur' ∧ 1 ≤ bpos' ∧ bpos' ≤ 8 ∧
        (byteBits cur').drop bpos' ++ streamBits (rest.drop p) =
          ((byteBits cur).drop bpos ++ streamBits rest).drop k) ∧
    (((byteBits cur).drop bpos ++ streamBits rest).length < k →
      ∃ cur', readLoop v k cur bpos ipos rest = .noByte cur' (ipos + rest.length) ∧
        Loaded cur rest rest.length cur') := by
  induction rest generalizing v k cur bpos ipos with
  | nil =>
    simp only [streamBits_nil, List.append_nil, List.length_drop, byteBits_length, readLoop]
    constructor
    · intro h
      refine ⟨0, cur, bpos + k, ?_, ⟨Nat.zero_le _, rfl⟩, by omega, by omega, ?_⟩
      · rw [if_pos h, takeBits_eq v k bpos cur (by omega)]; rfl
      · simp [Nat.add_comm]
    · intro h
      exact ⟨cur, by rw [if_neg (by omega)]; rfl, ⟨le_rfl, rfl⟩⟩
  | cons b rest ih =>
    by_cases h : k ≤ 8 - bpos
    · constructor
      · intro _
        refine ⟨0, cur, bpos + k, ?_, ⟨Nat.zero_le _, rfl⟩, by omega, by omega, ?_⟩
        · rw [readLoop, if_pos h, takeBits_eq v k bpos cur (by omega), List.take_append_of_le_length (by simpa using h)]
          rfl
        · rw [List.drop_append_of_le_length (by simpa using h)]
          simp
      · intro h'
        simp only [List.length_append, List.length_drop, byteBits_length] at h'
        omega
    · have hlen : ((byteBits cur).drop bpos).length = 8 - bpos := by simp
      have hstep : readLoop v k cur bpos ipos (b :: rest) =
          readLoop (v * 2 ^ (8 - bpos) + bitsValue ((byteBits cur).drop bpos)) (k - (8 - bpos)) b 0 (ipos + 1) rest := by
        rw [readLoop, if_neg h, takeRest_eq]
      obtain ⟨ih1, ih2⟩ := ih (v * 2 ^ (8 - bpos) + bitsValue ((byteBits cur).drop bpos)) (k - (8 - bpos)) b 0 (ipos + 1)
        (by omega) (by omega)
      simp only [List.drop_zero, ← streamBits_cons] at ih1 ih2
      constructor
      · intro h'
        rw [List.length_append, hlen] at h'
        obtain ⟨p, cur', bpos', he, ⟨hp, hc⟩, hb1, hb8, hrest⟩ := ih1 (by omega)
        refine ⟨p + 1, cur', bpos', ?_, ⟨by simp only [List.length_cons]; omega, by simpa using hc⟩, hb1, hb8, ?_⟩
        · have ht : ((byteBits cur).drop bpos).take k = (byteBits cur).drop bpos :=
            List.take_of_length_le (by rw [hlen]; omega)
          have hl : ((streamBits (b :: rest)).take (k - (8 - bpos))).length = k - (8 - bpos) := by
            rw [List.length_take]; omega
          rw [hstep, he, List.take_append, hlen, ht, bitsValue_append, hl,
            show 2 ^ k = 2 ^ (8 - bpos) * 2 ^ (k - (8 - bpos)) by rw [← pow_add]; congr 1; omega]
          congr 1
          · ring
          · omega
        · have hd : ((byteBits cur).drop bpos).drop k = [] := List.drop_of_length_le (by rw [hlen]; omega)
          rw [List.drop_append, hlen, hd, List.nil_append, List.drop_succ_cons, hrest]
      · intro h'
        rw [List.length_append, hlen] at h'
        obtain ⟨cur', he, ⟨hp, hc⟩⟩ := ih2 (by omega)
        refine ⟨cur', ?_, ⟨le_rfl, by simpa using hc⟩⟩
        rw [hstep, he]
        simp only [List.length_cons]
        congr 1
        omega


/-! ### The engine's reads -/

/-- `e'` is `e` with its bit cursor moved on: nothing but `cur`, `bpos`, `ipos` and the response differs (R120), and the
cursor is where the invariant wants it. -/
structure CursorMoved (e e' : Lzw) : Prop where
  same : e' = { e with cur := e'.cur, bpos := e'.bpos, resp := e'.resp, io := { e.io with ipos := e'.io.ipos } }
  ipos_ge : e.io.ipos ≤ e'.io.ipos
  ipos_le : e'.io.ipos ≤ e.io.inp.length
  bpos_lo : 1 ≤ e'.bpos
  bpos_hi : e'.bpos ≤ 8
  cur_eq : e'.bpos < 8 → 0 < e'.io.ipos ∧ e'.io.inp[e'.io.ipos - 1]? = some e'.cur

/-- Whatever a read answers, in any state, it writes `cur`, `bpos`, `ipos` and the response and nothing else (R120). -/
theorem readBits_frame {n : Nat} {e e' : Lzw} (h : readBits n e = .endOfInput e' ∨ ∃ v, readBits n e = .value v e') :
    e' = { e with cur := e'.cur, bpos := e'.bpos, resp := e'.resp, io := { e.io with ipos := e'.io.ipos } } := by
  unfold readBits at h
  split at h
  · obtain h | ⟨v, h⟩ := h <;> cases h
    rfl
  · split at h <;> (obtain h | ⟨v, h⟩ := h <;> cases h)
    rfl

/-- The byte under the cursor after `p` loads. -/
theorem Loaded.cur_eq {e : Lzw} {p : Nat} {cur' : Byte} (h : Loaded e.cur (e.io.inp.drop e.io.ipos) p cur')
    (hp : p = 0 → 0 < e.io.ipos ∧ e.io.inp[e.io.ipos - 1]? = some e.cur) :
    0 < e.io.ipos + p ∧ e.io.inp[e.io.ipos + p - 1]? = some cur' := by
  obtain ⟨_, h⟩ := h
  cases p with
  | zero =>
    simp only [List.getElem?_cons_zero, Option.some.injEq] at h
    subst h
    exact hp rfl
  | succ p =>
    simp only [List.getElem?_cons_succ, List.getElem?_drop] at h
    exact ⟨by omega, h⟩

/-- Everything `BR.READ n` does (R121, R122, R22): where `n` bits are unread it answers their value and stands behind
them; else it answers `EndOfInput` with every bit consumed, or waits while bytes may still come. -/
theorem readBits_spec (e : Lzw) (n : Nat) (hn : 1 ≤ n) (hb : e.bpos ≤ 8) (hi : e.io.ipos ≤ e.io.inp.length)
    (hc : e.bpos < 8 → 0 < e.io.ipos ∧ e.io.inp[e.io.ipos - 1]? = some e.cur) :
    (n ≤ e.unread.length → ∃ e', readBits n e = .value (bitsValue (e.unread.take n)) e' ∧ CursorMoved e e' ∧
      e'.resp = .value (BitVec.ofNat 32 (bitsValue (e.unread.take n))) ∧ e'.unread = e.unread.drop n) ∧
    (e.unread.length < n → e.io.eof = true → ∃ e', readBits n e = .endOfInput e' ∧ CursorMoved e e' ∧
      e'.resp = .endOfInput ∧ e'.bpos = 8 ∧ e'.io.ipos = e.io.inp.length ∧ e'.unread = []) ∧
    (e.unread.length < n → e.io.eof = false → readBits n e = .waits) := by
  obtain ⟨h1, h2⟩ := readLoop_spec 0 n e.cur e.bpos e.io.ipos (e.io.inp.drop e.io.ipos) hb hn
  refine ⟨fun h => ?_, fun h he => ?_, fun h he => ?_⟩
  · obtain ⟨p, cur', bpos', hr, hl, hb1, hb8, hu⟩ := h1 h
    have hp : p ≤ e.io.inp.length - e.io.ipos := by simpa using hl.1
    refine ⟨_, by rw [readBits, hr, Nat.zero_mul, Nat.zero_add]; rfl, ⟨rfl, ?_, ?_, hb1, hb8, ?_⟩, rfl, ?_⟩
    · exact Nat.le_add_right _ _
    · show e.io.ipos + p ≤ _
      omega
    · intro hb'
      refine Loaded.cur_eq hl fun hp0 => hc ?_
      subst hp0
      have := congrArg List.length hu
      simp only [List.drop_zero, List.length_append, List.length_drop, byteBits_length, streamBits_length] at this
      have hb'' : bpos' < 8 := hb'
      have : n ≤ 8 - e.bpos + 8 * (e.io.inp.length - e.io.ipos) := by
        simpa [Lzw.unread] using h
      omega
    · show (byteBits cur').drop bpos' ++ streamBits (e.io.inp.drop (e.io.ipos + p)) = _
      rw [← List.drop_drop, hu]
      rfl
  · obtain ⟨cur', hr, hl⟩ := h2 h
    have hlen : e.io.ipos + (e.io.inp.drop e.io.ipos).length = e.io.inp.length := by simp; omega
    refine ⟨_, by rw [readBits, hr]; exact if_pos he, ⟨rfl, ?_, ?_, ?_, ?_, ?_⟩, rfl, rfl, hlen, ?_⟩
    · exact Nat.le_add_right _ _
    · show e.io.ipos + (e.io.inp.drop e.io.ipos).length ≤ _
      omega
    · show 1 ≤ 8
      omega
    · exact le_refl 8
    · intro h8
      exact absurd h8 (lt_irrefl 8)
    · show (byteBits cur').drop 8 ++ streamBits (e.io.inp.drop (e.io.ipos + (e.io.inp.drop e.io.ipos).length)) = []
      rw [hlen]
      simp
  · obtain ⟨cur', hr, -⟩ := h2 h
    rw [readBits, hr]
    simp [he]

/-! ### The unread bits in the spec's numbering -/

theorem streamBits_drop (bs : Bytes) (i : Nat) : (streamBits bs).drop (8 * i) = streamBits (bs.drop i) := by
  induction i generalizing bs with
  | zero => simp
  | succ i ih =>
    cases bs with
    | nil => simp
    | cons b bs =>
      rw [streamBits_cons, List.drop_succ_cons, ← ih, List.drop_append, byteBits_length,
        List.drop_of_length_le (by simp only [byteBits_length]; omega), List.nil_append]
      congr 1

theorem streamBits_getElem? (bs : Bytes) (k : Nat) (h : k < 8 * bs.length) :
    ((streamBits bs)[k]?.map Bool.toNat) = some (streamBit bs k) := by
  induction bs generalizing k with
  | nil => simp at h
  | cons b bs ih =>
    simp only [streamBits_cons]
    by_cases hk : k < 8
    · rw [List.getElem?_append_left (by simpa using hk)]
      have h0 : k / 8 = 0 := by omega
      have h1 : k % 8 = k := by omega
      simp [streamBit, h0, h1, byteBits, hk]
    · rw [List.getElem?_append_right (by simp only [byteBits_length]; omega), byteBits_length,
        ih (k - 8) (by simp only [List.length_cons] at h; omega)]
      have h0 : k / 8 = (k - 8) / 8 + 1 := by omega
      have h1 : k % 8 = (k - 8) % 8 := by omega
      simp [streamBit, h0, h1]

/-- What is unread is the stream from the cursor's position on (R24, R124). -/
theorem Lzw.unread_eq_drop (e : Lzw) (hb : e.bpos ≤ 8)
    (hc : e.bpos < 8 → 0 < e.io.ipos ∧ e.io.inp[e.io.ipos - 1]? = some e.cur) :
    e.unread = (streamBits e.io.inp).drop e.bitPos := by
  unfold Lzw.unread Lzw.bitPos
  by_cases h8 : e.bpos < 8
  · obtain ⟨hp, hcur⟩ := hc h8
    have hsplit : e.io.inp.drop (e.io.ipos - 1) = e.cur :: e.io.inp.drop e.io.ipos := by
      obtain ⟨hlt, hval⟩ := List.getElem?_eq_some_iff.mp hcur
      rw [List.drop_eq_getElem_cons hlt, hval]
      congr 2
      omega
    rw [show 8 * e.io.ipos - (8 - e.bpos) = 8 * (e.io.ipos - 1) + e.bpos by omega, ← List.drop_drop, streamBits_drop,
      hsplit, streamBits_cons, List.drop_append_of_le_length (by simpa using hb)]
  · rw [show e.bpos = 8 by omega, Nat.sub_self, Nat.sub_zero, streamBits_drop]
    simp

/-- A read's value in the spec's own sum (R61). -/
theorem bitsValue_eq_bitsAt (inp : Bytes) (p n : Nat) (h : p + n ≤ 8 * inp.length) :
    bitsValue (((streamBits inp).drop p).take n) = bitsAt inp p n := by
  induction n with
  | zero => simp [bitsAt]
  | succ n ih =>
    have hb := streamBits_getElem? inp (p + n) (by omega)
    obtain ⟨b, hb1, hb2⟩ := Option.map_eq_some_iff.mp hb
    rw [List.take_add_one, List.getElem?_drop, hb1, bitsValue_append, ih (by omega), bitsAt, bitsAt, Finset.sum_range_succ,
      Finset.sum_mul]
    congr 1
    · refine Finset.sum_congr rfl fun j hj => ?_
      have hj := Finset.mem_range.mp hj
      rw [mul_assoc, ← pow_add]
      congr 2
      simp only [Option.toList_some, List.length_singleton]
      omega
    · rw [← hb2]
      simp [bitsValue, bitVal]

end Sys2Proof.Machine
end

