-- ==== Sys2Proof/Laws/Table.lean ====
section
/-!
SUPPORT. The code table: read after write, and that every operation keeps the canonical form.
-/

namespace Sys2Proof.Machine

/-! ### Read after write -/

theorem Memory.lookup_insert (m : Memory) (i k : Nat) (x : Bytes) :
    (m.insert i x).lookup k = if i = k then some x else m.lookup k := by
  induction m with
  | nil => simp [Memory.insert, Memory.lookup]
  | cons p m ih =>
    obtain ⟨j, y⟩ := p
    simp only [Memory.insert]
    split
    · simp [Memory.lookup]
    · split
      · rename_i h
        subst h
        by_cases hk : i = k <;> simp [Memory.lookup, hk]
      · rename_i h1 h2
        simp only [Memory.lookup, ih]
        by_cases hk : j = k
        · simp [hk]
          rintro rfl
          exact absurd hk.symm h2
        · simp [hk]

theorem Memory.lookup_remove (m : Memory) (i k : Nat) :
    (m.remove i).lookup k = if i = k then none else m.lookup k := by
  induction m with
  | nil => simp [Memory.remove, Memory.lookup]
  | cons p m ih =>
    obtain ⟨j, y⟩ := p
    simp only [Memory.remove] at ih
    by_cases hj : j = i
    · subst hj
      by_cases hk : j = k
      · subst hk
        simpa [Memory.remove] using ih
      · simpa [Memory.remove, Memory.lookup, hk] using ih
    · by_cases hk : j = k
      · subst hk
        simp [Memory.remove, Memory.lookup, hj, Ne.symm hj]
      · simp [Memory.remove, Memory.lookup, hj, hk, ih]

/-- The literal entries (R27). -/
@[simp] theorem Memory.read_literal (m : Memory) {i : Nat} (h : i < 256) : m.read i = some [BitVec.ofNat 8 i] := by
  simp [Memory.read, h]

/-- The reserved slots (R27). -/
theorem Memory.read_reserved (m : Memory) {i : Nat} (h : i = 256 ∨ i = 257) : m.read i = none := by
  rcases h with rfl | rfl <;> simp [Memory.read]

/-- A slot reads as it was written, any other slot as before; a write outside the dynamic slots has no effect. -/
theorem Memory.read_write (m : Memory) (i k : Nat) (x : Bytes) :
    (m.write i x).read k = if i = k ∧ 258 ≤ i ∧ i < 4096 then some x else m.read k := by
  unfold Memory.write Memory.read
  by_cases hi : 258 ≤ i ∧ i < Config.tcap
  · by_cases hk : i = k
    · subst hk
      rw [if_pos hi, if_neg (show ¬ i < 256 by omega), if_neg (show ¬ i < 258 by omega), if_pos hi.2,
        if_pos (show i = i ∧ 258 ≤ i ∧ i < 4096 from ⟨rfl, hi⟩)]
      by_cases hx : x = [] <;> simp [hx, Memory.lookup_insert, Memory.lookup_remove]
    · by_cases hx : x = [] <;> simp [hi, hk, hx, Memory.lookup_insert, Memory.lookup_remove]
  · have h : ¬ (i = k ∧ 258 ≤ i ∧ i < 4096) := fun h => hi h.2
    rw [if_neg hi, if_neg h]

theorem Memory.read_write_self (m : Memory) {i : Nat} (x : Bytes) (h : 258 ≤ i) (h' : i < 4096) :
    (m.write i x).read i = some x := by simp [Memory.read_write, h, h']

theorem Memory.read_write_of_ne (m : Memory) {i k : Nat} (x : Bytes) (h : i ≠ k) :
    (m.write i x).read k = m.read k := by simp [Memory.read_write, h]

/-! ### The canonical form -/

theorem Memory.risingFrom_mono (m : Memory) {lo lo' : Nat} (h : lo' ≤ lo) (hm : m.risingFrom lo = true) :
    m.risingFrom lo' = true := by
  cases m with
  | nil => rfl
  | cons p m =>
    obtain ⟨j, y⟩ := p
    simp only [Memory.risingFrom, Bool.and_eq_true, decide_eq_true_eq] at hm ⊢
    exact ⟨⟨⟨by omega, hm.1.1.2⟩, hm.1.2⟩, hm.2⟩

theorem Memory.risingFrom_insert (m : Memory) {lo i : Nat} {x : Bytes} (hlo : lo ≤ i) (hi : i < Config.tcap) (hx : x ≠ [])
    (hm : m.risingFrom lo = true) : (m.insert i x).risingFrom lo = true := by
  have hx : (x != []) = true := by simpa using hx
  induction m generalizing lo with
  | nil => simp [Memory.insert, Memory.risingFrom, hlo, hi, hx]
  | cons p m ih =>
    obtain ⟨j, y⟩ := p
    simp only [Memory.risingFrom, Bool.and_eq_true, decide_eq_true_eq] at hm
    simp only [Memory.insert]
    split
    · rename_i h
      simp only [Memory.risingFrom, Bool.and_eq_true, decide_eq_true_eq]
      exact ⟨⟨⟨hlo, hi⟩, hx⟩, ⟨⟨by omega, hm.1.1.2⟩, hm.1.2⟩, hm.2⟩
    · split
      · rename_i h
        subst h
        simp only [Memory.risingFrom, Bool.and_eq_true, decide_eq_true_eq]
        exact ⟨⟨⟨hlo, hi⟩, hx⟩, hm.2⟩
      · simp only [Memory.risingFrom, Bool.and_eq_true, decide_eq_true_eq]
        exact ⟨hm.1, ih (by omega) hm.2⟩

theorem Memory.risingFrom_remove (m : Memory) {lo : Nat} (i : Nat) (hm : m.risingFrom lo = true) :
    (m.remove i).risingFrom lo = true := by
  induction m generalizing lo with
  | nil => rfl
  | cons p m ih =>
    obtain ⟨j, y⟩ := p
    simp only [Memory.risingFrom, Bool.and_eq_true, decide_eq_true_eq] at hm
    simp only [Memory.remove, List.filter_cons] at ih ⊢
    split
    · simp only [Memory.risingFrom, Bool.and_eq_true, decide_eq_true_eq]
      exact ⟨hm.1, ih hm.2⟩
    · exact Memory.risingFrom_mono _ (by omega) (ih hm.2)

/-- A write keeps the canonical form. -/
theorem Memory.wf_write (m : Memory) (i : Nat) (x : Bytes) (hm : m.wf = true) : (m.write i x).wf = true := by
  unfold Memory.write
  split
  · rename_i h
    split
    · exact Memory.risingFrom_remove m i hm
    · rename_i hx
      exact Memory.risingFrom_insert m h.1 h.2 hx hm
  · exact hm

/-- The empty table has the canonical form. -/
theorem Memory.wf_nil : Memory.wf [] = true := rfl

/-- The reset state's table has the canonical form. -/
theorem Memory.wf_reset (p : PairMode) : (State.resetWith p).lzw.table.wf = true := rfl

/-! ### Append and table reset -/

/-- Everything an append does: below the capacity slot `tlen` is written and `tlen` grows by one, else nothing. -/
theorem Lzw.append_cases (e : Lzw) (x : Bytes) :
    (e.tlen < 4096 ∧ e.append x = { e with table := e.table.write e.tlen x, tlen := e.tlen + 1 }) ∨
      (4096 ≤ e.tlen ∧ e.append x = e) := by
  unfold Lzw.append
  by_cases h : e.tlen < Config.tcap
  · exact .inl ⟨h, if_pos h⟩
  · exact .inr ⟨not_lt.mp h, if_neg h⟩

@[simp] theorem Lzw.append_fsm (e : Lzw) (x : Bytes) : (e.append x).fsm = e.fsm := by unfold Lzw.append; split <;> rfl
@[simp] theorem Lzw.append_prev (e : Lzw) (x : Bytes) : (e.append x).prev = e.prev := by unfold Lzw.append; split <;> rfl
@[simp] theorem Lzw.append_cur (e : Lzw) (x : Bytes) : (e.append x).cur = e.cur := by unfold Lzw.append; split <;> rfl
@[simp] theorem Lzw.append_bpos (e : Lzw) (x : Bytes) : (e.append x).bpos = e.bpos := by unfold Lzw.append; split <;> rfl
@[simp] theorem Lzw.append_req (e : Lzw) (x : Bytes) : (e.append x).req = e.req := by unfold Lzw.append; split <;> rfl
@[simp] theorem Lzw.append_resp (e : Lzw) (x : Bytes) : (e.append x).resp = e.resp := by unfold Lzw.append; split <;> rfl
@[simp] theorem Lzw.append_io (e : Lzw) (x : Bytes) : (e.append x).io = e.io := by unfold Lzw.append; split <;> rfl

/-- An append rewrites no slot but `tlen` (R33(b), R70). -/
theorem Lzw.append_read_of_ne (e : Lzw) (x : Bytes) {i : Nat} (h : i ≠ e.tlen) :
    (e.append x).table.read i = e.table.read i := by
  rcases e.append_cases x with ⟨_, he⟩ | ⟨_, he⟩ <;> rw [he]
  exact Memory.read_write_of_ne _ _ h.symm

theorem Lzw.append_wf (e : Lzw) (x : Bytes) (h : e.table.wf = true) : (e.append x).table.wf = true := by
  rcases e.append_cases x with ⟨_, he⟩ | ⟨_, he⟩ <;> rw [he]
  · exact Memory.wf_write _ _ _ h
  · exact h

@[simp] theorem Lzw.tableReset_table (e : Lzw) : e.tableReset.table = e.table := rfl
@[simp] theorem Lzw.tableReset_tlen (e : Lzw) : e.tableReset.tlen = 258 := rfl
@[simp] theorem Lzw.tableReset_prev (e : Lzw) : e.tableReset.prev = [] := rfl
@[simp] theorem Lzw.tableReset_io (e : Lzw) : e.tableReset.io = e.io := rfl

end Sys2Proof.Machine
end

