-- ==== Sys2Proof/Laws/Exec.lean ====
section
/-!
SUPPORT. What each meaning does when it answers a next state, one inversion lemma per instruction: the condition that
held and the state it leaves. Proofs about steps cite these and unfold no meaning.
-/

namespace Sys2Proof.Machine

variable {s t : State}

theorem execBrRead_next {n : BitVec 6} (h : execBrRead n s = .next t) :
    1 ≤ n.toNat ∧ n.toNat ≤ 32 ∧
      ((readBits n.toNat s.lzw = .waits ∧ t = s) ∨
        (∃ e, readBits n.toNat s.lzw = .endOfInput e ∧ t = { s with lzw := e }) ∨
        ∃ v e, readBits n.toNat s.lzw = .value v e ∧ t = { s with lzw := e }) := by
  unfold execBrRead at h
  split at h
  · rename_i hn
    refine ⟨hn.1, hn.2, ?_⟩
    split at h <;> rename_i hr <;> cases h
    · exact .inl ⟨hr, rfl⟩
    · exact .inr (.inl ⟨_, hr, rfl⟩)
    · exact .inr (.inr ⟨_, _, hr, rfl⟩)
  · cases h

theorem execLzwEoi_next (h : execLzwEoi s = .next t) :
    s.lzw.fsm ≠ .terminated ∧ s.lzw.resp = .endOfInput ∧ t = raise .lzw .endOfInput 0 s := by
  unfold execLzwEoi at h
  split at h <;> cases h
  rename_i hc
  exact ⟨hc.1, hc.2, rfl⟩

theorem execLzwClear_next (h : execLzwClear s = .next t) :
    s.lzw.fsm ≠ .terminated ∧ t = { s with lzw := { s.lzw.tableReset with fsm := .running } } := by
  unfold execLzwClear at h
  split at h <;> cases h
  rename_i hc
  exact ⟨hc, State.emit_nil _ _⟩

theorem execLzwEod_next (h : execLzwEod s = .next t) :
    s.lzw.fsm ≠ .terminated ∧ t = raise .lzw .endOfData 0 s := by
  unfold execLzwEod at h
  split at h <;> cases h
  rename_i hc
  exact ⟨hc, rfl⟩

theorem execLzwNoclear_next {code : Code} (h : execLzwNoclear code s = .next t) :
    s.lzw.fsm = .awaitingClear ∧ isDataCode code = true ∧ t = raise .lzw .corruptTable code s := by
  unfold execLzwNoclear at h
  split at h <;> cases h
  rename_i hc
  exact ⟨hc.1, hc.2, rfl⟩

theorem execLzwFirst_next {code : Code} (h : execLzwFirst code s = .next t) :
    s.lzw.fsm = .running ∧ s.lzw.prev = [] ∧ code.toNat ≤ 255 ∧
      t = { s with lzw := { s.lzw with
        prev := [BitVec.ofNat 8 code.toNat], io := s.lzw.io.emit [BitVec.ofNat 8 code.toNat] } } := by
  unfold execLzwFirst at h
  split at h
  · rename_i hc
    rw [Memory.read_literal _ (by omega)] at h
    cases h
    exact ⟨hc.1, hc.2.1, hc.2.2, rfl⟩
  · cases h

theorem execLzwBadfirst_next {code : Code} (h : execLzwBadfirst code s = .next t) :
    s.lzw.fsm = .running ∧ s.lzw.prev = [] ∧ 258 ≤ code.toNat ∧ t = raise .lzw .corruptTable code s := by
  unfold execLzwBadfirst at h
  split at h <;> cases h
  rename_i hc
  exact ⟨hc.1, hc.2.1, hc.2.2, rfl⟩

/-- The state that an append, an emission and the new `prev` leave (R145, R146). -/
def appendEmit (s : State) (entry chunk : Bytes) : State :=
  { s with lzw := { s.lzw.append entry with prev := chunk, io := s.lzw.io.emit chunk } }

theorem execLzwRef_next {code : Code} (h : execLzwRef code s = .next t) :
    s.lzw.fsm = .running ∧ s.lzw.prev ≠ [] ∧ code.toNat < s.lzw.tlen ∧ isDataCode code = true ∧
      ∃ b x, s.lzw.table.read code.toNat = some (b :: x) ∧ t = appendEmit s (s.lzw.prev ++ [b]) (b :: x) := by
  unfold execLzwRef at h
  split at h
  · rename_i hc
    refine ⟨hc.1, hc.2.1, hc.2.2.1, hc.2.2.2, ?_⟩
    split at h
    · cases h
    · rename_i y hr
      cases y with
      | nil => simp [first?] at h
      | cons b x =>
        refine ⟨b, x, hr, ?_⟩
        simp only [first?, State.emit_lzw, Lzw.append_io] at h
        cases h
        rfl
  · cases h

theorem execLzwKwkwk_next {code : Code} (h : execLzwKwkwk code s = .next t) :
    s.lzw.fsm = .running ∧ code.toNat = s.lzw.tlen ∧ isDataCode code = true ∧
      ∃ b x, s.lzw.prev = b :: x ∧ t = appendEmit s (b :: x ++ [b]) (b :: x ++ [b]) := by
  unfold execLzwKwkwk at h
  split at h
  · rename_i hc
    refine ⟨hc.1, hc.2.2.1, hc.2.2.2, ?_⟩
    cases hp : s.lzw.prev with
    | nil => exact absurd hp hc.2.1
    | cons b x =>
      refine ⟨b, x, rfl, ?_⟩
      rw [hp] at h
      simp only [first?, State.emit_lzw, Lzw.append_io] at h
      cases h
      rfl
  · cases h

theorem execLzwCorrupt_next {code : Code} (h : execLzwCorrupt code s = .next t) :
    s.lzw.fsm = .running ∧ s.lzw.prev ≠ [] ∧ s.lzw.tlen < code.toNat ∧ isDataCode code = true ∧
      t = raise .lzw .corruptTable code s := by
  unfold execLzwCorrupt at h
  split at h <;> cases h
  rename_i hc
  exact ⟨hc.1, hc.2.1, hc.2.2.1, hc.2.2.2, rfl⟩

theorem execA85Eoi_next (h : execA85Eoi s = .next t) :
    s.a85.fsm = .running ∧ s.a85.io.inExhausted = true ∧ t = raise .a85 .endOfInput 0 s := by
  unfold execA85Eoi at h
  split at h <;> cases h
  rename_i hc
  exact ⟨hc.1, hc.2, rfl⟩

theorem execA85Digit_next {c : Byte} (h : execA85Digit c s = .next t) :
    s.a85.fsm = .running ∧ isA85Digit c = true ∧
      ((s.a85.cnt ≠ 4 ∧
          t = { s with a85 := { s.a85 with acc := groupStep s.a85.acc (a85Value c), cnt := s.a85.cnt + 1 } }) ∨
        (s.a85.cnt = 4 ∧ groupOverflows (groupStep s.a85.acc (a85Value c)) = false ∧
          t = { s with a85 := { s.a85 with
            acc := 0, cnt := 0, io := s.a85.io.emit (be32 (groupStep s.a85.acc (a85Value c))) } }) ∨
        (s.a85.cnt = 4 ∧ groupOverflows (groupStep s.a85.acc (a85Value c)) = true ∧
          t = raise .a85 .a85Overflow 5
            { s with a85 := { s.a85 with acc := groupStep s.a85.acc (a85Value c), cnt := 5 } })) := by
  unfold execA85Digit at h
  split at h
  · rename_i hc
    refine ⟨hc.1, hc.2, ?_⟩
    by_cases h4 : s.a85.cnt = 4
    · simp only [h4, if_true] at h
      split at h <;> cases h
      · rename_i ho
        exact .inr (.inr ⟨h4, ho, rfl⟩)
      · rename_i ho
        exact .inr (.inl ⟨h4, by simpa using ho, rfl⟩)
    · have h5 : ¬ s.a85.cnt + 1 = 5 := by omega
      simp only [h5, if_false] at h
      cases h
      exact .inl ⟨h4, rfl⟩
  · cases h

theorem execA85Z_next (h : execA85Z s = .next t) :
    s.a85.fsm = .running ∧ s.a85.cnt = 0 ∧ t = s.emit .a85 [0, 0, 0, 0] := by
  unfold execA85Z at h
  split at h <;> cases h
  rename_i hc
  exact ⟨hc.1, hc.2, rfl⟩

theorem execA85Zbad_next (h : execA85Zbad s = .next t) :
    s.a85.fsm = .running ∧ s.a85.cnt ≠ 0 ∧ t = raise .a85 .invalidShorthand (BitVec.ofNat 12 s.a85.cnt) s := by
  unfold execA85Zbad at h
  split at h <;> cases h
  rename_i hc
  exact ⟨hc.1, hc.2, rfl⟩

theorem execA85End_next (h : execA85End s = .next t) :
    s.a85.fsm = .running ∧
      ((s.a85.cnt = 0 ∧ t = raise .a85 .terminator 0 s) ∨
        (0 < s.a85.cnt ∧ groupOverflows (padGroup (5 - s.a85.cnt) s.a85.acc) = false ∧
          t = raise .a85 .terminator 0 { s with a85 := { s.a85 with
            acc := padGroup (5 - s.a85.cnt) s.a85.acc
            io := s.a85.io.emit ((be32 (padGroup (5 - s.a85.cnt) s.a85.acc)).take (s.a85.cnt - 1)) } }) ∨
        (0 < s.a85.cnt ∧ groupOverflows (padGroup (5 - s.a85.cnt) s.a85.acc) = true ∧
          t = raise .a85 .a85Overflow (BitVec.ofNat 12 s.a85.cnt)
            { s with a85 := { s.a85 with acc := padGroup (5 - s.a85.cnt) s.a85.acc } })) := by
  unfold execA85End at h
  split at h
  · rename_i hc
    refine ⟨hc, ?_⟩
    split at h
    · rename_i h0
      dsimp only at h
      split at h <;> cases h
      · rename_i ho
        exact .inr (.inr ⟨h0, ho, rfl⟩)
      · rename_i ho
        exact .inr (.inl ⟨h0, by simpa using ho, rfl⟩)
    · rename_i h0
      cases h
      exact .inl ⟨by omega, rfl⟩
  · cases h

theorem execA85Skip_next {c : Byte} (h : execA85Skip c s = .next t) :
    s.a85.fsm = .running ∧ isA85Digit c = false ∧ c ≠ a85ZChar ∧ c ≠ a85Tilde ∧ t = s := by
  unfold execA85Skip at h
  split at h <;> cases h
  rename_i hc
  exact ⟨hc.1, by simpa using hc.2.1, hc.2.2.1, hc.2.2.2, rfl⟩

/-- What `FLUSH` leaves (R195). -/
theorem ahxFlush_eq (s : State) :
    ahxFlush s = { s with ahx := { s.ahx with
      pv := false
      io := s.ahx.io.emit (if s.ahx.pv = true ∧ s.ahx.stray = false then [hexByte s.ahx.pend 0] else []) } } := by
  unfold ahxFlush
  by_cases h : s.ahx.pv = true ∧ s.ahx.stray = false
  · simp [h]
  · have h' : ¬ (s.ahx.pv = true ∧ ¬ s.ahx.stray = true) := by simpa using h
    rw [if_neg h', if_neg h]
    simp [Stream.emit]

theorem execAhxEoi_next (h : execAhxEoi s = .next t) :
    s.ahx.fsm = .running ∧ s.ahx.io.inExhausted = true ∧ t = raise .ahx .endOfInput 0 (ahxFlush s) := by
  unfold execAhxEoi at h
  split at h <;> cases h
  rename_i hc
  exact ⟨hc.1, hc.2, rfl⟩

theorem execAhxDigit_next {c : Byte} (h : execAhxDigit c s = .next t) :
    s.ahx.fsm = .running ∧ ∃ v, hexValue? c = some v ∧
      ((s.ahx.pv = true ∧ (s.ahx.mode = .stream ∨ s.ahx.sep = false) ∧
          t = { s with ahx := { s.ahx with pv := false, io := s.ahx.io.emit [hexByte s.ahx.pend v] } }) ∨
        (s.ahx.pv = true ∧ s.ahx.mode = .adjacent ∧ s.ahx.sep = true ∧
          t = { s with ahx := { s.ahx with stray := true, pend := BitVec.ofNat 4 v, sep := false } }) ∨
        (s.ahx.pv = false ∧
          t = { s with ahx := { s.ahx with pend := BitVec.ofNat 4 v, pv := true, sep := false } })) := by
  unfold execAhxDigit at h
  split at h
  · rename_i hc
    refine ⟨hc, ?_⟩
    split at h
    · cases h
    · rename_i v hv
      refine ⟨v, hv, ?_⟩
      split at h
      · rename_i hp
        cases h
        exact .inl ⟨hp.1, by simpa using hp.2, rfl⟩
      · rename_i hp
        split at h <;> cases h
        · rename_i hpv
          refine .inr (.inl ⟨hpv, ?_⟩)
          have hn : ¬ (s.ahx.mode = .stream ∨ ¬ s.ahx.sep = true) := fun h => hp ⟨hpv, h⟩
          have hm : s.ahx.mode ≠ .stream := fun h => hn (.inl h)
          refine ⟨?_, ?_, rfl⟩
          · cases hmm : s.ahx.mode
            · rfl
            · exact absurd hmm hm
          · by_contra hs
            exact hn (.inr hs)
        · rename_i hpv
          exact .inr (.inr ⟨by simpa using hpv, rfl⟩)
  · cases h

theorem execAhxEnd_next (h : execAhxEnd s = .next t) :
    s.ahx.fsm = .running ∧ t = raise .ahx .terminator 0 (ahxFlush s) := by
  unfold execAhxEnd at h
  split at h <;> cases h
  rename_i hc
  exact ⟨hc, rfl⟩

theorem execAhxSkip_next {c : Byte} (h : execAhxSkip c s = .next t) :
    s.ahx.fsm = .running ∧ hexValue? c = none ∧ c ≠ ahxGt ∧
      ((s.ahx.mode = .adjacent ∧ s.ahx.pv = true ∧ t = { s with ahx := { s.ahx with sep := true } }) ∨
        ((s.ahx.mode = .stream ∨ s.ahx.pv = false) ∧ t = s)) := by
  unfold execAhxSkip at h
  split at h
  · rename_i hc
    refine ⟨hc.1, hc.2.1, hc.2.2, ?_⟩
    split at h <;> cases h
    · rename_i hm
      exact .inl ⟨hm.1, hm.2, rfl⟩
    · rename_i hm
      refine .inr ⟨?_, rfl⟩
      cases hmm : s.ahx.mode
      · exact .inr (by simpa [hmm] using hm)
      · exact .inl rfl
  · cases h

end Sys2Proof.Machine
end

