-- ==== Sys2Proof/Laws/Invariant.lean ====
section
/-!
SUPPORT. The shared operations keep the invariants: emission, termination, a cursor move, an append.
-/

namespace Sys2Proof.Machine

/-! ### Streams -/

theorem Stream.Inv.emit {io : Stream} {b : Bool} (h : io.Inv b) (bs : Bytes) : (io.emit bs).Inv b where
  ipos_le := h.ipos_le
  taken_le := by have := h.taken_le; simp only [Stream.emit_taken, Stream.emit_out, List.length_append]; omega
  cause_iff := h.cause_iff
  err_eq := h.err_eq
  info_eq := h.info_eq

/-- `raise` on a stream whose engine has not terminated (R211). -/
theorem Stream.Inv.raise {io : Stream} (h : io.Inv false) {c : Cause} (hc : c ≠ .none) (v : BitVec 12) :
    (io.raise c v).Inv true where
  ipos_le := h.ipos_le
  taken_le := h.taken_le
  cause_iff := by simp [hc]
  err_eq := by
    have h0 : io.cause = .none := h.cause_iff.mpr rfl
    have h1 : io.err = false := by rw [h.err_eq, h0]; rfl
    simp only [Stream.raise_err, Stream.raise_cause, h1]
    cases c.isFailure <;> rfl
  info_eq := by
    have h0 : io.cause = .none := h.cause_iff.mpr rfl
    have h1 : io.info = 0 := h.info_eq (by rw [h0]; rfl)
    intro hi
    simp only [Stream.raise_cause] at hi
    simp [hi, h1]

/-- Where nothing has terminated the status registers hold their reset values. -/
theorem Stream.Inv.status {io : Stream} (h : io.Inv false) : io.cause = .none ∧ io.err = false ∧ io.info = 0 := by
  have h0 : io.cause = .none := h.cause_iff.mpr rfl
  exact ⟨h0, by rw [h.err_eq, h0]; rfl, h.info_eq (by rw [h0]; rfl)⟩

/-- `InNext` in full (R12). -/
theorem Stream.inNext_some {io : Stream} {c : Byte} {jo : Stream} (h : io.inNext = some (c, jo)) :
    io.inp[io.ipos]? = some c ∧ jo = { io with ipos := io.ipos + 1 } := by
  unfold Stream.inNext at h
  cases hi : io.inp[io.ipos]? with
  | none => simp [hi] at h
  | some b =>
    simp only [hi, Option.some.injEq, Prod.mk.injEq] at h
    exact ⟨congrArg some h.1, h.2.symm⟩

theorem Stream.Inv.inNext {io jo : Stream} {b : Bool} {c : Byte} (h : io.Inv b) (hn : io.inNext = some (c, jo)) :
    jo.Inv b := by
  obtain ⟨hc, rfl⟩ := Stream.inNext_some hn
  obtain ⟨hlt, -⟩ := List.getElem?_eq_some_iff.mp hc
  exact ⟨hlt, h.taken_le, h.cause_iff, h.err_eq, h.info_eq⟩

/-! ### LZW -/

theorem Lzw.Inv.running_io {e : Lzw} (h : e.Inv) (hf : e.fsm ≠ .terminated) : e.io.Inv false := by
  have := h.io
  rwa [show (e.fsm == LzwFsm.terminated) = false by simpa using hf] at this

/-- A cursor move keeps the invariant. -/
theorem Lzw.Inv.cursorMoved {e e' : Lzw} (h : e.Inv) (hm : CursorMoved e e') : e'.Inv := by
  obtain ⟨hs, _, hle, hb1, hb8, hc⟩ := hm
  generalize hcur : e'.cur = cur, hbpos : e'.bpos = bpos, hresp : e'.resp = resp, hipos : e'.io.ipos = ipos at *
  subst hs
  exact
    { io := ⟨hle, h.io.taken_le, h.io.cause_iff, h.io.err_eq, h.io.info_eq⟩
      causes := h.causes, tlen_lo := h.tlen_lo, tlen_hi := h.tlen_hi, table_wf := h.table_wf, slots := h.slots
      prev_len := h.prev_len, prev_nil := h.prev_nil, awaiting := h.awaiting, bpos_lo := hb1, bpos_hi := hb8
      cur_eq := hc }

/-- Termination keeps the invariant. -/
theorem Lzw.Inv.raise {e : Lzw} (h : e.Inv) (hf : e.fsm ≠ .terminated) {c : Cause} (v : BitVec 12)
    (hc : c ∈ [Cause.endOfData, .endOfInput, .corruptTable]) :
    ({ e with fsm := .terminated, io := e.io.raise c v } : Lzw).Inv :=
  { io := (h.running_io hf).raise (by rintro rfl; simp at hc) v
    causes := List.mem_cons_of_mem _ hc, tlen_lo := h.tlen_lo, tlen_hi := h.tlen_hi, table_wf := h.table_wf
    slots := h.slots, prev_len := h.prev_len, prev_nil := h.prev_nil, awaiting := by simp, bpos_lo := h.bpos_lo
    bpos_hi := h.bpos_hi, cur_eq := h.cur_eq }

/-- A table reset keeps the invariant. -/
theorem Lzw.Inv.clear {e : Lzw} (h : e.Inv) (hf : e.fsm ≠ .terminated) :
    ({ e.tableReset with fsm := .running } : Lzw).Inv :=
  { io := h.running_io hf, causes := h.causes, tlen_lo := le_refl 258, tlen_hi := by show 258 ≤ 4096; omega
    table_wf := h.table_wf, slots := fun i h1 h2 => absurd h2 (not_lt.mpr h1), prev_len := Nat.zero_le _
    prev_nil := fun _ => rfl, awaiting := by simp, bpos_lo := h.bpos_lo, bpos_hi := h.bpos_hi, cur_eq := h.cur_eq }

/-- The first literal keeps the invariant. -/
theorem Lzw.Inv.first {e : Lzw} (h : e.Inv) (hf : e.fsm = .running) (b : Byte) :
    ({ e with prev := [b], io := e.io.emit [b] } : Lzw).Inv :=
  { io := h.io.emit _, causes := h.causes, tlen_lo := h.tlen_lo, tlen_hi := h.tlen_hi, table_wf := h.table_wf
    slots := h.slots
    prev_len := by have := h.tlen_lo; simp only [List.length_singleton]; omega
    prev_nil := by simp
    awaiting := by simp [hf]
    bpos_lo := h.bpos_lo, bpos_hi := h.bpos_hi, cur_eq := h.cur_eq }

/-- What a readable slot holds (R27, R31): one byte, or at most `i - 256` bytes. -/
theorem Lzw.Inv.read_length {e : Lzw} (h : e.Inv) {i : Nat} {x : Bytes} (hi : i < e.tlen)
    (hx : e.table.read i = some x) : 1 ≤ x.length ∧ x.length ≤ e.tlen - 257 := by
  have hlo := h.tlen_lo
  by_cases h1 : i < 256
  · rw [Memory.read_literal _ h1] at hx
    cases hx
    simp only [List.length_singleton]
    omega
  · by_cases h2 : i < 258
    · rw [Memory.read_reserved _ (by omega)] at hx
      cases hx
    · obtain ⟨y, hy, hy2, hyl⟩ := h.slots i (by omega) hi
      rw [hy] at hx
      cases hx
      omega

/-- Every slot below `tlen` but the two reserved ones is readable (R33(c)). -/
theorem Lzw.Inv.readable {e : Lzw} (h : e.Inv) {i : Nat} (hi : i < e.tlen) (h1 : i ≠ 256) (h2 : i ≠ 257) :
    ∃ b x, e.table.read i = some (b :: x) := by
  by_cases h3 : i < 256
  · exact ⟨_, [], Memory.read_literal _ h3⟩
  · obtain ⟨y, hy, hy2, -⟩ := h.slots i (by omega) hi
    cases y with
    | nil => simp at hy2
    | cons b x => exact ⟨b, x, hy⟩

/-- An append of one byte more than `prev`, with a chunk that fits, keeps the invariant (R31, R33). -/
theorem Lzw.Inv.appendEmit {s : State} (h : s.lzw.Inv) (hf : s.lzw.fsm = .running) {b : Byte} {chunk : Bytes}
    (hp : s.lzw.prev ≠ []) (hc1 : chunk ≠ [])
    (hc : chunk.length ≤ (if s.lzw.tlen < 4096 then s.lzw.tlen + 1 else s.lzw.tlen) - 257) :
    (appendEmit s (s.lzw.prev ++ [b]) chunk).lzw.Inv := by
  have hlo := h.tlen_lo
  have hhi := h.tlen_hi
  have hlen : 1 ≤ s.lzw.prev.length := List.length_pos_iff.mpr hp
  have hpl := h.prev_len
  have hwf := s.lzw.append_wf (s.lzw.prev ++ [b]) h.table_wf
  rcases s.lzw.append_cases (s.lzw.prev ++ [b]) with ⟨hlt, he⟩ | ⟨hge, he⟩
  · rw [if_pos hlt] at hc
    rw [he] at hwf
    simp only [Machine.appendEmit, he]
    exact
      { io := h.io.emit _, causes := h.causes
        tlen_lo := by show 258 ≤ s.lzw.tlen + 1; omega
        tlen_hi := by show s.lzw.tlen + 1 ≤ 4096; omega
        table_wf := hwf
        slots := by
          intro i h1 h2
          have h2 : i < s.lzw.tlen + 1 := h2
          show ∃ x, (s.lzw.table.write _ _).read i = some x ∧ _
          by_cases hi : i = s.lzw.tlen
          · subst hi
            rw [Memory.read_write_self _ _ h1 hlt]
            refine ⟨_, rfl, ?_, ?_⟩ <;> simp only [List.length_append, List.length_singleton] <;> omega
          · rw [Memory.read_write_of_ne _ _ (Ne.symm hi)]
            exact h.slots i h1 (by omega)
        prev_len := hc
        prev_nil := fun h0 => absurd h0 hc1
        awaiting := by simp [hf]
        bpos_lo := h.bpos_lo, bpos_hi := h.bpos_hi, cur_eq := h.cur_eq }
  · rw [if_neg (by omega)] at hc
    simp only [Machine.appendEmit, he]
    exact
      { io := h.io.emit _, causes := h.causes, tlen_lo := hlo, tlen_hi := hhi, table_wf := h.table_wf
        slots := h.slots, prev_len := hc, prev_nil := fun h0 => absurd h0 hc1, awaiting := by simp [hf]
        bpos_lo := h.bpos_lo, bpos_hi := h.bpos_hi, cur_eq := h.cur_eq }

/-- What a read of the engine's bit cursor does in a state that meets the invariant. -/
theorem Lzw.Inv.readBits {e : Lzw} (h : e.Inv) (n : Nat) (hn : 1 ≤ n) :
    (n ≤ e.unread.length → ∃ e', readBits n e = .value (bitsValue (e.unread.take n)) e' ∧ CursorMoved e e' ∧
      e'.resp = .value (BitVec.ofNat 32 (bitsValue (e.unread.take n))) ∧ e'.unread = e.unread.drop n) ∧
    (e.unread.length < n → e.io.eof = true → ∃ e', readBits n e = .endOfInput e' ∧ CursorMoved e e' ∧
      e'.resp = .endOfInput ∧ e'.bpos = 8 ∧ e'.io.ipos = e.io.inp.length ∧ e'.unread = []) ∧
    (e.unread.length < n → e.io.eof = false → readBits n e = .waits) :=
  readBits_spec e n hn h.bpos_hi h.io.ipos_le h.cur_eq

/-- Whatever a read answers, it is a cursor move. -/
theorem Lzw.Inv.readBits_moved {e : Lzw} (h : e.Inv) {n : Nat} (hn : 1 ≤ n) :
    (∀ e', Machine.readBits n e = .endOfInput e' → CursorMoved e e') ∧
      (∀ v e', Machine.readBits n e = .value v e' → CursorMoved e e') := by
  obtain ⟨h1, h2, h3⟩ := h.readBits n hn
  by_cases hl : n ≤ e.unread.length
  · obtain ⟨f, hf, hm, -⟩ := h1 hl
    constructor
    · intro e' he'; rw [hf] at he'; cases he'
    · intro v e' he'; rw [hf] at he'; cases he'; exact hm
  · cases he : e.io.eof
    · have := h3 (by omega) he
      constructor
      · intro e' he'; rw [this] at he'; cases he'
      · intro v e' he'; rw [this] at he'; cases he'
    · obtain ⟨f, hf, hm, -⟩ := h2 (by omega) he
      constructor
      · intro e' he'; rw [hf] at he'; cases he'; exact hm
      · intro v e' he'; rw [hf] at he'; cases he'

/-! ### The text engines -/

theorem A85.Inv.running_io {e : A85} (h : e.Inv) (hf : e.fsm = .running) : e.io.Inv false := by
  have := h.io
  rwa [hf, show (TextFsm.running == TextFsm.terminated) = false by decide] at this

theorem A85.Inv.raise {e : A85} (h : e.io.Inv false) (hcnt : e.cnt ≤ 5) (hacc : e.acc < 2 ^ 33) {c : Cause}
    (v : BitVec 12) (hc : c ∈ [Cause.endOfInput, .terminator, .invalidShorthand, .a85Overflow]) :
    ({ e with fsm := .terminated, io := e.io.raise c v } : A85).Inv :=
  { io := h.raise (by rintro rfl; simp at hc) v
    causes := List.mem_cons_of_mem _ hc, running := by simp, cnt_le := hcnt, acc_lt := hacc }

theorem Ahx.Inv.running_io {e : Ahx} (h : e.Inv) (hf : e.fsm = .running) : e.io.Inv false := by
  have := h.io
  rwa [hf, show (TextFsm.running == TextFsm.terminated) = false by decide] at this

theorem Ahx.Inv.raise {e : Ahx} (h : e.io.Inv false) (hs : e.mode = .stream → e.sep = false ∧ e.stray = false)
    {c : Cause} (v : BitVec 12) (hc : c ∈ [Cause.endOfInput, .terminator]) :
    ({ e with fsm := .terminated, io := e.io.raise c v } : Ahx).Inv :=
  { io := h.raise (by rintro rfl; simp at hc) v
    causes := List.mem_cons_of_mem _ hc, stream := hs, sep_pending := by simp }

/-- Padding a group (R95): `k` digits of value 84. -/
theorem padGroup_eq (k acc : Nat) : padGroup k acc = acc * 85 ^ k + (85 ^ k - 1) := by
  induction k generalizing acc with
  | zero => simp [padGroup]
  | succ k ih =>
    have h1 : 1 ≤ 85 ^ k := Nat.one_le_pow _ _ (by decide)
    rw [padGroup, ih, groupStep, pow_succ]
    zify [h1, show 1 ≤ 85 ^ k * 85 by omega]
    ring

/-- A padded group fits the accumulator (R38). -/
theorem padGroup_lt {n acc : Nat} (hn : n ≤ 4) (h : acc < 85 ^ n) : padGroup (5 - n) acc < 2 ^ 33 := by
  rw [padGroup_eq]
  interval_cases n <;> simp only [Nat.reduceSub, Nat.reducePow] at h ⊢ <;> omega

end Sys2Proof.Machine
end

