-- ==== Sys2Proof/Laws/Fetch.lean ====
section
/-!
SUPPORT. What a fetch does: the inversion of each engine's fetch, what it finds in terms of the unread bits, and that it
keeps the invariant.
-/

namespace Sys2Proof.Machine

variable {s t : State} {i : Instr}

theorem TextFsm.eq_running {f : TextFsm} (h : f ≠ .terminated) : f = .running := by
  cases f
  · rfl
  · exact absurd rfl h

theorem classifyRequest_some {n : BitVec 6} (h : classifyRequest n = some i) :
    1 ≤ n.toNat ∧ n.toNat ≤ 32 ∧ i = .brRead n := by
  unfold classifyRequest at h
  split at h
  · rename_i hn
    exact ⟨hn.1, hn.2, (Option.some.inj h).symm⟩
  · cases h

/-- A terminated LZW engine fetches nothing (R216). -/
theorem fetchLzw_running (h : fetchLzw s = .got i t) : s.lzw.fsm ≠ .terminated := by
  rintro hf
  rw [fetchLzw, if_pos hf] at h
  cases h

theorem fetchLzw_got (h : fetchLzw s = .got i t) :
    (∃ n, s.lzw.req = some n ∧ 1 ≤ n.toNat ∧ n.toNat ≤ 32 ∧ i = .brRead n ∧ readBits n.toNat s.lzw ≠ .waits ∧
        t = { s with lzw := { s.lzw with req := none } }) ∨
      (s.lzw.req = none ∧ s.lzw.fsm ≠ .terminated ∧
        ((∃ e, readBits (width s.lzw.tlen) s.lzw = .endOfInput e ∧ i = .lzwEoi ∧ t = { s with lzw := e }) ∨
          ∃ v e, readBits (width s.lzw.tlen) s.lzw = .value v e ∧ i = classifyCode s.context (BitVec.ofNat 12 v) ∧
            t = { s with lzw := e })) := by
  have hf := fetchLzw_running h
  rw [fetchLzw, if_neg hf] at h
  split at h
  · rename_i n hn
    unfold fetchRequest at h
    split at h
    · cases h
    · rename_i j hj
      obtain ⟨h1, h2, rfl⟩ := classifyRequest_some hj
      split at h
      · cases h
      · rename_i hr
        cases h
        exact .inl ⟨n, hn, h1, h2, rfl, hr, rfl⟩
  · rename_i hn
    refine .inr ⟨hn, hf, ?_⟩
    unfold fetchCode at h
    split at h <;> rename_i hr <;> cases h
    · exact .inl ⟨_, hr, rfl, rfl⟩
    · exact .inr ⟨_, _, hr, rfl, rfl⟩

theorem fetchA85_got (h : fetchA85 s = .got i t) :
    s.a85.fsm = .running ∧
      ((∃ c io, s.a85.io.inNext = some (c, io) ∧ i = classifyA85 s.a85.cnt c ∧ t = s.setIo .a85 io) ∨
        (s.a85.io.inNext = none ∧ s.a85.io.inExhausted = true ∧ i = .a85Eoi ∧ t = s)) := by
  unfold fetchA85 at h
  split at h
  · cases h
  · rename_i hf
    refine ⟨TextFsm.eq_running hf, ?_⟩
    split at h
    · rename_i c io hn
      cases h
      exact .inl ⟨c, io, hn, rfl, rfl⟩
    · rename_i hn
      split at h <;> cases h
      rename_i he
      exact .inr ⟨hn, he, rfl, rfl⟩

theorem fetchAhx_got (h : fetchAhx s = .got i t) :
    s.ahx.fsm = .running ∧
      ((∃ c io, s.ahx.io.inNext = some (c, io) ∧ i = classifyAhx c ∧ t = s.setIo .ahx io) ∨
        (s.ahx.io.inNext = none ∧ s.ahx.io.inExhausted = true ∧ i = .ahxEoi ∧ t = s)) := by
  unfold fetchAhx at h
  split at h
  · cases h
  · rename_i hf
    refine ⟨TextFsm.eq_running hf, ?_⟩
    split at h
    · rename_i c io hn
      cases h
      exact .inl ⟨c, io, hn, rfl, rfl⟩
    · rename_i hn
      split at h <;> cases h
      rename_i he
      exact .inr ⟨hn, he, rfl, rfl⟩

/-- The code fetch in terms of the unread bits (R140, R22). -/
theorem fetchCode_spec (h : s.Inv) :
    (width s.lzw.tlen ≤ s.lzw.unread.length → ∃ e,
      fetchCode s = .got (classifyCode s.context (BitVec.ofNat 12 (bitsValue (s.lzw.unread.take (width s.lzw.tlen)))))
        { s with lzw := e } ∧ CursorMoved s.lzw e ∧ e.unread = s.lzw.unread.drop (width s.lzw.tlen)) ∧
    (s.lzw.unread.length < width s.lzw.tlen → s.lzw.io.eof = true → ∃ e,
      fetchCode s = .got .lzwEoi { s with lzw := e } ∧ CursorMoved s.lzw e ∧ e.resp = .endOfInput ∧ e.unread = []) ∧
    (s.lzw.unread.length < width s.lzw.tlen → s.lzw.io.eof = false → fetchCode s = .waits) := by
  have hw : 1 ≤ width s.lzw.tlen := by have := (width_range s.lzw.tlen).1; omega
  obtain ⟨h1, h2, h3⟩ := h.lzw.readBits _ hw
  refine ⟨fun hl => ?_, fun hl he => ?_, fun hl he => ?_⟩
  · obtain ⟨e, hr, hm, -, hu⟩ := h1 hl
    exact ⟨e, by simp only [fetchCode, hr], hm, hu⟩
  · obtain ⟨e, hr, hm, hresp, -, -, hu⟩ := h2 hl he
    exact ⟨e, by simp only [fetchCode, hr], hm, hresp, hu⟩
  · simp only [fetchCode, h3 hl he]

/-- A fetch keeps the invariant. -/
theorem fetch_inv {e : Engine} (h : s.Inv) (hg : fetch e s = .got i t) : t.Inv := by
  cases e with
  | lzw =>
    rcases fetchLzw_got hg with ⟨n, -, -, -, -, -, rfl⟩ | ⟨-, -, ⟨f, hr, -, rfl⟩ | ⟨v, f, hr, -, rfl⟩⟩
    · exact ⟨{ io := h.lzw.io, causes := h.lzw.causes, tlen_lo := h.lzw.tlen_lo, tlen_hi := h.lzw.tlen_hi
               table_wf := h.lzw.table_wf, slots := h.lzw.slots, prev_len := h.lzw.prev_len, prev_nil := h.lzw.prev_nil
               awaiting := h.lzw.awaiting, bpos_lo := h.lzw.bpos_lo, bpos_hi := h.lzw.bpos_hi
               cur_eq := h.lzw.cur_eq }, h.a85, h.ahx⟩
    all_goals
      have hw : 1 ≤ width s.lzw.tlen := by have := (width_range s.lzw.tlen).1; omega
    · exact ⟨h.lzw.cursorMoved ((h.lzw.readBits_moved hw).1 _ hr), h.a85, h.ahx⟩
    · exact ⟨h.lzw.cursorMoved ((h.lzw.readBits_moved hw).2 _ _ hr), h.a85, h.ahx⟩
  | a85 =>
    rcases fetchA85_got hg with ⟨-, ⟨c, io, hn, -, rfl⟩ | ⟨-, -, -, rfl⟩⟩
    · exact ⟨h.lzw, { io := h.a85.io.inNext hn, causes := by
                        obtain ⟨-, rfl⟩ := Stream.inNext_some hn
                        exact h.a85.causes
                      running := h.a85.running, cnt_le := h.a85.cnt_le, acc_lt := h.a85.acc_lt }, h.ahx⟩
    · exact h
  | ahx =>
    rcases fetchAhx_got hg with ⟨-, ⟨c, io, hn, -, rfl⟩ | ⟨-, -, -, rfl⟩⟩
    · exact ⟨h.lzw, h.a85, { io := h.ahx.io.inNext hn, causes := by
                               obtain ⟨-, rfl⟩ := Stream.inNext_some hn
                               exact h.ahx.causes
                             stream := h.ahx.stream, sep_pending := h.ahx.sep_pending }⟩
    · exact h

/-- An engine that holds for the consumer stays as it is (R22, U18). -/
theorem engineStep_full {e : Engine} (h : s.outFull e = true) : engineStep e s = .next s := if_pos h

/-- With room in its output staging an engine does what the fetch finds. -/
theorem engineStep_room {e : Engine} (h : s.outFull e = false) :
    engineStep e s =
      match fetch e s with
      | .halted => .next s
      | .waits => .next s
      | .rejected n => .refused (.requestOutOfContract n)
      | .got i t => exec i t :=
  if_neg (by simp [h])

/-- An engine's step, opened once: nothing happens, or the fetched instruction runs. -/
theorem engineStep_next {e : Engine} {u : State} (h : engineStep e s = .next u) :
    ((s.outFull e = true ∨ fetch e s = .halted ∨ fetch e s = .waits) ∧ u = s) ∨
      s.outFull e = false ∧ ∃ i t, fetch e s = .got i t ∧ exec i t = .next u := by
  cases ho : s.outFull e with
  | true =>
    rw [engineStep_full ho] at h
    cases h
    exact .inl ⟨.inl rfl, rfl⟩
  | false =>
    rw [engineStep_room ho] at h
    split at h
    · rename_i hf
      cases h
      exact .inl ⟨.inr (.inl hf), rfl⟩
    · rename_i hf
      cases h
      exact .inl ⟨.inr (.inr hf), rfl⟩
    · cases h
    · rename_i i t hf
      exact .inr ⟨rfl, i, t, hf, h⟩

/-- A drained engine has room. -/
@[simp] theorem State.outFull_drained (s : State) (e : Engine) : (s.drained e).outFull e = false := by
  simp [State.outFull, State.outValid, State.drained]

/-- A step of the block, opened once: a step of the active engine or the oldest host action. -/
theorem step_eq (s : State) :
    (s.host = [] ∧ step s = engineStep s.active s) ∨
      ∃ a rest, s.host = a :: rest ∧ step s = hostStep a { s with host := rest } := by
  unfold step
  split
  · rename_i h
    exact .inl ⟨h, rfl⟩
  · rename_i a rest h
    exact .inr ⟨a, rest, h, rfl⟩

end Sys2Proof.Machine
end

