-- ==== Sys2Proof/Laws/Frame.lean ====
section
/-!
SUPPORT. Frames: which engine a meaning, a fetch and a step touch, what a fetch moves, and the small facts about streams,
bit positions and group values that proofs about whole steps need.
-/

namespace Sys2Proof

/-- The engine a unit belongs to: the BitReader is the LZW engine's own (R20). -/
def SymbolUnit.engine : SymbolUnit → Engine
  | .bitReader => .lzw
  | .lzw => .lzw
  | .a85 => .a85
  | .ahx => .ahx

namespace Machine

/-- No byte is left unread. -/
theorem Stream.inNext_nil {io : Stream} (h : io.inp.drop io.ipos = []) :
    io.inNext = none ∧ io.inp.length ≤ io.ipos := by
  have := List.drop_eq_nil_iff.mp h
  refine ⟨?_, this⟩
  simp [Stream.inNext, List.getElem?_eq_none this]

/-- The first unread byte is the next one. -/
theorem Stream.inNext_cons {io : Stream} {c : Byte} {r : Bytes} (h : io.inp.drop io.ipos = c :: r) :
    io.inNext = some (c, { io with ipos := io.ipos + 1 }) ∧ io.inp.drop (io.ipos + 1) = r := by
  have hg : io.inp[io.ipos]? = some c := by
    have := congrArg (·[0]?) h
    simpa [List.getElem?_drop] using this
  refine ⟨by simp [Stream.inNext, hg], ?_⟩
  have := congrArg (List.drop 1) h
  simpa [List.drop_drop] using this

/-- The first eight bits of a byte stream are its first byte. -/
theorem streamBits_firstByte (c : Byte) (r : Bytes) :
    (BitVec.ofNat 8 (bitsValue ((streamBits (c :: r)).take 8)) : Byte) = c ∧ (streamBits (c :: r)).drop 8 = streamBits r := by
  rw [streamBits_cons, List.take_append_of_le_length (by simp), List.drop_append_of_le_length (by simp)]
  refine ⟨?_, ?_⟩
  · rw [List.take_of_length_le (by simp), bitsValue_byteBits]; simp
  · rw [List.drop_of_length_le (by simp)]; rfl

/-- Without a direct request a running LZW engine fetches a code. -/
theorem fetchLzw_noreq {s : State} (h : s.lzw.req = none) (hf : s.lzw.fsm ≠ .terminated) :
    fetch .lzw s = fetchCode s := by
  simp only [fetch, fetchLzw, h]
  rw [if_neg hf]

/-- A fetch that serves no direct request moves cursors of its own engine and nothing else. -/
theorem fetch_cursor {s t : State} {i : Instr} {e : Engine} (h : s.Inv) (hr : e = .lzw → s.lzw.req = none)
    (hg : fetch e s = .got i t) : SameElsewhere e s t ∧ OnlyCursors s t := by
  cases e with
  | lzw =>
    rcases fetchLzw_got hg with ⟨n, hn, -⟩ | ⟨-, -, ⟨f, hf, -, rfl⟩ | ⟨v, f, hf, -, rfl⟩⟩
    · rw [hr rfl] at hn; cases hn
    all_goals
      have hw : 1 ≤ width s.lzw.tlen := by have := (width_range s.lzw.tlen).1; omega
      refine ⟨by simp [SameElsewhere], ?_⟩
      unfold OnlyCursors
    · have := ((h.lzw.readBits_moved hw).1 _ hf).same
      simp only [← this]
    · have := ((h.lzw.readBits_moved hw).2 _ _ hf).same
      simp only [← this]
  | a85 =>
    rcases fetchA85_got hg with ⟨-, ⟨c, io, hn, -, rfl⟩ | ⟨-, -, -, rfl⟩⟩
    · obtain ⟨-, rfl⟩ := Stream.inNext_some hn
      exact ⟨by simp [SameElsewhere], rfl⟩
    · exact ⟨by simp [SameElsewhere], rfl⟩
  | ahx =>
    rcases fetchAhx_got hg with ⟨-, ⟨c, io, hn, -, rfl⟩ | ⟨-, -, -, rfl⟩⟩
    · obtain ⟨-, rfl⟩ := Stream.inNext_some hn
      exact ⟨by simp [SameElsewhere], rfl⟩
    · exact ⟨by simp [SameElsewhere], rfl⟩

/-- Two steps of one engine leave the others alone. -/
theorem SameElsewhere.trans {e : Engine} {s t u : State} (h : SameElsewhere e s t) (h' : SameElsewhere e t u) :
    SameElsewhere e s u := by
  obtain ⟨a1, a2, a3, a4, a5⟩ := h
  obtain ⟨b1, b2, b3, b4, b5⟩ := h'
  exact ⟨fun h => (b1 h).trans (a1 h), fun h => (b2 h).trans (a2 h), fun h => (b3 h).trans (a3 h), b4.trans a4, b5.trans a5⟩

/-- The streams and the state register of another engine stay. -/
theorem SameElsewhere.io {e f : Engine} {s t : State} (h : SameElsewhere e s t) (hne : f ≠ e) :
    t.io f = s.io f ∧ t.terminated f = s.terminated f := by
  obtain ⟨a1, a2, a3, a4, a5⟩ := h
  cases f
  · have := a1 (Ne.symm hne); simp [this]
  · have := a2 (Ne.symm hne); simp [this]
  · have := a3 (Ne.symm hne); simp [this]

/-- Every class of a code is an LZW class. -/
theorem classifyCode_unit (k c) : (classifyCode k c).unit = .lzw := by
  unfold classifyCode; repeat' split
  all_goals rfl

/-- Every class of an ASCII85 byte is an ASCII85 class. -/
theorem classifyA85_unit (k c) : (classifyA85 k c).unit = .a85 := by
  unfold classifyA85; repeat' split
  all_goals rfl

/-- Every class of an ASCIIHex byte is an ASCIIHex class. -/
theorem classifyAhx_unit (c) : (classifyAhx c).unit = .ahx := by
  unfold classifyAhx; repeat' split
  all_goals rfl

/-- A meaning touches the engine whose symbol it is, and no other (R20). -/
theorem exec_elsewhere {s t : State} {i : Instr} (he : exec i s = .next t) :
    SameElsewhere i.unit.engine s t := by
  cases i with
  | brRead n =>
    obtain ⟨h1, h2, ⟨-, rfl⟩ | ⟨e, hr, rfl⟩ | ⟨v, e, hr, rfl⟩⟩ := execBrRead_next he <;>
      simp [SameElsewhere, Instr.unit, SymbolUnit.engine]
  | lzwEoi => obtain ⟨-, -, rfl⟩ := execLzwEoi_next he; simp [SameElsewhere, Instr.unit, SymbolUnit.engine]
  | lzwClear => obtain ⟨hf, rfl⟩ := execLzwClear_next he; simp [SameElsewhere, Instr.unit, SymbolUnit.engine]
  | lzwEod => obtain ⟨-, rfl⟩ := execLzwEod_next he; simp [SameElsewhere, Instr.unit, SymbolUnit.engine]
  | lzwNoclear code =>
    obtain ⟨-, -, rfl⟩ := execLzwNoclear_next he
    simp [SameElsewhere, Instr.unit, SymbolUnit.engine]
  | lzwFirst code =>
    obtain ⟨hf, -, h255, rfl⟩ := execLzwFirst_next he
    simp [SameElsewhere, Instr.unit, SymbolUnit.engine]
  | lzwBadfirst code =>
    obtain ⟨-, -, -, rfl⟩ := execLzwBadfirst_next he
    simp [SameElsewhere, Instr.unit, SymbolUnit.engine]
  | lzwRef code =>
    obtain ⟨hf, hp, hlt, hd, b, x, hr, rfl⟩ := execLzwRef_next he
    simp [SameElsewhere, Instr.unit, SymbolUnit.engine, appendEmit]
  | lzwKwkwk code =>
    obtain ⟨hf, hc, hd, b, x, hp, rfl⟩ := execLzwKwkwk_next he
    simp [SameElsewhere, Instr.unit, SymbolUnit.engine, appendEmit]
  | lzwCorrupt code =>
    obtain ⟨-, -, -, -, rfl⟩ := execLzwCorrupt_next he
    simp [SameElsewhere, Instr.unit, SymbolUnit.engine]
  | a85Eoi => obtain ⟨-, -, rfl⟩ := execA85Eoi_next he; simp [SameElsewhere, Instr.unit, SymbolUnit.engine]
  | a85Digit c =>
    obtain ⟨-, -, ⟨-, rfl⟩ | ⟨-, -, rfl⟩ | ⟨-, -, rfl⟩⟩ := execA85Digit_next he <;>
      simp [SameElsewhere, Instr.unit, SymbolUnit.engine]
  | a85Z => obtain ⟨-, -, rfl⟩ := execA85Z_next he; simp [SameElsewhere, Instr.unit, SymbolUnit.engine]
  | a85Zbad => obtain ⟨-, -, rfl⟩ := execA85Zbad_next he; simp [SameElsewhere, Instr.unit, SymbolUnit.engine]
  | a85End =>
    obtain ⟨-, ⟨-, rfl⟩ | ⟨-, -, rfl⟩ | ⟨-, -, rfl⟩⟩ := execA85End_next he <;>
      simp [SameElsewhere, Instr.unit, SymbolUnit.engine]
  | a85Skip c =>
    obtain ⟨-, -, -, -, rfl⟩ := execA85Skip_next he
    simp [SameElsewhere, Instr.unit, SymbolUnit.engine]
  | ahxEoi =>
    obtain ⟨-, -, rfl⟩ := execAhxEoi_next he
    rw [ahxFlush_eq]
    simp [SameElsewhere, Instr.unit, SymbolUnit.engine]
  | ahxDigit c =>
    obtain ⟨-, v, -, ⟨-, -, rfl⟩ | ⟨-, -, -, rfl⟩ | ⟨-, rfl⟩⟩ := execAhxDigit_next he <;>
      simp [SameElsewhere, Instr.unit, SymbolUnit.engine]
  | ahxEnd =>
    obtain ⟨-, rfl⟩ := execAhxEnd_next he
    rw [ahxFlush_eq]
    simp [SameElsewhere, Instr.unit, SymbolUnit.engine]
  | ahxSkip c =>
    obtain ⟨-, -, -, ⟨-, -, rfl⟩ | ⟨-, rfl⟩⟩ := execAhxSkip_next he <;>
      simp [SameElsewhere, Instr.unit, SymbolUnit.engine]

/-- What no read touches (R120). -/
theorem readBits_hostSide {s : State} {n : Nat} {g : Lzw}
    (h : readBits n s.lzw = .endOfInput g ∨ ∃ v, readBits n s.lzw = .value v g) :
    (∀ f, (({ s with lzw := g } : State).io f).inp = (s.io f).inp ∧ (({ s with lzw := g } : State).io f).eof = (s.io f).eof ∧
        (({ s with lzw := g } : State).io f).taken = (s.io f).taken) ∧ g.req = s.lzw.req ∧ g.fsm = s.lzw.fsm := by
  rw [readBits_frame h]
  exact ⟨fun f => by cases f <;> exact ⟨rfl, rfl, rfl⟩, rfl, rfl⟩

/-- What no meaning touches: the bytes supplied, `in_eof`, the count of bytes taken, the BitReader's request line; and no
meaning leads back to `AwaitingClear`. -/
theorem exec_hostSide {s t : State} {i : Instr} (he : exec i s = .next t) :
    (∀ e, (t.io e).inp = (s.io e).inp ∧ (t.io e).eof = (s.io e).eof ∧ (t.io e).taken = (s.io e).taken) ∧
      t.lzw.req = s.lzw.req ∧ (t.lzw.fsm = .awaitingClear → s.lzw.fsm = .awaitingClear) := by
  cases i with
  | brRead n =>
    obtain ⟨-, -, ⟨-, rfl⟩ | ⟨e, hr, rfl⟩ | ⟨v, e, hr, rfl⟩⟩ := execBrRead_next he
    · exact ⟨fun _ => ⟨rfl, rfl, rfl⟩, rfl, id⟩
    · obtain ⟨h1, h2, h3⟩ := readBits_hostSide (.inl hr)
      exact ⟨h1, h2, fun h => h3.symm.trans h⟩
    · obtain ⟨h1, h2, h3⟩ := readBits_hostSide (.inr ⟨v, hr⟩)
      exact ⟨h1, h2, fun h => h3.symm.trans h⟩
  | lzwEoi =>
    obtain ⟨-, -, rfl⟩ := execLzwEoi_next he
    exact ⟨fun f => by cases f <;> exact ⟨rfl, rfl, rfl⟩, rfl, fun h => by cases h⟩
  | lzwClear =>
    obtain ⟨-, rfl⟩ := execLzwClear_next he
    exact ⟨fun f => by cases f <;> exact ⟨rfl, rfl, rfl⟩, rfl, fun h => by cases h⟩
  | lzwEod =>
    obtain ⟨-, rfl⟩ := execLzwEod_next he
    exact ⟨fun f => by cases f <;> exact ⟨rfl, rfl, rfl⟩, rfl, fun h => by cases h⟩
  | lzwNoclear code =>
    obtain ⟨-, -, rfl⟩ := execLzwNoclear_next he
    exact ⟨fun f => by cases f <;> exact ⟨rfl, rfl, rfl⟩, rfl, fun h => by cases h⟩
  | lzwFirst code =>
    obtain ⟨-, -, -, rfl⟩ := execLzwFirst_next he
    exact ⟨fun f => by cases f <;> exact ⟨rfl, rfl, rfl⟩, rfl, id⟩
  | lzwBadfirst code =>
    obtain ⟨-, -, -, rfl⟩ := execLzwBadfirst_next he
    exact ⟨fun f => by cases f <;> exact ⟨rfl, rfl, rfl⟩, rfl, fun h => by cases h⟩
  | lzwRef code =>
    obtain ⟨hf, -, -, -, b, x, -, rfl⟩ := execLzwRef_next he
    exact ⟨fun f => by cases f <;> exact ⟨rfl, rfl, rfl⟩, Lzw.append_req _ _, fun h => (Lzw.append_fsm s.lzw _).symm.trans h⟩
  | lzwKwkwk code =>
    obtain ⟨hf, -, -, b, x, -, rfl⟩ := execLzwKwkwk_next he
    exact ⟨fun f => by cases f <;> exact ⟨rfl, rfl, rfl⟩, Lzw.append_req _ _, fun h => (Lzw.append_fsm s.lzw _).symm.trans h⟩
  | lzwCorrupt code =>
    obtain ⟨-, -, -, -, rfl⟩ := execLzwCorrupt_next he
    exact ⟨fun f => by cases f <;> exact ⟨rfl, rfl, rfl⟩, rfl, fun h => by cases h⟩
  | a85Eoi =>
    obtain ⟨-, -, rfl⟩ := execA85Eoi_next he
    exact ⟨fun f => by cases f <;> exact ⟨rfl, rfl, rfl⟩, rfl, id⟩
  | a85Digit c =>
    obtain ⟨-, -, ⟨-, rfl⟩ | ⟨-, -, rfl⟩ | ⟨-, -, rfl⟩⟩ := execA85Digit_next he <;>
      exact ⟨fun f => by cases f <;> exact ⟨rfl, rfl, rfl⟩, rfl, id⟩
  | a85Z =>
    obtain ⟨-, -, rfl⟩ := execA85Z_next he
    exact ⟨fun f => by cases f <;> exact ⟨rfl, rfl, rfl⟩, rfl, id⟩
  | a85Zbad =>
    obtain ⟨-, -, rfl⟩ := execA85Zbad_next he
    exact ⟨fun f => by cases f <;> exact ⟨rfl, rfl, rfl⟩, rfl, id⟩
  | a85End =>
    obtain ⟨-, ⟨-, rfl⟩ | ⟨-, -, rfl⟩ | ⟨-, -, rfl⟩⟩ := execA85End_next he <;>
      exact ⟨fun f => by cases f <;> exact ⟨rfl, rfl, rfl⟩, rfl, id⟩
  | a85Skip c =>
    obtain ⟨-, -, -, -, rfl⟩ := execA85Skip_next he
    exact ⟨fun f => by cases f <;> exact ⟨rfl, rfl, rfl⟩, rfl, id⟩
  | ahxEoi =>
    obtain ⟨-, -, rfl⟩ := execAhxEoi_next he
    rw [ahxFlush_eq]
    exact ⟨fun f => by cases f <;> exact ⟨rfl, rfl, rfl⟩, rfl, id⟩
  | ahxDigit c =>
    obtain ⟨-, v, -, ⟨-, -, rfl⟩ | ⟨-, -, -, rfl⟩ | ⟨-, rfl⟩⟩ := execAhxDigit_next he <;>
      exact ⟨fun f => by cases f <;> exact ⟨rfl, rfl, rfl⟩, rfl, id⟩
  | ahxEnd =>
    obtain ⟨-, rfl⟩ := execAhxEnd_next he
    rw [ahxFlush_eq]
    exact ⟨fun f => by cases f <;> exact ⟨rfl, rfl, rfl⟩, rfl, id⟩
  | ahxSkip c =>
    obtain ⟨-, -, -, ⟨-, -, rfl⟩ | ⟨-, rfl⟩⟩ := execAhxSkip_next he <;>
      exact ⟨fun f => by cases f <;> exact ⟨rfl, rfl, rfl⟩, rfl, id⟩

/-- A fetch of an engine finds a class of that engine and touches no other engine. -/
theorem fetch_unit {e : Engine} {s t : State} {i : Instr} (hg : fetch e s = .got i t) :
   i.unit.engine = e ∧ SameElsewhere e s t := by
  cases e with
  | lzw =>
    rcases fetchLzw_got hg with ⟨n, -, h1, h2, rfl, -, rfl⟩ | ⟨-, hf, ⟨f, hr, rfl, rfl⟩ | ⟨v, f, hr, rfl, rfl⟩⟩
    · exact ⟨rfl, by simp [SameElsewhere]⟩
    · exact ⟨rfl, by simp [SameElsewhere]⟩
    · rw [classifyCode_unit]; exact ⟨rfl, by simp [SameElsewhere]⟩
  | a85 =>
    rcases fetchA85_got hg with ⟨hf, ⟨c, io, hn, rfl, rfl⟩ | ⟨-, he, rfl, rfl⟩⟩
    · rw [classifyA85_unit]; exact ⟨rfl, by simp [SameElsewhere]⟩
    · exact ⟨rfl, by simp [SameElsewhere]⟩
  | ahx =>
    rcases fetchAhx_got hg with ⟨hf, ⟨c, io, hn, rfl, rfl⟩ | ⟨-, he, rfl, rfl⟩⟩
    · rw [classifyAhx_unit]; exact ⟨rfl, by simp [SameElsewhere]⟩
    · exact ⟨rfl, by simp [SameElsewhere]⟩

/-- What no fetch touches: the bytes supplied, `in_eof`, the count of bytes taken and `fsm`; a request it can only take. -/
theorem fetch_hostSide {e : Engine} {s t : State} {i : Instr} (hg : fetch e s = .got i t) :
    (∀ f, (t.io f).inp = (s.io f).inp ∧ (t.io f).eof = (s.io f).eof ∧ (t.io f).taken = (s.io f).taken) ∧
      (s.lzw.req = none → t.lzw.req = none) ∧ t.lzw.fsm = s.lzw.fsm := by
  cases e with
  | lzw =>
    rcases fetchLzw_got hg with ⟨n, -, -, -, -, -, rfl⟩ | ⟨-, -, ⟨g, hr, -, rfl⟩ | ⟨v, g, hr, -, rfl⟩⟩
    · exact ⟨fun f => by cases f <;> exact ⟨rfl, rfl, rfl⟩, fun _ => rfl, rfl⟩
    · obtain ⟨h1, h2, h3⟩ := readBits_hostSide (.inl hr)
      exact ⟨h1, fun h => h2.trans h, h3⟩
    · obtain ⟨h1, h2, h3⟩ := readBits_hostSide (.inr ⟨v, hr⟩)
      exact ⟨h1, fun h => h2.trans h, h3⟩
  | a85 =>
    rcases fetchA85_got hg with ⟨-, ⟨c, io, hn, -, rfl⟩ | ⟨-, -, -, rfl⟩⟩
    · obtain ⟨-, rfl⟩ := Stream.inNext_some hn
      exact ⟨fun f => by cases f <;> exact ⟨rfl, rfl, rfl⟩, id, rfl⟩
    · exact ⟨fun f => ⟨rfl, rfl, rfl⟩, id, rfl⟩
  | ahx =>
    rcases fetchAhx_got hg with ⟨-, ⟨c, io, hn, -, rfl⟩ | ⟨-, -, -, rfl⟩⟩
    · obtain ⟨-, rfl⟩ := Stream.inNext_some hn
      exact ⟨fun f => by cases f <;> exact ⟨rfl, rfl, rfl⟩, id, rfl⟩
    · exact ⟨fun f => ⟨rfl, rfl, rfl⟩, id, rfl⟩

/-- What no step of an engine touches (R22, R23, R150). -/
theorem engineStep_hostSide {s t : State} {e : Engine} (he : engineStep e s = .next t) :
    (∀ f, (t.io f).inp = (s.io f).inp ∧ (t.io f).eof = (s.io f).eof ∧ (t.io f).taken = (s.io f).taken) ∧
      (s.lzw.req = none → t.lzw.req = none) ∧ (t.lzw.fsm = .awaitingClear → s.lzw.fsm = .awaitingClear) := by
  rcases engineStep_next he with ⟨-, rfl⟩ | ⟨-, i, u, hg, hx⟩
  · exact ⟨fun _ => ⟨rfl, rfl, rfl⟩, id, id⟩
  · obtain ⟨a1, a2, a3⟩ := fetch_hostSide hg
    obtain ⟨b1, b2, b3⟩ := exec_hostSide hx
    exact ⟨fun f => ⟨(b1 f).1.trans (a1 f).1, (b1 f).2.1.trans (a1 f).2.1, (b1 f).2.2.trans (a1 f).2.2⟩,
      fun h => b2.trans (a2 h), fun h => a3 ▸ b3 h⟩

/-- A step of an engine leaves the others alone (R20). -/
theorem engineStep_elsewhere {s t : State} {e : Engine} (he : engineStep e s = .next t) : SameElsewhere e s t := by
  rcases engineStep_next he with ⟨-, rfl⟩ | ⟨-, i, u, hg, hx⟩
  · simp [SameElsewhere]
  · obtain ⟨hu, hs⟩ := fetch_unit hg
    have := exec_elsewhere hx
    rw [hu] at this
    exact SameElsewhere.trans hs this

/-- The bits consumed and the bits unread are all the bits. -/
theorem Lzw.Inv.bitPos_add {e : Lzw} (h : e.Inv) : e.bitPos + e.unread.length = 8 * e.io.inp.length := by
  have h1 := h.io.ipos_le
  have h2 := h.bpos_hi
  have h3 := h.cur_eq
  simp only [Lzw.bitPos, Lzw.unread, List.length_append, List.length_drop, byteBits_length, streamBits_length]
  by_cases h8 : e.bpos < 8
  · have := (h3 h8).1; omega
  · omega

/-- A read moves the bit cursor forward only. -/
theorem Lzw.Inv.readBits_bitPos {e e' : Lzw} (h : e.Inv) {n : Nat} (hn : 1 ≤ n)
    (hr : Machine.readBits n e = .endOfInput e' ∨ ∃ v, Machine.readBits n e = .value v e') : e.bitPos ≤ e'.bitPos := by
  obtain ⟨h1, h2, h3⟩ := h.readBits n hn
  have e0 := h.bitPos_add
  by_cases hl : n ≤ e.unread.length
  · obtain ⟨f, hf, hm, -, hu⟩ := h1 hl
    rw [hf] at hr
    obtain hr | ⟨v, hr⟩ := hr <;> cases hr
    have e1 := (h.cursorMoved hm).bitPos_add
    have hi : e'.io.inp = e.io.inp := by rw [hm.same]
    rw [hu, hi, List.length_drop] at e1
    omega
  · cases he : e.io.eof
    · rw [h3 (by omega) he] at hr
      obtain hr | ⟨v, hr⟩ := hr <;> cases hr
    · obtain ⟨f, hf, hm, -, -, -, hu⟩ := h2 (by omega) he
      rw [hf] at hr
      obtain hr | ⟨v, hr⟩ := hr <;> cases hr
      have e1 := (h.cursorMoved hm).bitPos_add
      have hi : e'.io.inp = e.io.inp := by rw [hm.same]
      rw [hu, hi] at e1
      simp only [List.length_nil] at e1
      omega

/-- A value of at most 32 bits fits the response. -/
theorem takeBits_fit (bits : List Bool) (n : Nat) (hn : n ≤ 32) (h : n ≤ bits.length) :
    (BitVec.ofNat 32 (bitsValue (bits.take n))).toNat = bitsValue (bits.take n) ∧ bitsValue (bits.take n) < 2 ^ n := by
  have h1 := bitsValue_lt (bits.take n)
  rw [List.length_take, Nat.min_eq_left h] at h1
  have : 2 ^ n ≤ 2 ^ 32 := Nat.pow_le_pow_right (by decide) hn
  refine ⟨?_, h1⟩
  simp only [BitVec.toNat_ofNat]
  exact Nat.mod_eq_of_lt (by omega)

/-- A moved bit cursor is a change of cursors alone. -/
theorem CursorMoved.onlyCursors {s : State} {e : Lzw} (h : CursorMoved s.lzw e) :
    SameElsewhere .lzw s { s with lzw := e } ∧ OnlyCursors s { s with lzw := e } := by
  refine ⟨by simp [SameElsewhere], ?_⟩
  unfold OnlyCursors
  have := h.same
  simp only [← this]

/-- `BE32` by division (R11). -/
theorem be32_eq (v : Nat) :
    be32 v = [BitVec.ofNat 8 (v / 2 ^ 24), BitVec.ofNat 8 (v / 2 ^ 16), BitVec.ofNat 8 (v / 2 ^ 8), BitVec.ofNat 8 v] := by
  simp only [be32, Nat.shiftRight_eq_div_pow]

/-- The overflow test as a comparison (R95). -/
theorem groupOverflows_iff (v : Nat) : groupOverflows v = true ↔ 2 ^ 32 ≤ v := by simp [groupOverflows]

end Machine
end Sys2Proof
end

