-- ==== Sys2Proof/Laws/PerInstr.lean ====
section
/-!
SUPPORT. Statements made instruction by instruction. `EncodeLength`: how many bits a symbol of each class takes.
-/

namespace Sys2Proof.Laws.EncodeLength

/-- The bits of a class's symbol, by its unit: the 6 of a request, the code width of the table length, the 8 of a byte,
none for an `EOI` class (spec/30_encoding.md R90, R92). -/
def symbolLength (k : Context) (i : Instr) : Nat :=
  if i.isEoi then 0
  else
    match i.unit with
    | .bitReader => 6
    | .lzw => width k.tlen
    | .a85 | .ahx => 8

/-- The encoder writes as many bits as the symbol has, in every context. -/
def Statement (i : Instr) : Prop := ∀ k : Context, (encode k i).length = symbolLength k i

theorem brRead (n : BitVec 6) : Statement (.brRead n) := fun _ => valueBits_length _ _
theorem lzwEoi : Statement .lzwEoi := fun _ => rfl
theorem lzwClear : Statement .lzwClear := fun _ => valueBits_length _ _
theorem lzwEod : Statement .lzwEod := fun _ => valueBits_length _ _
theorem lzwNoclear (code : Code) : Statement (.lzwNoclear code) := fun _ => valueBits_length _ _
theorem lzwFirst (code : Code) : Statement (.lzwFirst code) := fun _ => valueBits_length _ _
theorem lzwBadfirst (code : Code) : Statement (.lzwBadfirst code) := fun _ => valueBits_length _ _
theorem lzwRef (code : Code) : Statement (.lzwRef code) := fun _ => valueBits_length _ _
theorem lzwKwkwk (code : Code) : Statement (.lzwKwkwk code) := fun _ => valueBits_length _ _
theorem lzwCorrupt (code : Code) : Statement (.lzwCorrupt code) := fun _ => valueBits_length _ _
theorem a85Eoi : Statement .a85Eoi := fun _ => rfl
theorem a85Digit (c : Byte) : Statement (.a85Digit c) := fun _ => byteBits_length _
theorem a85Z : Statement .a85Z := fun _ => byteBits_length _
theorem a85Zbad : Statement .a85Zbad := fun _ => byteBits_length _
theorem a85End : Statement .a85End := fun _ => byteBits_length _
theorem a85Skip (c : Byte) : Statement (.a85Skip c) := fun _ => byteBits_length _
theorem ahxEoi : Statement .ahxEoi := fun _ => rfl
theorem ahxDigit (c : Byte) : Statement (.ahxDigit c) := fun _ => byteBits_length _
theorem ahxEnd : Statement .ahxEnd := fun _ => byteBits_length _
theorem ahxSkip (c : Byte) : Statement (.ahxSkip c) := fun _ => byteBits_length _

end Sys2Proof.Laws.EncodeLength
end

