-- ==== Sys2Proof/Tests/Slice0.lean ====
section
/-!
SUPPORT. Tests of the model. Expected results come from the spec: its opcode table, the bit layouts of
spec/30_encoding.md, the vectors and traces of spec/95_test_vectors.md (named by their ids), or hand calculation from a
rule. The last part gives, for every statement with hypotheses, concrete values that meet all of them.
-/

namespace Sys2Proof.Tests

open Sys2Proof.Machine

/-! ### WellFormed: each range of the table refuses what lies outside -/

theorem test_wf_brRead : (Instr.brRead 0).wellFormed = false ∧ (Instr.brRead 33).wellFormed = false ∧
    (Instr.brRead 1).wellFormed = true ∧ (Instr.brRead 32).wellFormed = true := by decide
theorem test_wf_noclear : (Instr.lzwNoclear 256).wellFormed = false ∧ (Instr.lzwNoclear 257).wellFormed = false ∧
    (Instr.lzwNoclear 255).wellFormed = true ∧ (Instr.lzwNoclear 258).wellFormed = true := by decide
theorem test_wf_first : (Instr.lzwFirst 256).wellFormed = false ∧ (Instr.lzwFirst 255).wellFormed = true := by decide
theorem test_wf_badfirst : (Instr.lzwBadfirst 257).wellFormed = false ∧ (Instr.lzwBadfirst 258).wellFormed = true := by
  decide
theorem test_wf_ref : (Instr.lzwRef 256).wellFormed = false ∧ (Instr.lzwRef 257).wellFormed = false ∧
    (Instr.lzwRef 4095).wellFormed = true := by decide
theorem test_wf_kwkwk : (Instr.lzwKwkwk 257).wellFormed = false ∧ (Instr.lzwKwkwk 258).wellFormed = true := by decide
theorem test_wf_corrupt : (Instr.lzwCorrupt 258).wellFormed = false ∧ (Instr.lzwCorrupt 259).wellFormed = true := by decide
theorem test_wf_a85Digit : (Instr.a85Digit 32).wellFormed = false ∧ (Instr.a85Digit 118).wellFormed = false ∧
    (Instr.a85Digit 33).wellFormed = true ∧ (Instr.a85Digit 117).wellFormed = true := by decide
theorem test_wf_a85Skip : (Instr.a85Skip 33).wellFormed = false ∧ (Instr.a85Skip 122).wellFormed = false ∧
    (Instr.a85Skip 126).wellFormed = false ∧ (Instr.a85Skip 127).wellFormed = true := by decide
theorem test_wf_ahxDigit : (Instr.ahxDigit 71).wellFormed = false ∧ (Instr.ahxDigit 96).wellFormed = false ∧
    (Instr.ahxDigit 58).wellFormed = false ∧ (Instr.ahxDigit 102).wellFormed = true := by decide
theorem test_wf_ahxSkip : (Instr.ahxSkip 62).wellFormed = false ∧ (Instr.ahxSkip 65).wellFormed = false ∧
    (Instr.ahxSkip 61).wellFormed = true ∧ (Instr.ahxSkip 63).wellFormed = true := by decide

/-! ### Decode: one symbol of every class, written out bit by bit -/

/-- The decoder's context in LZW tests: `Running`, `prev` not empty, table length `t`. -/
def running (t : Nat) : Context := { fsm := .running, prevEmpty := false, tlen := t, aCnt := 0 }

/-- `n[5:0]`, most significant bit first (R90): `BR.READ 9`. -/
theorem test_decode_brRead : decode .bitReader probeContext [false, false, true, false, false, true] = .ok (.brRead 9, []) := by
  decide
theorem test_decode_brRead_refused :
    decode .bitReader probeContext [true, false, false, false, false, true] = .error (.requestOutOfContract 33) := by decide
/-- P4: six bits are left where a code of nine is wanted. -/
theorem test_decode_lzwEoi : decode .lzw (running 258) [true, false, false, false, false, false] = .ok (.lzwEoi, []) := by decide
/-- P1 step 1: 256. -/
theorem test_decode_lzwClear :
    decode .lzw (running 258) [true, false, false, false, false, false, false, false, false] = .ok (.lzwClear, []) := by decide
/-- P5's END-OF-DATA at 10 bits: `0100000001`. -/
theorem test_decode_lzwEod :
    decode .lzw (running 512) [false, true, false, false, false, false, false, false, false, true] = .ok (.lzwEod, []) := by decide
/-- L10: 45 before any CLEAR. -/
theorem test_decode_lzwNoclear :
    decode .lzw { fsm := .awaitingClear, prevEmpty := true, tlen := 258, aCnt := 0 }
      [false, false, false, true, false, true, true, false, true] = .ok (.lzwNoclear 45, []) := by decide
/-- P1 step 2: 45 directly after the CLEAR. -/
theorem test_decode_lzwFirst :
    decode .lzw probeContext [false, false, false, true, false, true, true, false, true] = .ok (.lzwFirst 45, []) := by decide
/-- L8: 258 directly after the CLEAR. -/
theorem test_decode_lzwBadfirst :
    decode .lzw probeContext [true, false, false, false, false, false, false, true, false] = .ok (.lzwBadfirst 258, []) := by
  decide
/-- P1 step 4: 258 with `tlen` 259. -/
theorem test_decode_lzwRef :
    decode .lzw (running 259) [true, false, false, false, false, false, false, true, false] = .ok (.lzwRef 258, []) := by decide
/-- P1 step 3: 258 with `tlen` 258. -/
theorem test_decode_lzwKwkwk :
    decode .lzw (running 258) [true, false, false, false, false, false, false, true, false] = .ok (.lzwKwkwk 258, []) := by decide
/-- P3: 300 with `tlen` 259. -/
theorem test_decode_lzwCorrupt :
    decode .lzw (running 259) [true, false, false, true, false, true, true, false, false] = .ok (.lzwCorrupt 300, []) := by decide
/-- R29: 12 bits at `tlen` 2047, 11 below. -/
theorem test_decode_width :
    decode .lzw (running 2047) [false, true, true, true, true, true, true, true, true, true, true, false] =
        .ok (.lzwRef 2046, []) ∧
      decode .lzw (running 2046) [true, true, true, true, true, true, true, true, true, true, true, false] =
        .ok (.lzwCorrupt 2047, [false]) := by decide
theorem test_decode_a85Eoi : decode .a85 probeContext [] = .ok (.a85Eoi, []) := by decide
/-- `'9'` = 0x39. -/
theorem test_decode_a85Digit :
    decode .a85 probeContext [false, false, true, true, true, false, false, true] = .ok (.a85Digit 57, []) := by decide
/-- `'z'` = 0x7A with no digit pending. -/
theorem test_decode_a85Z :
    decode .a85 probeContext [false, true, true, true, true, false, true, false] = .ok (.a85Z, []) := by decide
/-- `'z'` with two digits pending (A9). -/
theorem test_decode_a85Zbad :
    decode .a85 { fsm := .running, prevEmpty := true, tlen := 258, aCnt := 2 }
      [false, true, true, true, true, false, true, false] = .ok (.a85Zbad, []) := by decide
/-- `'~'` = 0x7E. -/
theorem test_decode_a85End :
    decode .a85 probeContext [false, true, true, true, true, true, true, false] = .ok (.a85End, []) := by decide
/-- `'v'` = 0x76 (A18). -/
theorem test_decode_a85Skip :
    decode .a85 probeContext [false, true, true, true, false, true, true, false] = .ok (.a85Skip 118, []) := by decide
theorem test_decode_ahxEoi : decode .ahx probeContext [] = .ok (.ahxEoi, []) := by decide
/-- `'f'` = 0x66. -/
theorem test_decode_ahxDigit :
    decode .ahx probeContext [false, true, true, false, false, true, true, false] = .ok (.ahxDigit 102, []) := by decide
/-- `'>'` = 0x3E. -/
theorem test_decode_ahxEnd :
    decode .ahx probeContext [false, false, true, true, true, true, true, false] = .ok (.ahxEnd, []) := by decide
/-- `'g'` = 0x67 (H21). -/
theorem test_decode_ahxSkip :
    decode .ahx probeContext [false, true, true, false, false, true, true, true] = .ok (.ahxSkip 103, []) := by decide
/-- Rows of the table as bare words (log 15). -/
theorem test_decodeTableWord :
    decodeTableWord 12 0x100 = some .lzwClear ∧ decodeTableWord 12 0x101 = some .lzwEod ∧
      decodeTableWord 8 0x7E = some .a85End ∧ decodeTableWord 8 0x3E = some .ahxEnd ∧
      decodeTableWord 6 0 = none ∧ decodeTableWord 6 32 = some (.brRead 32) := by decide

/-! ### Small states -/

/-- A stream with this input supplied, nothing consumed, `in_eof` high. -/
def supplied (inp : Bytes) : Stream := { Stream.reset with inp := inp, eof := true }

/-- The LZW engine at a byte boundary, the whole input before it. -/
def lzwAt (fsm : LzwFsm) (prev : Bytes) (table : Memory) (tlen : Nat) (inp : Bytes) : State :=
  { State.reset with
    lzw := { Lzw.reset with fsm := fsm, prev := prev, table := table, tlen := tlen, io := supplied inp } }

/-- The ASCII85 engine with `cnt` digits pending. -/
def a85At (acc cnt : Nat) (inp : Bytes) : State :=
  { State.reset with a85 := { fsm := .running, acc := acc, cnt := cnt, io := supplied inp }, active := .a85 }

/-- The ASCIIHex engine with these registers. -/
def ahxAt (mode : PairMode) (pv : Bool) (pend : BitVec 4) (sep stray : Bool) (inp : Bytes) : State :=
  { State.reset with
    ahx := { fsm := .running, pv := pv, pend := pend, sep := sep, stray := stray, mode := mode, io := supplied inp }
    active := .ahx }

/-- The state a step answers. -/
def next? : Host.Outcome State Fault Refusal → Option State
  | .next s => some s
  | _ => none

/-- What an LZW step shows: `OUT`, `prev`, `tlen`, one slot, and the status. -/
structure LzwView where
  out : Bytes
  prev : Bytes
  tlen : Nat
  slot : Option Bytes
  cause : Cause
  info : BitVec 12
deriving DecidableEq, Repr

/-- What an ASCII85 step shows: `OUT`, `a_acc`, `a_cnt`, and the status. -/
structure A85View where
  out : Bytes
  acc : Nat
  cnt : Nat
  cause : Cause
  err : Bool
  info : BitVec 12
deriving DecidableEq, Repr

/-- What an ASCIIHex step shows: `OUT`, the registers, and `cause`. -/
structure AhxView where
  out : Bytes
  pv : Bool
  pend : BitVec 4
  sep : Bool
  stray : Bool
  cause : Cause
deriving DecidableEq, Repr

def seeLzw (i : Nat) (o : Host.Outcome State Fault Refusal) : Option LzwView :=
  (next? o).map fun s => ⟨s.lzw.io.out, s.lzw.prev, s.lzw.tlen, s.lzw.table.read i, s.lzw.io.cause, s.lzw.io.info⟩

def seeA85 (o : Host.Outcome State Fault Refusal) : Option A85View :=
  (next? o).map fun s => ⟨s.a85.io.out, s.a85.acc, s.a85.cnt, s.a85.io.cause, s.a85.io.err, s.a85.io.info⟩

def seeAhx (o : Host.Outcome State Fault Refusal) : Option AhxView :=
  (next? o).map fun s => ⟨s.ahx.io.out, s.ahx.pv, s.ahx.pend, s.ahx.sep, s.ahx.stray, s.ahx.io.cause⟩

/-- What a BitReader request shows: the response and `(ipos, bpos)`. -/
def seeRead (o : Host.Outcome State Fault Refusal) : Option (Response × Nat × Nat) :=
  (next? o).map fun s => (s.lzw.resp, s.lzw.io.ipos, s.lzw.bpos)

/-! ### One step of each instruction -/

/-- B2: 32 bits at once. -/
theorem test_brRead_value :
    seeRead (exec (.brRead 32) (lzwAt .awaitingClear [] [] 258 [0xDE, 0xAD, 0xBE, 0xEF, 0x01])) =
      some (.value 0xDEADBEEF, 4, 8) := by decide
/-- B8: no input. -/
theorem test_brRead_endOfInput :
    seeRead (exec (.brRead 1) (lzwAt .awaitingClear [] [] 258 [])) = some (.endOfInput, 0, 8) := by decide
/-- L2: eight bits only. -/
theorem test_lzwEoi :
    seeLzw 258 (step (lzwAt .awaitingClear [] [] 258 [0x80])) = some ⟨[], [], 258, some [], .endOfInput, 0⟩ := by decide
/-- P2 step 5: the CLEAR keeps no entry readable and empties `prev`; the slot keeps its bits (R142). -/
theorem test_lzwClear :
    seeLzw 258 (step (lzwAt .running [97, 98] [(258, [97, 98]), (259, [98, 97])] 260 [0x80, 0])) =
      some ⟨[], [], 258, some [97, 98], .none, 0⟩ := by decide
/-- L3: END-OF-DATA before any CLEAR. -/
theorem test_lzwEod :
    seeLzw 258 (step (lzwAt .awaitingClear [] [] 258 [0x80, 0x80])) = some ⟨[], [], 258, some [], .endOfData, 0⟩ := by decide
/-- L10. -/
theorem test_lzwNoclear :
    seeLzw 258 (step (lzwAt .awaitingClear [] [] 258 [0x16, 0x80])) = some ⟨[], [], 258, some [], .corruptTable, 45⟩ := by decide
/-- P1 step 2. -/
theorem test_lzwFirst :
    seeLzw 258 (step (lzwAt .running [] [] 258 [0x16, 0x80])) = some ⟨[45], [45], 258, some [], .none, 0⟩ := by decide
/-- L9. -/
theorem test_lzwBadfirst :
    seeLzw 258 (step (lzwAt .running [] [] 258 [0x96, 0])) = some ⟨[], [], 258, some [], .corruptTable, 300⟩ := by decide
/-- P1 step 4: `T[259] = "---"`, chunk `"--"`. -/
theorem test_lzwRef :
    seeLzw 259 (step (lzwAt .running [45, 45] [(258, [45, 45])] 259 [0x81, 0])) =
      some ⟨[45, 45], [45, 45], 260, some [45, 45, 45], .none, 0⟩ := by decide
/-- P1 step 7: a literal code, `T[262] = "---B"`, chunk `"B"`. -/
theorem test_lzwRef_literal :
    seeLzw 262 (step (lzwAt .running [45, 45, 45]
        [(258, [45, 45]), (259, [45, 45, 45]), (260, [45, 45, 65]), (261, [65, 45])] 262 [0x21, 0])) =
      some ⟨[66], [66], 263, some [45, 45, 45, 66], .none, 0⟩ := by decide
/-- P1 step 3: `T[258] = "--"`. -/
theorem test_lzwKwkwk :
    seeLzw 258 (step (lzwAt .running [45] [] 258 [0x81, 0])) =
      some ⟨[45, 45], [45, 45], 259, some [45, 45], .none, 0⟩ := by decide
/-- P3's last step. -/
theorem test_lzwCorrupt :
    seeLzw 259 (step (lzwAt .running [66] [(258, [65, 66])] 259 [0x96, 0])) =
      some ⟨[], [66], 259, some [], .corruptTable, 300⟩ := by decide
/-- A15: four digits are dropped. -/
theorem test_a85Eoi : (seeA85 (step (a85At 15216006 4 []))).map (fun r => (r.out, r.cause, r.err, r.info)) = some ([], .endOfInput, false, 0) := by
  decide
/-- P8: `'o'` completes `E,9)o`, digits 36, 11, 24, 8, 78, value 0x706C6561. -/
theorem test_a85Digit_fifth :
    seeA85 (step (a85At (((36 * 85 + 11) * 85 + 24) * 85 + 8) 4 [111])) =
      some ⟨[0x70, 0x6C, 0x65, 0x61], 0, 0, .none, false, 0⟩ := by decide
/-- A6: the value `2^32` exactly. -/
theorem test_a85Digit_overflow :
    (seeA85 (step (a85At 50529027 4 [34]))).map (fun r => (r.out, r.cause, r.err, r.info)) = some ([], .a85Overflow, true, 5) := by decide
/-- A2. -/
theorem test_a85Z : seeA85 (step (a85At 0 0 [122])) = some ⟨[0, 0, 0, 0], 0, 0, .none, false, 0⟩ := by decide
/-- A9: `'9'` and `'j'` are pending, digits 24 and 73. -/
theorem test_a85Zbad :
    (seeA85 (step (a85At (24 * 85 + 73) 2 [122]))).map (fun r => (r.out, r.cause, r.err, r.info)) = some ([], .invalidShorthand, true, 2) := by
  decide
/-- P8: `'/'` and `'c'` are pending, digits 14 and 66; one byte `2e`. -/
theorem test_a85End :
    (seeA85 (step (a85At (14 * 85 + 66) 2 [126]))).map (fun r => (r.out, r.cause, r.err, r.info)) = some ([0x2E], .terminator, false, 0) := by
  decide
/-- A17: `"s~"`, digit 82. -/
theorem test_a85End_overflow :
    (seeA85 (step (a85At 82 1 [126]))).map (fun r => (r.out, r.cause, r.err, r.info)) = some ([], .a85Overflow, true, 1) := by decide
/-- A10: a space inside a group. -/
theorem test_a85Skip : seeA85 (step (a85At (24 * 85 + 73) 2 [32])) = some ⟨[], 24 * 85 + 73, 2, .none, false, 0⟩ := by decide
/-- H9: a lone 7 at the end of the input. -/
theorem test_ahxEoi :
    (seeAhx (step (ahxAt .adjacent true 7 true false []))).map (fun r => (r.out, r.pv, r.cause)) =
      some ([0x70], false, .endOfInput) := by decide
/-- H19: after a dropped digit the trailing one is suppressed. -/
theorem test_ahxEoi_stray :
    (seeAhx (step (ahxAt .adjacent true 3 false true []))).map (fun r => (r.out, r.cause)) = some ([], .endOfInput) := by
  decide
/-- H3: `'A'` then `'B'`. -/
theorem test_ahxDigit_pair :
    (seeAhx (step (ahxAt .stream true 10 false false [66]))).map (fun r => (r.out, r.pv)) = some ([0xAB], false) := by decide
/-- H14: the second digit of `"6 1"` in `ADJACENT` mode. -/
theorem test_ahxDigit_dropped :
    seeAhx (step (ahxAt .adjacent true 6 true false [49])) = some ⟨[], true, 1, false, true, .none⟩ := by decide
/-- H8: `'>'` flushes the pending 6. -/
theorem test_ahxEnd :
    (seeAhx (step (ahxAt .stream true 6 false false [62, 49]))).map (fun r => (r.out, r.pv, r.cause)) =
      some ([0x60], false, .terminator) := by decide
/-- H6: nothing pending, nothing flushed. -/
theorem test_ahxEnd_empty :
    (seeAhx (step (ahxAt .adjacent false 0 false false [62]))).map (fun r => (r.out, r.cause)) = some ([], .terminator) := by
  decide
/-- R194: a separator after a pending digit is marked in `ADJACENT` mode only. -/
theorem test_ahxSkip :
    seeAhx (step (ahxAt .adjacent true 6 false false [32])) = some ⟨[], true, 6, true, false, .none⟩ ∧
      seeAhx (step (ahxAt .stream true 6 false false [32])) = some ⟨[], true, 6, false, false, .none⟩ := by decide
/-- A word of the table, placed after reset, is what the next step runs (log 15). -/
theorem test_withFetchWord :
    seeLzw 258 (step (State.reset.withFetchWord 12 0x101)) = some ⟨[], [], 258, some [], .endOfData, 0⟩ ∧
      seeA85 (step (State.reset.withFetchWord 8 0x7E)) = some ⟨[], 0, 0, .terminator, false, 0⟩ ∧
      (seeAhx (step (State.reset.withFetchWord 8 0x3E))).map (·.cause) = some .terminator := by decide

/-! ### Witnesses: the hypotheses of each statement are met, each clause at the ends of its range -/

theorem supplied_inv (inp : Bytes) : (supplied inp).Inv false :=
  { ipos_le := Nat.zero_le _, taken_le := Nat.zero_le _, cause_iff := ⟨fun _ => rfl, fun _ => rfl⟩, err_eq := rfl
    info_eq := fun _ => rfl }

theorem resetLzw_inv : Lzw.reset.Inv :=
  { io := ⟨Nat.zero_le _, Nat.zero_le _, by decide, rfl, fun _ => rfl⟩
    causes := by decide, tlen_lo := by decide, tlen_hi := by decide, table_wf := rfl
    slots := fun i h1 h2 => absurd h2 (by show ¬ i < 258; omega)
    prev_len := by decide, prev_nil := by decide, awaiting := by decide, bpos_lo := by decide, bpos_hi := by decide
    cur_eq := by decide }

theorem resetStream_inv : Stream.reset.Inv false :=
  { ipos_le := Nat.zero_le _, taken_le := Nat.zero_le _, cause_iff := by decide, err_eq := rfl, info_eq := fun _ => rfl }

theorem resetA85_inv : A85.reset.Inv :=
  { io := resetStream_inv, causes := by decide, running := by decide, cnt_le := by decide, acc_lt := by decide }

theorem resetAhx_inv (m : PairMode) : (Ahx.reset m).Inv :=
  { io := resetStream_inv, causes := by cases m <;> decide, stream := fun _ => ⟨rfl, rfl⟩, sep_pending := fun _ h => by cases h }

/-- An LZW state of these tests meets the invariant where its table and `prev` do. -/
theorem lzwAt_inv {fsm : LzwFsm} {prev : Bytes} {table : Memory} {tlen : Nat} {inp : Bytes} (hf : fsm ≠ .terminated)
    (h1 : 258 ≤ tlen) (h2 : tlen ≤ 4096) (hw : table.wf = true)
    (hs : ∀ i, 258 ≤ i → i < tlen → ∃ x, table.read i = some x ∧ 2 ≤ x.length ∧ x.length ≤ i - 256)
    (hp : prev.length ≤ tlen - 257) (hn : prev = [] → tlen = 258) (ha : fsm = .awaitingClear → prev = []) :
    (lzwAt fsm prev table tlen inp).Inv :=
  { lzw :=
      { io := by
          show (supplied inp).Inv (fsm == .terminated)
          rw [show (fsm == LzwFsm.terminated) = false by cases fsm <;> first | rfl | exact absurd rfl hf]
          exact supplied_inv inp
        causes := List.mem_cons_self, tlen_lo := h1, tlen_hi := h2, table_wf := hw, slots := hs, prev_len := hp
        prev_nil := hn, awaiting := ha, bpos_lo := by show 1 ≤ 8; decide, bpos_hi := le_refl 8
        cur_eq := fun h => absurd h (lt_irrefl 8) }
    a85 := resetA85_inv, ahx := resetAhx_inv _ }

/-- No dynamic slot is asked for at `tlen` 258. -/
theorem lzwAt_inv_258 {fsm : LzwFsm} {prev inp : Bytes} (hf : fsm ≠ .terminated) (hp : prev.length ≤ 1)
    (ha : fsm = .awaitingClear → prev = []) : (lzwAt fsm prev [] 258 inp).Inv :=
  lzwAt_inv hf (le_refl _) (by decide) rfl (fun i h1 h2 => absurd h1 (by omega)) hp (fun _ => rfl) ha

/-- One dynamic slot is written at `tlen` 259. -/
theorem lzwAt_inv_259 {prev : Bytes} {x y : Byte} {inp : Bytes} (hp : prev.length ≤ 2) (hn : prev ≠ []) :
    (lzwAt .running prev [(258, [x, y])] 259 inp).Inv :=
  lzwAt_inv (by decide) (by decide) (by decide) rfl
    (fun i h1 h2 => ⟨[x, y], by rw [show i = 258 by omega]; rfl, le_refl 2, by rw [show i = 258 by omega]; exact le_refl 2⟩) hp
    (fun h => absurd h hn) (fun h => by cases h)

/-- A table of `n` two-byte entries from slot `lo` on. -/
def filled : Nat → Nat → Memory
  | 0, _ => []
  | n + 1, lo => (lo, [0, 0]) :: filled n (lo + 1)

theorem filled_rising (n lo : Nat) (h : lo + n ≤ 4096) : (filled n lo).risingFrom lo = true := by
  induction n generalizing lo with
  | zero => rfl
  | succ n ih =>
    simp only [filled, Memory.risingFrom, Bool.and_eq_true, decide_eq_true_eq]
    exact ⟨⟨⟨le_refl _, by show lo < 4096; omega⟩, rfl⟩, ih (lo + 1) (by omega)⟩

theorem filled_lookup (n lo i : Nat) (h1 : lo ≤ i) (h2 : i < lo + n) : (filled n lo).lookup i = some [0, 0] := by
  induction n generalizing lo with
  | zero => omega
  | succ n ih =>
    simp only [filled, Memory.lookup]
    split
    · rfl
    · exact ih (lo + 1) (by omega) (by omega)

/-- The engine with slots 258 to `tlen - 1` filled. -/
theorem lzwAt_inv_filled {prev inp : Bytes} (n : Nat) (h : n ≤ 3838) (hp : prev.length ≤ 1) (hn : prev ≠ []) :
    (lzwAt .running prev (filled n 258) (258 + n) inp).Inv :=
  lzwAt_inv (by decide) (by omega) (by omega) (filled_rising n 258 (by omega))
    (fun i h1 h2 => ⟨[0, 0], by
      unfold Memory.read
      rw [if_neg (by omega), if_neg (by omega), if_pos (show i < 4096 by omega), filled_lookup n 258 i h1 h2]
      rfl, le_refl 2, by show 2 ≤ i - 256; omega⟩)
    (by omega) (fun h => absurd h hn) (fun h => by cases h)

theorem a85At_inv {acc cnt : Nat} {inp : Bytes} (h : cnt ≤ 4) (ha : acc < 85 ^ cnt) (hb : acc < 2 ^ 33) :
    (a85At acc cnt inp).Inv :=
  { lzw := resetLzw_inv, ahx := resetAhx_inv _
    a85 := { io := supplied_inv inp, causes := List.mem_cons_self, running := fun _ => ⟨h, ha⟩
             cnt_le := by show cnt ≤ 5; omega, acc_lt := hb } }

theorem ahxAt_inv {mode : PairMode} {pv sep stray : Bool} {pend : BitVec 4} {inp : Bytes}
    (h : mode = .stream → sep = false ∧ stray = false) (hs : sep = true → pv = true) :
    (ahxAt mode pv pend sep stray inp).Inv :=
  { lzw := resetLzw_inv, a85 := resetA85_inv
    ahx := { io := supplied_inv inp, causes := List.mem_cons_self, stream := h, sep_pending := fun _ => hs } }

/-- The state of P1 step 3 with its code next, and host actions waiting. -/
def kwkwkNext (host : List HostAct) : State := { lzwAt .running [45] [] 258 [0x81, 0] with host := host }

theorem kwkwkNext_inv (host : List HostAct) : (kwkwkNext host).Inv :=
  let h : (lzwAt .running [45] [] 258 [0x81, 0]).Inv := lzwAt_inv_258 (by decide) (by decide) (by decide)
  ⟨h.lzw, h.a85, h.ahx⟩

/-- A terminated LZW engine (P1 after its last step, without the table). -/
def ended (host : List HostAct) : State :=
  { State.reset with
    lzw := { Lzw.reset with fsm := .terminated, io := { Stream.reset with cause := .endOfData, eof := true } }
    host := host }

theorem ended_inv (host : List HostAct) : (ended host).Inv :=
  { a85 := resetA85_inv, ahx := resetAhx_inv _
    lzw := { resetLzw_inv with
             io := ⟨Nat.zero_le _, Nat.zero_le _, ⟨fun h => (by cases h), fun h => (by cases h)⟩, rfl, fun _ => rfl⟩
             causes := List.mem_cons_of_mem _ List.mem_cons_self, awaiting := fun h => by cases h } }

theorem witness_HardwareReset :
    (kwkwkNext [.rst .lzw]).host = .rst .lzw :: [] ∧ (ended [.rst .lzw, .take .a85]).host = .rst .lzw :: [.take .a85] := by
  decide

theorem witness_StepKeepsInvariant : (kwkwkNext []).Inv ∧ ∃ t, step (kwkwkNext []) = .next t :=
  ⟨kwkwkNext_inv [], _, rfl⟩

/-- The ends of the table: a write below and beyond the dynamic slots, the last literal and the reserved slots; a slot that
nothing has written, and one that gets the empty byte-string back. -/
theorem witness_TableSlots :
    (Memory.write [] 258 [1, 2]).read 258 = some [1, 2] ∧ (Memory.write [] 4095 [1, 2]).read 4095 = some [1, 2] ∧
      (Memory.write [] 257 [1, 2]).read 257 = none ∧ (Memory.write [] 4096 [1, 2]).read 4096 = none ∧
      (Memory.write [] 255 [1, 2]).read 255 = some [255] ∧ (Memory.write [] 256 [1, 2]).read 256 = none ∧
      (Memory.write [] 258 [1, 2]).read 259 = some [] ∧ Memory.write [(258, [1, 2])] 258 [] = [] := by decide

theorem kwkwkNext_linked (host : List HostAct) : (kwkwkNext host).lzw.Linked :=
  { entry := fun i h1 h2 => absurd h2 (by show ¬ i < 258; omega)
    prev := .inr ⟨45, by show 45 < 258; decide, rfl⟩ }

theorem witness_StepKeepsEntriesLinked :
    (kwkwkNext []).Inv ∧ (kwkwkNext []).lzw.Linked ∧ ∃ t, step (kwkwkNext []) = .next t :=
  ⟨kwkwkNext_inv [], kwkwkNext_linked [], _, rfl⟩

/-- A byte offered to a terminated engine, and a request of 32 bits that stands at the interface, break no duty. -/
theorem witness_HostDuty :
    (ended [.offer .lzw 1]).Inv ∧ (ended [.offer .lzw 1]).HostDuty ∧
      ({ kwkwkNext [] with lzw := { (kwkwkNext []).lzw with req := some 32 } } : State).HostDuty := by
  refine ⟨ended_inv _, ⟨?_, ?_⟩, ⟨?_, ?_⟩⟩
  · intro e b rest h
    cases h
    exact .inl rfl
  · intro n h
    cases h
  · intro e b rest h
    cases h
  · intro n h
    cases h
    decide

/-- One decoded symbol of each engine, the end of the input, and a `run` of an engine that is not the active one. -/
theorem witness_StepRunsTheDecodedInstruction :
    (decode .lzw (kwkwkNext []).context ((kwkwkNext []).unread .lzw) =
        .ok (.lzwKwkwk 258, List.replicate 7 false) ∧ (kwkwkNext []).terminated .lzw = false ∧
        (kwkwkNext []).lzw.req = none ∧ (kwkwkNext []).outFull .lzw = false ∧ (kwkwkNext []).Inv) ∧
      (decode .a85 (a85At 0 0 [122]).context ((a85At 0 0 [122]).unread .a85) = .ok (.a85Z, []) ∧
        (a85At 0 0 [122]).outFull .a85 = false ∧ (a85At 0 0 [122]).Inv) ∧
      decode .ahx (ahxAt .stream false 0 false false []).context ((ahxAt .stream false 0 false false []).unread .ahx) =
        .ok (.ahxEoi, []) ∧
      ((ahxAt .stream false 0 false false []).io .ahx).eof = true ∧ (ahxAt .stream false 0 false false []).Inv ∧
      (kwkwkNext [.run .a85]).host = .run .a85 :: [] :=
  ⟨⟨by decide, by decide, by decide, rfl, kwkwkNext_inv _⟩,
    ⟨by decide, rfl, a85At_inv (by decide) (by decide) (by decide)⟩, by decide, rfl, ahxAt_inv (by decide) (by decide), rfl⟩

/-- The action `run` steps its engine: A2's `'z'` while the LZW engine is the active one. -/
theorem test_run :
    seeA85 (step { a85At 0 0 [122] with active := .lzw, host := [.run .a85] }) = some ⟨[0, 0, 0, 0], 0, 0, .none, false, 0⟩ := by
  decide

/-- A request of `n` bits that stands at the BitReader's interface before `inp`. -/
def asking (n : BitVec 6) (inp : Bytes) : State :=
  { State.reset with lzw := { Lzw.reset with req := some n, io := supplied inp } }

theorem asking_inv (n : BitVec 6) (inp : Bytes) : (asking n inp).Inv :=
  { a85 := resetA85_inv, ahx := resetAhx_inv _
    lzw := { resetLzw_inv with io := supplied_inv inp, cur_eq := fun h => absurd h (lt_irrefl 8) } }

/-- An LZW engine with one byte, 8 bits of the 9 it needs, and a text engine with none; `in_eof` low. -/
def hungry (e : Engine) (inp : Bytes) : State :=
  { State.reset with lzw := { Lzw.reset with io := { Stream.reset with inp := inp } }, active := e }

theorem hungry_inv (e : Engine) (inp : Bytes) : (hungry e inp).Inv :=
  { a85 := resetA85_inv, ahx := resetAhx_inv _
    lzw := { resetLzw_inv with
             io := ⟨Nat.zero_le _, Nat.zero_le _, by simp [hungry, Stream.reset, Lzw.reset], rfl, fun _ => rfl⟩
             cur_eq := fun h => absurd h (lt_irrefl 8) } }

/-- A step of another engine, and a standing request: the ends of both ranges, 1 and 32 inside the contract, 0 and 33
outside, one bit of none and 32 of 24 with `in_eof` low. -/
theorem witness_BitReaderServesOneOwner :
    ((∃ t, step (hungry .a85 []) = .next t) ∧ (hungry .a85 []).active ≠ .lzw ∧ (hungry .a85 []).lzw.req = none) ∧
      ((asking 1 [1]).Inv ∧ (asking 1 [1]).lzw.fsm ≠ .terminated ∧ (asking 1 [1]).outFull .lzw = false ∧
        (asking 1 [1]).lzw.req = some 1 ∧ 1 ≤ (asking 1 [1]).lzw.unread.length) ∧
      ((asking 32 [1, 2, 3, 4]).Inv ∧ 32 ≤ (asking 32 [1, 2, 3, 4]).lzw.unread.length) ∧
      ((hungry .lzw []).Inv ∧ (hungry .lzw []).lzw.unread.length < 1 ∧ (hungry .lzw [1, 2, 3]).lzw.unread.length < 32 ∧
        (hungry .lzw [1, 2, 3]).lzw.io.eof = false) ∧
      ((asking 0 []).Inv ∧ (0 : BitVec 6).toNat = 0) ∧ (asking 33 []).Inv ∧ 32 < (33 : BitVec 6).toNat :=
  ⟨⟨⟨_, rfl⟩, by decide, rfl⟩, ⟨asking_inv _ _, by decide, rfl, rfl, by decide⟩, ⟨asking_inv _ _, by decide⟩,
    ⟨hungry_inv _ _, by decide, by decide, rfl⟩, ⟨asking_inv _ _, rfl⟩, asking_inv _ _, by decide⟩

/-- A request of two bits stands before nothing: it waits. -/
def waiting : State := { hungry .lzw [] with lzw := { (hungry .lzw []).lzw with req := some 2 } }

theorem test_waiting_request : next? (step waiting) = some waiting := by decide

/-- The ASCII85 engine with one byte more in its output staging than it holds. -/
def full : State :=
  { State.reset with
    a85 := { A85.reset with io := { Stream.reset with inp := [33], out := List.replicate (Config.outStaging .a85 + 1) 0 } }
    active := .a85 }

/-- Short of input; a full output staging; a taken step whose output none, then all, is taken; and one with `in_eof` low. -/
theorem witness_HoldsChangeNothing :
    ((hungry .lzw [0x80]).Inv ∧ ((hungry .lzw [0x80]).unread .lzw).length < width (hungry .lzw [0x80]).lzw.tlen ∧
        (hungry .lzw [0x80]).lzw.io.eof = false) ∧
      ((hungry .a85 []).Inv ∧ ((hungry .a85 []).unread .a85).length < 8 ∧ ((hungry .ahx []).unread .ahx).length < 8) ∧
      (full.Inv ∧ full.host = [] ∧ full.active = .a85 ∧ full.outFull .a85 = true) ∧
      ((kwkwkNext []).Inv ∧ (∃ t, step (kwkwkNext []) = .next t) ∧ (kwkwkNext []).outFull .lzw = false ∧
        ((kwkwkNext []).setIo .lzw { (kwkwkNext []).io .lzw with taken := 0 }).outFull .lzw = false) ∧
      (hungry .lzw [0x80, 0]).Inv ∧ ((hungry .lzw [0x80, 0]).io .lzw).eof = false ∧
      ∃ t, step (hungry .lzw [0x80, 0]) = .next t ∧ t ≠ hungry .lzw [0x80, 0] :=
  ⟨⟨hungry_inv _ _, by decide, rfl⟩, ⟨hungry_inv _ _, by decide, by decide⟩,
    ⟨⟨resetLzw_inv,
        ⟨⟨Nat.zero_le _, Nat.zero_le _, by decide, rfl, fun _ => rfl⟩, by decide, by decide, by decide, by decide⟩,
        resetAhx_inv _⟩, rfl, rfl, by simp [full, State.outFull, State.outValid, State.io, Stream.reset]⟩,
    ⟨kwkwkNext_inv _, ⟨_, rfl⟩, rfl, rfl⟩, hungry_inv _ _, rfl, _, rfl, by decide⟩

/-- A terminated engine with no action, and with its reset, waiting. -/
theorem witness_OnlyReset :
    ((ended []).terminated .lzw = true ∧ (∃ t, step (ended []) = .next t) ∧ ∀ rest, (ended []).host ≠ .rst .lzw :: rest) ∧
      (ended [.rst .lzw]).terminated .lzw = true ∧ ∃ t, step (ended [.rst .lzw]) = .next t :=
  ⟨⟨rfl, ⟨_, rfl⟩, fun rest h => by cases h⟩, rfl, _, rfl⟩

/-- For the statements about `OUT` and about the cursor. -/
theorem witness_OutputAndCursor :
    (kwkwkNext []).Inv ∧ (∃ t, step (kwkwkNext []) = .next t) ∧ ∀ e rest, (kwkwkNext []).host ≠ .rst e :: rest :=
  ⟨kwkwkNext_inv [], ⟨_, rfl⟩, fun e rest h => by cases h⟩

/-- Two states that agree on the LZW engine and differ in the others. -/
theorem witness_EnginesDoNotInteract :
    AgreeOn .lzw (kwkwkNext []) { kwkwkNext [] with a85 := (a85At 7 1 [33]).a85, ahx := Ahx.reset .stream } ∧
      (kwkwkNext []).active = .lzw ∧ ∃ t, step (kwkwkNext []) = .next t :=
  ⟨rfl, rfl, _, rfl⟩

/-- An emitted byte that waits for its consumer, of a running and of a terminated engine. -/
def offering (fsm : TextFsm) (cause : Cause) (taken : Nat) : State :=
  { State.reset with
    a85 := { A85.reset with fsm := fsm, io := { Stream.reset with out := [46], taken := taken, cause := cause } }
    host := [.take .a85] }

theorem witness_ConsumerTakes :
    (offering .running .none 0).Inv ∧ (offering .running .none 0).outValid .a85 = true ∧
      (offering .terminated .terminator 1).Inv ∧ (offering .terminated .terminator 1).outValid .a85 = false ∧
      (offering .terminated .terminator 1).host = .take .a85 :: [] :=
  ⟨⟨resetLzw_inv, ⟨⟨by decide, by decide, by decide, rfl, fun _ => rfl⟩, by decide, by decide, by decide, by decide⟩,
      resetAhx_inv _⟩, by decide,
    ⟨resetLzw_inv, ⟨⟨by decide, by decide, by decide, rfl, fun _ => rfl⟩, by decide, by decide, by decide, by decide⟩,
      resetAhx_inv _⟩, by decide, rfl⟩

/-- A byte offered before `in_eof`, after it, and to a terminated engine; `in_eof` itself; and a step that meets it high. -/
theorem witness_HostSupplies :
    (({ hungry .a85 [] with host := [.offer .a85 9] } : State).terminated .a85 = false ∧
        (({ hungry .a85 [] with host := [.offer .a85 9] } : State).io .a85).eof = false) ∧
      ((kwkwkNext [.offer .lzw 9]).terminated .lzw = false ∧ ((kwkwkNext [.offer .lzw 9]).io .lzw).eof = true) ∧
      (ended [.offer .lzw 9]).terminated .lzw = true ∧ (kwkwkNext [.eof .lzw]).host = .eof .lzw :: [] ∧
      (kwkwkNext []).Inv ∧ (∃ t, step (kwkwkNext []) = .next t) ∧ ((kwkwkNext []).io .lzw).eof = true :=
  ⟨by decide, by decide, rfl, rfl, kwkwkNext_inv _, ⟨_, rfl⟩, rfl⟩

/-- A class that is met, one whose condition fails, and one whose operand the table does not admit. -/
theorem witness_MeaningsRun :
    (kwkwkNext []).Inv ∧ ((Instr.lzwKwkwk 258).wellFormed = true ∧ (kwkwkNext []).Meets (.lzwKwkwk 258)) ∧
      ¬ (kwkwkNext []).Meets (.lzwKwkwk 259) ∧ (Instr.lzwRef 256).wellFormed = false ∧
      (Instr.brRead 33).wellFormed = false :=
  ⟨kwkwkNext_inv [], ⟨by decide, rfl, by decide, rfl⟩, fun h => absurd h.2.2 (by decide), by decide, by decide⟩

/-! #### BitReader -/

/-- One bit and 32 bits, the last of them the last of the input. -/
theorem witness_BrReadAnswersTheStreamBits :
    (asking 1 [0x80]).Inv ∧ (asking 1 [0x80]).lzw.bitPos + 1 ≤ 8 * (asking 1 [0x80]).lzw.io.inp.length ∧
      (asking 32 [1, 2, 3, 4]).lzw.bitPos + 32 = 8 * (asking 32 [1, 2, 3, 4]).lzw.io.inp.length :=
  ⟨asking_inv _ _, by decide, by decide⟩

/-- One bit from nothing and 32 from 31, with and without `in_eof`. -/
theorem witness_BrReadAnswersEndOfInput :
    ((asking 1 []).Inv ∧ 8 * (asking 1 []).lzw.io.inp.length < (asking 1 []).lzw.bitPos + 1 ∧
        (asking 1 []).lzw.io.eof = true) ∧
      (hungry .lzw [1, 2, 3]).Inv ∧ 8 * (hungry .lzw [1, 2, 3]).lzw.io.inp.length < (hungry .lzw [1, 2, 3]).lzw.bitPos + 25 ∧
      (hungry .lzw [1, 2, 3]).lzw.io.eof = false :=
  ⟨⟨asking_inv _ _, by decide, rfl⟩, hungry_inv _ _, by decide, rfl⟩

/-- B6: the read of nine that fails. -/
theorem witness_BrReadFailsForEver :
    (asking 9 [0x80]).Inv ∧ (asking 9 [0x80]).lzw.io.eof = true ∧
      ∃ t, exec (.brRead 9) (asking 9 [0x80]) = .next t ∧ t.lzw.resp = .endOfInput :=
  ⟨asking_inv _ _, rfl, _, rfl, rfl⟩

theorem witness_BrReadRefuses : (0 : BitVec 6).toNat = 0 ∧ 32 < (33 : BitVec 6).toNat ∧ 32 < (63 : BitVec 6).toNat := by
  decide

theorem witness_TwoReads :
    (asking 1 [1, 2, 3, 4]).Inv ∧ 1 + 31 ≤ 32 ∧ (asking 1 [1, 2, 3, 4]).lzw.bitPos + (1 + 31) ≤ 8 * 4 :=
  ⟨asking_inv _ _, by decide, by decide⟩

theorem witness_BrReadTouches : ∃ t, exec (.brRead 32) (asking 1 [1, 2, 3, 4]) = .next t := ⟨_, rfl⟩

/-! #### LZW -/

/-- The last table length of each width and the first of the next (R29). -/
theorem witness_CodeWidth :
    width 258 = 9 ∧ width 510 = 9 ∧ width 511 = 10 ∧ width 1022 = 10 ∧ width 1023 = 11 ∧ width 2046 = 11 ∧
      width 2047 = 12 ∧ width 4096 = 12 := by decide

/-- For `LZW.CLEAR`, `LZW.EOD`: a running engine and one that awaits its CLEAR; for `LZW.EOI` after `EndOfInput`. -/
theorem witness_ControlCodes :
    ((kwkwkNext []).Inv ∧ (kwkwkNext []).lzw.fsm ≠ .terminated) ∧
      ((asking 1 []).Inv ∧ (asking 1 []).lzw.fsm = .awaitingClear) ∧
      ({ State.reset with lzw := { Lzw.reset with resp := .endOfInput } } : State).Inv :=
  ⟨⟨kwkwkNext_inv _, by decide⟩, ⟨asking_inv _ _, rfl⟩,
    { a85 := resetA85_inv, ahx := resetAhx_inv _, lzw := { resetLzw_inv with } }⟩

/-- The first and the last literal. -/
theorem witness_First :
    (lzwAt .running [] [] 258 []).Inv ∧ (0 : Code).toNat ≤ 255 ∧ (255 : Code).toNat ≤ 255 :=
  ⟨lzwAt_inv_258 (by decide) (by decide) (by decide), by decide, by decide⟩

/-- The last literal at `tlen` 258, the first dynamic slot at 259, the last slot of a full table. -/
theorem witness_Ref :
    ((lzwAt .running [45] [] 258 []).Inv ∧ (255 : Code).toNat < 258) ∧
      ((lzwAt .running [45, 45] [(258, [45, 45])] 259 []).Inv ∧ (258 : Code).toNat < 259) ∧
      (lzwAt .running [0] (filled 3838 258) 4096 []).Inv ∧ (4095 : Code).toNat < 4096 :=
  ⟨⟨lzwAt_inv_258 (by decide) (by decide) (by decide), by decide⟩, ⟨lzwAt_inv_259 (by decide) (by decide), by decide⟩,
    lzwAt_inv_filled 3838 (by decide) (by decide) (by decide), by decide⟩

/-- The first and the last slot that an append can fill. -/
theorem witness_Kwkwk :
    ((kwkwkNext []).Inv ∧ (kwkwkNext []).lzw.prev = 45 :: [] ∧ (258 : Code).toNat = 258) ∧
      (lzwAt .running [0] (filled 3837 258) 4095 []).Inv ∧ (4095 : Code).toNat = 4095 :=
  ⟨⟨kwkwkNext_inv _, rfl, rfl⟩, lzwAt_inv_filled 3837 (by decide) (by decide) (by decide), rfl⟩

/-- The first code beyond `tlen` at both ends. -/
theorem witness_Corrupt :
    ((kwkwkNext []).Inv ∧ 258 < (259 : Code).toNat) ∧ (lzwAt .running [0] (filled 3836 258) 4094 []).Inv ∧
      4094 < (4095 : Code).toNat :=
  ⟨⟨kwkwkNext_inv _, by decide⟩, lzwAt_inv_filled 3836 (by decide) (by decide) (by decide), by decide⟩

theorem witness_Unplaced :
    ((lzwAt .running [] [] 258 []).Inv ∧ 258 ≤ (258 : Code).toNat ∧ 258 ≤ (4095 : Code).toNat) ∧
      (lzwAt .awaitingClear [] [] 258 []).Inv ∧ (255 : Code).toNat ≠ 256 ∧ (258 : Code).toNat ≠ 257 :=
  ⟨⟨lzwAt_inv_258 (by decide) (by decide) (by decide), by decide, by decide⟩,
    lzwAt_inv_258 (by decide) (by decide) (by decide), by decide, by decide⟩

/-- A step in `AwaitingClear` and one in `Running`. -/
theorem witness_Transitions :
    (∃ t, exec .lzwClear (lzwAt .awaitingClear [] [] 258 []) = .next t) ∧
      (∃ t, exec (.lzwKwkwk 258) (kwkwkNext []) = .next t) ∧ (Instr.lzwKwkwk 258).unit = .lzw :=
  ⟨⟨_, rfl⟩, ⟨_, rfl⟩, rfl⟩

/-- The largest code of nine and of twelve bits, and another class that would have to apply. -/
theorem witness_CodeClass :
    (511 : Code).toNat < 2 ^ width 258 ∧ (4095 : Code).toNat < 2 ^ width 4096 ∧ (Instr.lzwKwkwk 258).unit = .lzw ∧
      (Instr.lzwKwkwk 258).code? = some (258 : Code).toNat ∧ (Instr.lzwKwkwk 258).wellFormed = true ∧
      (Instr.lzwKwkwk 258).applies (running 258) = true := by decide

/-- For `KwkwkReadsNoSlot` and the two statements about appends: the step of P1 step 3, and a CLEAR. -/
theorem witness_Appends :
    (∃ t, exec (.lzwKwkwk 258) (kwkwkNext []) = .next t) ∧
      ((kwkwkNext []).Inv ∧ ∃ t, step (kwkwkNext []) = .next t ∧ t.lzw.tlen = (kwkwkNext []).lzw.tlen + 1) ∧
      (lzwAt .running [45, 45] [(258, [45, 45])] 259 [0x80, 0]).Inv ∧
      ∃ t, step (lzwAt .running [45, 45] [(258, [45, 45])] 259 [0x80, 0]) = .next t ∧ t.lzw.tlen = 258 ∧ t.lzw.prev = [] :=
  ⟨⟨_, rfl⟩, ⟨kwkwkNext_inv _, _, rfl, rfl⟩, lzwAt_inv_259 (by decide) (by decide), _, rfl, rfl, rfl⟩

/-- Blocks that differ in a slot at `tlen`, in `cur` at a byte boundary and in an invalid `h_pend`. -/
theorem witness_Alike :
    (kwkwkNext []).Alike { kwkwkNext [] with
        lzw := { (kwkwkNext []).lzw with table := [(258, [9, 9])], cur := 7 }
        ahx := { (kwkwkNext []).ahx with pend := 5 } } ∧
      (kwkwkNext []).Inv ∧ ∃ t, step (kwkwkNext []) = .next t := by
  refine ⟨⟨⟨rfl, ?_, fun h => absurd rfl h⟩, rfl, ⟨rfl, fun h => by cases h⟩, rfl, rfl⟩, kwkwkNext_inv _, _, rfl⟩
  intro i hi
  have hi : i < 258 := hi
  show Memory.read [(258, [9, 9])] i = Memory.read [] i
  simp only [Memory.read]
  split <;> simp

/-- A step of the engine with bits left, and one that finds the input short. -/
theorem witness_LzwDecodeTerminates :
    ((kwkwkNext []).Inv ∧ (kwkwkNext []).lzw.fsm ≠ .terminated ∧ (kwkwkNext []).lzw.io.eof = true ∧
        (kwkwkNext []).outFull .lzw = false) ∧
      (lzwAt .running [] [] 258 []).Inv ∧ (lzwAt .running [] [] 258 []).outFull .lzw = false :=
  ⟨⟨kwkwkNext_inv _, by decide, rfl, rfl⟩, lzwAt_inv_258 (by decide) (by decide) (by decide), rfl⟩

/-- L4 with its three padding bits, and the stream without a literal (L6). -/
theorem witness_LiteralStream :
    streamBits [0x80, 0x00, 0x1F, 0xE0, 0x08, 0x08] =
        valueBits 9 256 ++ packLiterals true 258 [0, 255, 0] ++ [false, false, false] ∧
      streamBits [0x80, 0x40, 0x40] = valueBits 9 256 ++ packLiterals true 258 [] ++ [false, false, false, false, false, false] := by
  decide

/-! #### ASCII85 -/

/-- The ends of every class (R100). -/
theorem witness_A85Class :
    classifyA85 0 32 = .a85Skip 32 ∧ classifyA85 0 33 = .a85Digit 33 ∧ classifyA85 0 117 = .a85Digit 117 ∧
      classifyA85 0 118 = .a85Skip 118 ∧ classifyA85 0 121 = .a85Skip 121 ∧ classifyA85 0 122 = .a85Z ∧
      classifyA85 1 122 = .a85Zbad ∧ classifyA85 0 123 = .a85Skip 123 ∧ classifyA85 0 125 = .a85Skip 125 ∧
      classifyA85 0 126 = .a85End ∧ classifyA85 0 127 = .a85Skip 127 ∧ classifyA85 0 255 = .a85Skip 255 ∧
      fetch .a85 (a85At 0 0 []) = .got .a85Eoi (a85At 0 0 []) := by decide

/-- The first digit, the largest group that fits (A5) and the smallest that does not (A6). -/
theorem witness_A85Digit :
    ((a85At 0 0 []).Inv ∧ (a85At 0 0 []).a85.cnt < 4) ∧ (a85At 50529027 4 []).Inv ∧
      50529027 * 85 + ((33 : Byte).toNat - 33) < 2 ^ 32 ∧ 2 ^ 32 ≤ 50529027 * 85 + ((34 : Byte).toNat - 33) :=
  ⟨⟨a85At_inv (by decide) (by decide) (by decide), by decide⟩, a85At_inv (by decide) (by decide) (by decide), by decide,
    by decide⟩

/-- A4 and A5: the smallest and the largest legal group. -/
theorem witness_FullGroup :
    (∀ c ∈ ([33, 33, 33, 33, 33] : Bytes), 33 ≤ c.toNat ∧ c.toNat ≤ 117) ∧
      (∀ c ∈ ([115, 56, 87, 45, 33] : Bytes), 33 ≤ c.toNat ∧ c.toNat ≤ 117) ∧
      82 * 85 ^ 4 + 23 * 85 ^ 3 + 54 * 85 ^ 2 + 12 * 85 + 0 < 2 ^ 32 := by decide

/-- For `A85.Z` and `A85.ZBAD`: no digit, one, and four pending. -/
theorem witness_Shorthand :
    ((a85At 0 0 []).Inv ∧ (a85At 0 0 []).a85.fsm = .running ∧ (a85At 0 0 []).a85.cnt = 0) ∧
      ((a85At 84 1 []).Inv ∧ (a85At 84 1 []).a85.cnt ≠ 0) ∧ (a85At 5 4 []).Inv ∧ (a85At 5 4 []).a85.cnt ≠ 0 :=
  ⟨⟨a85At_inv (by decide) (by decide) (by decide), rfl, rfl⟩,
    ⟨a85At_inv (by decide) (by decide) (by decide), by decide⟩, a85At_inv (by decide) (by decide) (by decide), by decide⟩

/-- Nothing pending; one digit, the largest that fits and the smallest that overflows; four digits of A17. -/
theorem witness_Tilde :
    ((a85At 0 0 []).Inv ∧ (a85At 0 0 []).a85.cnt = 0) ∧ ((a85At 81 1 []).Inv ∧ 81 * 85 ^ 4 + (85 ^ 4 - 1) < 2 ^ 32) ∧
      ((a85At 82 1 []).Inv ∧ 2 ^ 32 ≤ 82 * 85 ^ 4 + (85 ^ 4 - 1)) ∧
      (a85At 50529027 4 []).Inv ∧ 2 ^ 32 ≤ 50529027 * 85 ^ 1 + (85 ^ 1 - 1) :=
  ⟨⟨a85At_inv (by decide) (by decide) (by decide), rfl⟩, ⟨a85At_inv (by decide) (by decide) (by decide), by decide⟩,
    ⟨a85At_inv (by decide) (by decide) (by decide), by decide⟩, a85At_inv (by decide) (by decide) (by decide), by decide⟩

theorem witness_A85SkipAndEoi :
    (a85At 5 4 []).Inv ∧ (a85At 5 4 []).a85.io.inExhausted = true ∧ (0 : Byte).toNat ≤ 32 ∧ (32 : Byte).toNat ≤ 32 ∧
      127 ≤ (255 : Byte).toNat :=
  ⟨a85At_inv (by decide) (by decide) (by decide), by decide, by decide, by decide, by decide⟩

/-! #### ASCIIHex -/

/-- The ends of every class (R101). -/
theorem witness_AhxClass :
    classifyAhx 47 = .ahxSkip 47 ∧ classifyAhx 48 = .ahxDigit 48 ∧ classifyAhx 57 = .ahxDigit 57 ∧
      classifyAhx 58 = .ahxSkip 58 ∧ classifyAhx 62 = .ahxEnd ∧ classifyAhx 64 = .ahxSkip 64 ∧
      classifyAhx 65 = .ahxDigit 65 ∧ classifyAhx 70 = .ahxDigit 70 ∧ classifyAhx 71 = .ahxSkip 71 ∧
      classifyAhx 96 = .ahxSkip 96 ∧ classifyAhx 97 = .ahxDigit 97 ∧ classifyAhx 102 = .ahxDigit 102 ∧
      classifyAhx 103 = .ahxSkip 103 ∧
      fetch .ahx (ahxAt .stream true 1 false false []) = .got .ahxEoi (ahxAt .stream true 1 false false []) := by decide

/-- The three clauses of a digit; `'0'`, `'F'`, `'a'` and `'f'` as the ends of the digit ranges. -/
theorem witness_HexDigit :
    ((ahxAt .stream true 1 false false []).ahx.pv = true ∧ (ahxAt .stream true 1 false false []).ahx.mode = .stream) ∧
      ((ahxAt .adjacent true 1 true false []).ahx.mode = .adjacent ∧ (ahxAt .adjacent true 1 true false []).ahx.sep = true) ∧
      (ahxAt .adjacent false 1 false false []).ahx.pv = false ∧
      ((48 : Byte).toNat = 48 ∧ (70 : Byte).toNat - 55 = 15 ∧ (97 : Byte).toNat - 87 = 10 ∧ (102 : Byte).toNat - 87 = 15) := by
  decide

theorem witness_AhxSkip :
    (Instr.ahxSkip 0).wellFormed = true ∧ (Instr.ahxSkip 255).wellFormed = true ∧
      (ahxAt .adjacent true 1 false false []).ahx.fsm = .running ∧ (ahxAt .stream true 1 false false []).ahx.mode = .stream := by
  decide

/-- A pending digit with and without an earlier dropped one, and nothing left. -/
theorem witness_AhxEnd :
    (ahxAt .adjacent true 7 true false []).Inv ∧ (ahxAt .adjacent true 7 true true []).Inv ∧
      (ahxAt .adjacent true 7 true false []).ahx.io.inExhausted = true :=
  ⟨ahxAt_inv (by decide) (by decide), ahxAt_inv (by decide) (by decide), by decide⟩

/-- H11 and H12 have a separator that no later digit follows; H14 has one that does. -/
theorem witness_AdjacentDigits :
    adjacentDigits false [49, 50, 32, 51] = true ∧ adjacentDigits false [54, 49, 32, 50, 32, 62, 122, 122] = true ∧
      adjacentDigits false [54, 32, 49] = false := by decide

/-! #### Encoding -/

/-- A code at the top of its width, a byte, and an end of input. -/
theorem witness_DecodeOfEncode :
    ((Instr.lzwCorrupt 511).wellFormed = true ∧ (Instr.lzwCorrupt 511).applies (running 258) = true) ∧
      ((Instr.lzwRef 4095).wellFormed = true ∧ (Instr.lzwRef 4095).applies (running 4096) = true) ∧
      ((Instr.a85Zbad).applies { running 258 with aCnt := 4 } = true) ∧ (Instr.ahxEoi).isEoi = true := by decide

theorem witness_EncodeOfDecode :
    decode .lzw (running 259) [true, false, false, false, false, false, false, true, false, true] =
        .ok (.lzwRef 258, [true]) ∧ (Instr.lzwRef 258).isEoi = false := by decide

end Sys2Proof.Tests
end

section
/-!
PROOFS. The classes of an ASCII85 symbol (R100): each byte's class by its range, and the end of input at the fetch.
-/

namespace Sys2Proof

/-- The digit test by its range (R94). -/
theorem isA85Digit_iff {c : Byte} : isA85Digit c = true ↔ 33 ≤ c.toNat ∧ c.toNat ≤ 117 := by
  simp [isA85Digit]

/-- `'z'` by its code point (R7). -/
theorem eq_a85ZChar_iff {c : Byte} : c = a85ZChar ↔ c.toNat = 122 := BitVec.toNat_inj.symm

/-- `'~'` by its code point (R7). -/
theorem eq_a85Tilde_iff {c : Byte} : c = a85Tilde ↔ c.toNat = 126 := BitVec.toNat_inj.symm

/-- The class of an ASCII85 byte together with the condition that gives it, one disjunct per row of R100. -/
theorem classifyA85_cases (n : Nat) (c : Byte) :
    ((33 ≤ c.toNat ∧ c.toNat ≤ 117) ∧ classifyA85 n c = .a85Digit c) ∨
    ((c.toNat = 122 ∧ n = 0) ∧ classifyA85 n c = .a85Z) ∨
    ((c.toNat = 122 ∧ n ≠ 0) ∧ classifyA85 n c = .a85Zbad) ∨
    (c.toNat = 126 ∧ classifyA85 n c = .a85End) ∨
    ((c.toNat ≤ 32 ∨ (118 ≤ c.toNat ∧ c.toNat ≤ 121) ∨ (123 ≤ c.toNat ∧ c.toNat ≤ 125) ∨ 127 ≤ c.toNat) ∧
      classifyA85 n c = .a85Skip c) := by
  simp only [classifyA85, isA85Digit_iff, eq_a85ZChar_iff, eq_a85Tilde_iff]
  split
  case isTrue hdigit => exact .inl ⟨hdigit, rfl⟩
  case isFalse hdigit =>
    split
    case isTrue hz =>
      split
      case isTrue hn => exact .inr (.inl ⟨⟨hz, hn⟩, rfl⟩)
      case isFalse hn => exact .inr (.inr (.inl ⟨⟨hz, hn⟩, rfl⟩))
    case isFalse hz =>
      split
      case isTrue htilde => exact .inr (.inr (.inr (.inl ⟨htilde, rfl⟩)))
      case isFalse htilde => exact .inr (.inr (.inr (.inr ⟨by omega, rfl⟩)))

/-- A byte that is there is never classed as the end of input. -/
theorem classifyA85_ne_a85Eoi (n : Nat) (c : Byte) : classifyA85 n c ≠ .a85Eoi := by
  obtain ⟨-, h⟩ | ⟨-, h⟩ | ⟨-, h⟩ | ⟨-, h⟩ | ⟨-, h⟩ := classifyA85_cases n c <;> simp [h]

namespace Machine

theorem Stream.inExhausted_iff {io : Stream} : io.inExhausted = true ↔ io.inp.length ≤ io.ipos ∧ io.eof = true := by
  simp [Stream.inExhausted]

/-- An exhausted stream offers no byte (R12). -/
theorem Stream.inNext_of_inExhausted {io : Stream} (h : io.inExhausted = true) : io.inNext = none :=
  (Stream.inNext_nil (List.drop_eq_nil_of_le (Stream.inExhausted_iff.mp h).1)).1

/-- The ASCII85 fetch meets the end of input exactly where the engine runs and its stream is exhausted, and consumes
nothing (R100, R170). -/
theorem fetchA85_eq_eoi_iff {s t : State} :
    fetchA85 s = .got .a85Eoi t ↔ s.a85.fsm = .running ∧ s.a85.io.inExhausted = true ∧ t = s := by
  constructor
  · intro h
    obtain ⟨hf, ⟨c, io, -, hc, -⟩ | ⟨-, he, -, ht⟩⟩ := fetchA85_got h
    · exact absurd hc.symm (classifyA85_ne_a85Eoi _ c)
    · exact ⟨hf, he, ht⟩
  · rintro ⟨hf, he, rfl⟩
    simp [fetchA85, hf, he, Stream.inNext_of_inExhausted he]

end Machine

/-- Settles O41: the rows of R100 have disjoint conditions and distinct classes, so the row that `classifyA85_cases` finds
decides each equivalence. -/
theorem a85ByteHasExactlyOneClass : Obligations.A85ByteHasExactlyOneClass := by
  refine ⟨fun n c => ?_, fun s t => Machine.fetchA85_eq_eoi_iff⟩
  obtain ⟨hrow, hclass⟩ | ⟨hrow, hclass⟩ | ⟨hrow, hclass⟩ | ⟨hrow, hclass⟩ | ⟨hrow, hclass⟩ := classifyA85_cases n c <;>
    simp only [hclass, reduceCtorEq, true_or, or_true, and_true, true_iff, false_iff] <;> omega

end Sys2Proof
end

section
/-!
PROOFS. The LZW classes (spec/41_lzw.md): the state each meaning leaves where its class applies, and with it the
statements about the single classes.
-/

namespace Sys2Proof

theorem isDataCode_iff {code : Code} : isDataCode code = true ↔ code.toNat ≠ 256 ∧ code.toNat ≠ 257 := by
  simp [isDataCode]

namespace Machine

variable {s : State} {code : Code}

/-! ### Each meaning where its class applies -/

theorem exec_lzwEoi (hf : s.lzw.fsm ≠ .terminated) (hr : s.lzw.resp = .endOfInput) :
    exec .lzwEoi s = .next (raise .lzw .endOfInput 0 s) := if_pos ⟨hf, hr⟩

theorem exec_lzwClear (hf : s.lzw.fsm ≠ .terminated) :
    exec .lzwClear s = .next { s with lzw := { s.lzw.tableReset with fsm := .running } } := by
  simp [exec, execLzwClear, hf]

theorem exec_lzwEod (hf : s.lzw.fsm ≠ .terminated) : exec .lzwEod s = .next (raise .lzw .endOfData 0 s) := if_pos hf

theorem exec_lzwNoclear (hf : s.lzw.fsm = .awaitingClear) (hd : isDataCode code = true) :
    exec (.lzwNoclear code) s = .next (raise .lzw .corruptTable code s) := if_pos ⟨hf, hd⟩

theorem exec_lzwFirst (hf : s.lzw.fsm = .running) (hp : s.lzw.prev = []) (hc : code.toNat ≤ 255) :
    exec (.lzwFirst code) s = .next { s with lzw := { s.lzw with
      prev := [BitVec.ofNat 8 code.toNat], io := s.lzw.io.emit [BitVec.ofNat 8 code.toNat] } } := by
  rw [exec, execLzwFirst, if_pos ⟨hf, hp, hc⟩, Memory.read_literal _ (by omega)]
  rfl

theorem exec_lzwBadfirst (hf : s.lzw.fsm = .running) (hp : s.lzw.prev = []) (hc : 258 ≤ code.toNat) :
    exec (.lzwBadfirst code) s = .next (raise .lzw .corruptTable code s) := if_pos ⟨hf, hp, hc⟩

theorem exec_lzwRef {b : Byte} {x : Bytes} (hf : s.lzw.fsm = .running) (hp : s.lzw.prev ≠ [])
    (hc : code.toNat < s.lzw.tlen) (hd : isDataCode code = true) (hread : s.lzw.table.read code.toNat = some (b :: x)) :
    exec (.lzwRef code) s = .next (appendEmit s (s.lzw.prev ++ [b]) (b :: x)) := by
  rw [exec, execLzwRef, if_pos ⟨hf, hp, hc, hd⟩]
  simp only [hread, first?, State.emit_lzw, Lzw.append_io]
  rfl

theorem exec_lzwKwkwk {b : Byte} {x : Bytes} (hf : s.lzw.fsm = .running) (hp : s.lzw.prev = b :: x)
    (hc : code.toNat = s.lzw.tlen) (hd : isDataCode code = true) :
    exec (.lzwKwkwk code) s = .next (appendEmit s (b :: x ++ [b]) (b :: x ++ [b])) := by
  rw [exec, execLzwKwkwk, if_pos ⟨hf, by simp [hp], hc, hd⟩]
  simp only [hp, first?, State.emit_lzw, Lzw.append_io]
  rfl

theorem exec_lzwCorrupt (hf : s.lzw.fsm = .running) (hp : s.lzw.prev ≠ []) (hc : s.lzw.tlen < code.toNat)
    (hd : isDataCode code = true) : exec (.lzwCorrupt code) s = .next (raise .lzw .corruptTable code s) :=
  if_pos ⟨hf, hp, hc, hd⟩

/-- The frame of an append with an emission: `OUT`, `prev`, the table and `tlen` aside, all stays (R145, R146). -/
theorem appendEmit_frame (s : State) (entry chunk : Bytes) :
    SameInput s.lzw (appendEmit s entry chunk).lzw ∧ SameStatus s.lzw.io (appendEmit s entry chunk).lzw.io ∧
      SameSupply s.lzw.io (appendEmit s entry chunk).lzw.io ∧ SameElsewhere .lzw s (appendEmit s entry chunk) := by
  simp [appendEmit, SameInput, SameStatus, SameSupply, SameElsewhere]

/-- The slot an append fills, below the capacity (R70). -/
theorem appendEmit_append (h : s.Inv) (hlt : s.lzw.tlen < 4096) (entry chunk : Bytes) :
    (appendEmit s entry chunk).lzw.tlen = s.lzw.tlen + 1 ∧
      (appendEmit s entry chunk).lzw.table.read s.lzw.tlen = some entry := by
  obtain ⟨-, he⟩ | ⟨hge, -⟩ := s.lzw.append_cases entry
  · simp only [appendEmit, he]
    exact ⟨trivial, Memory.read_write_self _ _ h.lzw.tlen_lo hlt⟩
  · omega

/-- A full table takes no entry (R28, D9). -/
theorem appendEmit_full (hfull : s.lzw.tlen = 4096) (entry chunk : Bytes) :
    (appendEmit s entry chunk).lzw.tlen = 4096 ∧ (appendEmit s entry chunk).lzw.table = s.lzw.table := by
  obtain ⟨hlt, -⟩ | ⟨-, he⟩ := s.lzw.append_cases entry
  · omega
  · simp only [appendEmit, he]
    exact ⟨hfull, trivial⟩

/-- What `raise` with no failure cause leaves of an LZW engine that still runs: `err` stays 0, and `info` too for a cause
that has none (R211). -/
theorem raise_lzw_endsWith (h : s.lzw.Inv) (hf : s.lzw.fsm ≠ .terminated) {c : Cause} {v : BitVec 12}
    (hc : c.isFailure = false) (hv : c.hasInfo = false → v = 0) :
    EndsWith .lzw c false v s (raise .lzw c v s) ∧ (raise .lzw c v s).status .lzw = (c.code, false, v) := by
  obtain ⟨-, herr, hinfo⟩ := (h.running_io hf).status
  have hio : s.lzw.io.raise c v = { s.lzw.io with cause := c, err := false, info := v } := by
    simp only [Stream.raise, hc, herr, hinfo]
    cases hi : c.hasInfo with
    | true => rfl
    | false => rw [hv hi]; rfl
  constructor
  · simp only [EndsWith, raise_lzw, hio]
    rfl
  · simp only [State.status, raise_lzw, State.io_lzw, hio]

end Machine

open Machine

/-! ### The statements about single classes -/

/-- Settles O25: `LZW.CLEAR` writes `tlen`, `prev` and `fsm` alone. -/
theorem clearResetsTheTable : Obligations.ClearResetsTheTable := by
  intro s hf
  refine ⟨_, exec_lzwClear hf, rfl, rfl, rfl, rfl, rfl, fun _ => rfl, ?_, ?_⟩
  · simp [SameInput, Lzw.tableReset]
  · simp [SameElsewhere]

/-- Settles O26: `LZW.EOD` is `raise` with a cause that has no `info`. -/
theorem endOfDataTerminates : Obligations.EndOfDataTerminates := by
  intro s h hf
  obtain ⟨hends, hstatus⟩ := raise_lzw_endsWith h.lzw hf (c := .endOfData) (v := 0) rfl fun _ => rfl
  obtain ⟨-, herr, hinfo⟩ := (h.lzw.running_io hf).status
  exact ⟨_, exec_lzwEod hf, hends, hstatus, herr, hinfo⟩

/-- Settles O27: `LZW.EOI` is `raise` with a cause that has no `info`. -/
theorem endOfInputTerminatesLzw : Obligations.EndOfInputTerminatesLzw := by
  intro s h hf hr
  exact ⟨_, exec_lzwEoi hf hr, raise_lzw_endsWith h.lzw hf rfl fun _ => rfl⟩

/-- Settles O28: `LZW.FIRST` writes `OUT` and `prev` alone, and `tlen` is 258 because `prev` is empty. -/
theorem firstLiteralIsEmitted : Obligations.FirstLiteralIsEmitted := by
  intro s code h hf hp hc
  have htlen : s.lzw.tlen = 258 := h.lzw.prev_nil hp
  refine ⟨_, exec_lzwFirst hf hp hc, rfl, rfl, htlen, htlen, ?_, hf, fun _ => rfl, ?_⟩
  · rw [show width s.lzw.tlen = width 258 by rw [htlen]]
    rfl
  · simp [SameInput, SameStatus, SameSupply, SameElsewhere]

/-- Settles O29: below `tlen` every slot but the two reserved ones holds a non-empty entry, so `LZW.REF` emits it and
appends. -/
theorem refEmitsAnEntryAndAppends : Obligations.RefEmitsAnEntryAndAppends := by
  intro s code h hf hp hc h256 h257
  obtain ⟨b, x, hread⟩ := h.lzw.readable hc h256 h257
  refine ⟨_, b, x, exec_lzwRef hf hp hc (isDataCode_iff.mpr ⟨h256, h257⟩) hread, hread, rfl, rfl,
    (Lzw.append_fsm _ _).trans hf, fun hlt => appendEmit_append h hlt _ _, fun hfull => ?_,
    fun i hi => Lzw.append_read_of_ne _ _ hi, appendEmit_frame _ _ _⟩
  obtain ⟨htlen, htable⟩ := appendEmit_full hfull (s.lzw.prev ++ [b]) (b :: x)
  exact ⟨htlen, fun i => congrArg (Memory.read · i) htable⟩

/-- Settles O30: a code equal to `tlen` has 12 bits, so the table has room and the synthesized entry is appended. -/
theorem kwkwkEmitsTheNewEntry : Obligations.KwkwkEmitsTheNewEntry := by
  intro s code b x h hf hp hc
  have hlo := h.lzw.tlen_lo
  have hroom : s.lzw.tlen < 4096 := hc ▸ code.isLt
  obtain ⟨htlen, hslot⟩ := appendEmit_append h hroom (b :: x ++ [b]) (b :: x ++ [b])
  exact ⟨_, exec_lzwKwkwk hf hp hc (isDataCode_iff.mpr (by omega)), rfl, rfl, htlen, (Lzw.append_fsm _ _).trans hf,
    hc ▸ hslot, fun i hi => Lzw.append_read_of_ne _ _ hi, appendEmit_frame _ _ _⟩

/-- Settles O31: `LZW.CORRUPT` is `raise` with the code as `info`; a code beyond `tlen` is no control code. -/
theorem corruptCodeTerminates : Obligations.CorruptCodeTerminates := by
  intro s code h hf hp hc
  have hlo := h.lzw.tlen_lo
  exact ⟨_, exec_lzwCorrupt hf hp hc (isDataCode_iff.mpr (by omega)),
    raise_lzw_endsWith h.lzw (by simp [hf]) rfl nofun⟩

end Sys2Proof
end

section
/-!
PROOFS. The transitions of `fsm` (spec/41_lzw.md R150): by the classes, and over every step of the block but a reset.
-/

namespace Sys2Proof
namespace Machine

variable {s t : State} {e : Engine}

/-- A host action, opened once: a reset, a step of an engine, or new streams for one engine. -/
theorem hostStep_next {a : HostAct} (h : hostStep a s = .next t) :
    (∃ e, a = .rst e ∧ t = hwReset e s) ∨ (∃ e, a = .run e ∧ engineStep e { s with active := e } = .next t) ∨
      t = s ∨ ∃ e io, t = s.setIo e io := by
  cases a with
  | rst e =>
    cases h
    exact .inl ⟨e, rfl, rfl⟩
  | run e => exact .inr (.inl ⟨e, rfl, h⟩)
  | eof e =>
    cases h
    exact .inr (.inr (.inr ⟨e, _, rfl⟩))
  | offer e b =>
    simp only [hostStep, hostOffer] at h
    split at h
    · cases h
      exact .inr (.inr (.inl rfl))
    · split at h <;> cases h
      exact .inr (.inr (.inr ⟨e, _, rfl⟩))
  | take e =>
    simp only [hostStep, hostTake] at h
    split at h <;> cases h
    · exact .inr (.inr (.inr ⟨e, _, rfl⟩))
    · exact .inr (.inr (.inl rfl))

/-- New streams of an engine leave the LZW state register as it is. -/
@[simp] theorem State.setIo_lzw_fsm (s : State) (e : Engine) (io : Stream) : (s.setIo e io).lzw.fsm = s.lzw.fsm := by
  cases e <;> rfl

/-- A step of an engine neither leads back to `AwaitingClear` nor out of `Terminated` (R150, R216). -/
theorem engineStep_lzw_fsm (h : engineStep e s = .next t) :
    (t.lzw.fsm = .awaitingClear → s.lzw.fsm = .awaitingClear) ∧ (s.lzw.fsm = .terminated → t.lzw.fsm = .terminated) := by
  refine ⟨(engineStep_hostSide h).2.2, fun hf => ?_⟩
  obtain ⟨-, rfl⟩ | ⟨-, i, u, hfetch, -⟩ := engineStep_next h
  · exact hf
  · obtain ⟨helse, -⟩ := engineStep_elsewhere h
    have hne : e ≠ .lzw := by
      rintro rfl
      exact fetchLzw_running hfetch hf
    rw [helse hne, hf]

/-- No meaning of the LZW engine runs in `Terminated`; in `AwaitingClear` only CLEAR goes on, to `Running`; and which
classes end the decode in each state (R150). -/
theorem exec_lzw_fsm {i : Instr} (hu : i.unit = .lzw) (h : exec i s = .next t) :
    s.lzw.fsm ≠ .terminated ∧
    (s.lzw.fsm = .awaitingClear →
      (i = .lzwClear ∧ t.lzw.fsm = .running) ∨
      ((i = .lzwEod ∨ i = .lzwEoi ∨ ∃ c, i = .lzwNoclear c) ∧ t.lzw.fsm = .terminated)) ∧
    (s.lzw.fsm = .running →
      ((i = .lzwClear ∨ ∃ c, i = .lzwFirst c ∨ i = .lzwRef c ∨ i = .lzwKwkwk c) ∧ t.lzw.fsm = .running) ∨
      ((i = .lzwEod ∨ i = .lzwEoi ∨ ∃ c, i = .lzwCorrupt c ∨ i = .lzwBadfirst c) ∧ t.lzw.fsm = .terminated)) := by
  cases i with
  | lzwEoi => obtain ⟨hf, -, rfl⟩ := execLzwEoi_next h; simp [hf]
  | lzwClear => obtain ⟨hf, rfl⟩ := execLzwClear_next h; simp [hf]
  | lzwEod => obtain ⟨hf, rfl⟩ := execLzwEod_next h; simp [hf]
  | lzwNoclear code => obtain ⟨hf, -, rfl⟩ := execLzwNoclear_next h; simp [hf]
  | lzwFirst code => obtain ⟨hf, -, -, rfl⟩ := execLzwFirst_next h; simp [hf]
  | lzwBadfirst code => obtain ⟨hf, -, -, rfl⟩ := execLzwBadfirst_next h; simp [hf]
  | lzwRef code => obtain ⟨hf, -, -, -, b, x, -, rfl⟩ := execLzwRef_next h; simp [hf, appendEmit]
  | lzwKwkwk code => obtain ⟨hf, -, -, b, x, -, rfl⟩ := execLzwKwkwk_next h; simp [hf, appendEmit]
  | lzwCorrupt code => obtain ⟨hf, -, -, -, rfl⟩ := execLzwCorrupt_next h; simp [hf]
  | _ => cases hu

/-- A step of the block other than a reset of the LZW engine keeps `fsm` out of `AwaitingClear` and in `Terminated`. -/
theorem step_lzw_fsm (h : step s = .next t) (hrst : ∀ rest, s.host ≠ .rst .lzw :: rest) :
    (t.lzw.fsm = .awaitingClear → s.lzw.fsm = .awaitingClear) ∧ (s.lzw.fsm = .terminated → t.lzw.fsm = .terminated) := by
  obtain ⟨-, hstep⟩ | ⟨a, rest, hhost, hstep⟩ := step_eq s
  · exact engineStep_lzw_fsm (hstep.symm.trans h)
  · obtain ⟨e, rfl, rfl⟩ | ⟨e, rfl, hrun⟩ | rfl | ⟨e, io, rfl⟩ := hostStep_next (hstep.symm.trans h)
    · cases e with
      | lzw => exact absurd hhost (hrst rest)
      | a85 => exact ⟨id, id⟩
      | ahx => exact ⟨id, id⟩
    · exact engineStep_lzw_fsm (s := { s with active := e, host := rest }) hrun
    · exact ⟨id, id⟩
    · simp

end Machine

/-- Settles O33: the table of R150 is that of the meanings, and no step but a reset is a way back. -/
theorem lzwStateTransitions : Obligations.LzwStateTransitions :=
  ⟨fun _ _ _ hu h => Machine.exec_lzw_fsm hu h, fun _ => rfl, fun _ _ h hrst => Machine.step_lzw_fsm h hrst⟩

end Sys2Proof
end

section
/-!
PROOFS. Every LZW decode ends (spec/41_lzw.md R152). A step of a running engine whose input is complete consumes a code of
at least 9 bits or terminates; so the 9 bits that each remaining step would need run out.
-/

namespace Sys2Proof

/-- An LZW engine that neither awaits its CLEAR nor has terminated is running (R26). -/
theorem LzwFsm.eq_running {f : LzwFsm} (haw : f ≠ .awaitingClear) (hf : f ≠ .terminated) : f = .running := by
  cases f with
  | running => rfl
  | awaitingClear => exact absurd rfl haw
  | terminated => exact absurd rfl hf

/-- The class of a code together with the condition that gives it, row by row of R98. -/
theorem classifyCode_cases (k : Context) (code : Code) :
    (code.toNat = 256 ∧ classifyCode k code = .lzwClear) ∨
    (code.toNat = 257 ∧ classifyCode k code = .lzwEod) ∨
    (isDataCode code = true ∧
      ((k.fsm = .awaitingClear ∧ classifyCode k code = .lzwNoclear code) ∨
      (k.fsm ≠ .awaitingClear ∧
        ((k.prevEmpty = true ∧
          ((code.toNat ≤ 255 ∧ classifyCode k code = .lzwFirst code) ∨
          (258 ≤ code.toNat ∧ classifyCode k code = .lzwBadfirst code))) ∨
        (k.prevEmpty = false ∧
          ((code.toNat < k.tlen ∧ classifyCode k code = .lzwRef code) ∨
          (code.toNat = k.tlen ∧ classifyCode k code = .lzwKwkwk code) ∨
          (k.tlen < code.toNat ∧ classifyCode k code = .lzwCorrupt code))))))) := by
  by_cases h256 : code.toNat = 256
  · simp [classifyCode, h256]
  by_cases h257 : code.toNat = 257
  · simp [classifyCode, h257]
  refine .inr (.inr ⟨isDataCode_iff.mpr ⟨h256, h257⟩, ?_⟩)
  by_cases haw : k.fsm = .awaitingClear
  · simp [classifyCode, h256, h257, haw]
  refine .inr ⟨haw, ?_⟩
  cases hp : k.prevEmpty with
  | true =>
    by_cases hle : code.toNat ≤ 255
    · simp [classifyCode, h256, h257, haw, hp, hle]
    · exact .inl ⟨rfl, .inr ⟨by omega, by simp [classifyCode, h256, h257, haw, hp, hle]⟩⟩
  | false =>
    refine .inr ⟨rfl, ?_⟩
    obtain hlt | heq | hgt := Nat.lt_trichotomy code.toNat k.tlen
    · simp [classifyCode, h256, h257, haw, hp, hlt]
    · simp [classifyCode, ← heq, h256, h257, haw, hp]
    · simp [classifyCode, h256, h257, haw, hp, hgt, Nat.not_lt.mpr hgt.le, hgt.ne']

namespace Machine

variable {s t : State} {i : Instr}

/-! ### What a step of a running engine leaves -/

/-- What an LZW meaning can do to the engine: end the decode, reset the table, emit the first literal, or append an
entry one byte longer than `prev` and emit a chunk that is an entry or as long as the one appended. -/
inductive LzwEffect (s : State) : State → Prop where
  | ends (c : Cause) (v : BitVec 12) (hf : s.lzw.fsm ≠ .terminated)
      (hc : c ∈ [Cause.endOfData, .endOfInput, .corruptTable]) :
      LzwEffect s (raise .lzw c v s)
  | clear (hf : s.lzw.fsm ≠ .terminated) : LzwEffect s { s with lzw := { s.lzw.tableReset with fsm := .running } }
  | first (b : Byte) (hf : s.lzw.fsm = .running) :
      LzwEffect s { s with lzw := { s.lzw with prev := [b], io := s.lzw.io.emit [b] } }
  | append (b : Byte) (chunk : Bytes) (hf : s.lzw.fsm = .running) (hp : s.lzw.prev ≠ []) (hne : chunk ≠ [])
      (hchunk : (∃ k, k < s.lzw.tlen ∧ s.lzw.table.read k = some chunk) ∨
        (s.lzw.tlen < 4096 ∧ chunk.length = s.lzw.prev.length + 1)) :
      LzwEffect s (appendEmit s (s.lzw.prev ++ [b]) chunk)

/-- Every LZW meaning has one of these effects. -/
theorem exec_lzw_effect (hu : i.unit = .lzw) (h : exec i s = .next t) : LzwEffect s t := by
  cases i with
  | lzwEoi => obtain ⟨hf, -, rfl⟩ := execLzwEoi_next h; exact .ends _ _ hf (by simp)
  | lzwClear => obtain ⟨hf, rfl⟩ := execLzwClear_next h; exact .clear hf
  | lzwEod => obtain ⟨hf, rfl⟩ := execLzwEod_next h; exact .ends _ _ hf (by simp)
  | lzwNoclear code => obtain ⟨hf, -, rfl⟩ := execLzwNoclear_next h; exact .ends _ _ (by simp [hf]) (by simp)
  | lzwFirst code => obtain ⟨hf, -, -, rfl⟩ := execLzwFirst_next h; exact .first _ hf
  | lzwBadfirst code => obtain ⟨hf, -, -, rfl⟩ := execLzwBadfirst_next h; exact .ends _ _ (by simp [hf]) (by simp)
  | lzwRef code =>
    obtain ⟨hf, hp, hlt, -, b, x, hread, rfl⟩ := execLzwRef_next h
    exact .append b _ hf hp (by simp) (.inl ⟨_, hlt, hread⟩)
  | lzwKwkwk code =>
    obtain ⟨hf, hlen, -, b, x, hp, rfl⟩ := execLzwKwkwk_next h
    have heffect := LzwEffect.append b (s.lzw.prev ++ [b]) hf (by simp [hp]) (by simp)
      (.inr ⟨hlen ▸ code.isLt, by simp⟩)
    rwa [hp] at heffect
  | lzwCorrupt code => obtain ⟨hf, -, -, -, rfl⟩ := execLzwCorrupt_next h; exact .ends _ _ (by simp [hf]) (by simp)
  | _ => cases hu

/-- Every effect keeps the engine's invariant: a chunk is no longer than `prev` may be at the new `tlen` (R31). -/
theorem LzwEffect.inv (h : LzwEffect s t) (hs : s.lzw.Inv) : t.lzw.Inv := by
  cases h with
  | ends c v hf hc => exact hs.raise hf v hc
  | clear hf => exact hs.clear hf
  | first b hf => exact hs.first hf b
  | append b chunk hf hp hne hchunk =>
    refine hs.appendEmit hf hp hne ?_
    obtain ⟨k, hk, hread⟩ | ⟨hroom, hlen⟩ := hchunk
    · have hle := (hs.read_length hk hread).2
      exact hle.trans (by split <;> omega)
    · have hprev := hs.prev_len
      have hlo := hs.tlen_lo
      rw [if_pos hroom]
      omega

/-- Every LZW meaning keeps the invariant of the block. -/
theorem exec_lzw_inv (hu : i.unit = .lzw) (h : exec i s = .next t) (hs : s.Inv) : t.Inv := by
  have helse := exec_elsewhere h
  rw [hu] at helse
  obtain ⟨-, ha85, hahx, -⟩ := helse
  exact ⟨(exec_lzw_effect hu h).inv hs.lzw, ha85 nofun ▸ hs.a85, hahx nofun ▸ hs.ahx⟩

/-- No effect moves the bit cursor: a code's bits are consumed by its fetch (R140). -/
theorem LzwEffect.bitPos (h : LzwEffect s t) : t.lzw.bitPos = s.lzw.bitPos := by
  cases h with
  | append b chunk => simp [Lzw.bitPos, appendEmit]
  | _ => rfl

/-- Every code has a class that applies to it, so a running engine's code always has a meaning (R98). -/
theorem exec_classifyCode (hs : s.Inv) (hf : s.lzw.fsm ≠ .terminated) (code : Code) :
    ∃ t, exec (classifyCode s.context code) s = .next t := by
  obtain ⟨-, hclass⟩ | ⟨-, hclass⟩ | ⟨hd, ⟨haw, hclass⟩ | ⟨haw, hdata⟩⟩ := classifyCode_cases s.context code
  · exact ⟨_, hclass ▸ exec_lzwClear hf⟩
  · exact ⟨_, hclass ▸ exec_lzwEod hf⟩
  · exact ⟨_, hclass ▸ exec_lzwNoclear haw hd⟩
  have hrun : s.lzw.fsm = .running := LzwFsm.eq_running haw hf
  obtain ⟨hp, hfirst⟩ | ⟨hp, hlater⟩ := hdata
  · have hp : s.lzw.prev = [] := List.isEmpty_iff.mp hp
    obtain ⟨hle, hclass⟩ | ⟨hge, hclass⟩ := hfirst
    · exact ⟨_, hclass ▸ exec_lzwFirst hrun hp hle⟩
    · exact ⟨_, hclass ▸ exec_lzwBadfirst hrun hp hge⟩
  · have hp : s.lzw.prev ≠ [] := List.isEmpty_eq_false_iff.mp hp
    obtain ⟨hlt, hclass⟩ | ⟨heq, hclass⟩ | ⟨hgt, hclass⟩ := hlater
    · obtain ⟨h256, h257⟩ := isDataCode_iff.mp hd
      obtain ⟨b, x, hread⟩ := hs.lzw.readable hlt h256 h257
      exact ⟨_, hclass ▸ exec_lzwRef hrun hp hlt hd hread⟩
    · obtain ⟨b, x, hprev⟩ := List.exists_cons_of_ne_nil hp
      exact ⟨_, hclass ▸ exec_lzwKwkwk hrun hprev heq hd⟩
    · exact ⟨_, hclass ▸ exec_lzwCorrupt hrun hp hgt hd⟩

/-- A moved bit cursor changes nothing that a class depends on. -/
theorem CursorMoved.context {e : Lzw} (h : CursorMoved s.lzw e) :
    ({ s with lzw := e } : State).context = s.context := by
  rw [State.context, h.same]
  rfl

theorem CursorMoved.fsm {e e' : Lzw} (h : CursorMoved e e') : e'.fsm = e.fsm := by rw [h.same]

theorem CursorMoved.inp {e e' : Lzw} (h : CursorMoved e e') : e'.io.inp = e.io.inp := by rw [h.same]

/-! ### The engine of a whole decode -/

/-- A decode under way whose input is complete: the LZW engine is active and nothing else is to happen. -/
structure Decoding (s : State) : Prop where
  inv : s.Inv
  host : s.host = []
  active : s.active = .lzw
  req : s.lzw.req = none
  eof : s.lzw.io.eof = true

/-- A running engine with its input complete fetches a code and stands behind its bits, or terminates for want of bits. -/
theorem Decoding.exists_fetch (h : Decoding s) (hf : s.lzw.fsm ≠ .terminated) :
    ∃ i u t, fetch .lzw s = .got i u ∧ i.unit = .lzw ∧ exec i u = .next t ∧
      (t.lzw.fsm = .terminated ∨ s.lzw.bitPos + 9 ≤ u.lzw.bitPos) := by
  obtain ⟨hcode, hend, -⟩ := fetchCode_spec h.inv
  rw [fetchLzw_noreq h.req hf]
  by_cases hlen : width s.lzw.tlen ≤ s.lzw.unread.length
  · obtain ⟨e, hfetch, hmoved, hunread⟩ := hcode hlen
    have hinv : ({ s with lzw := e } : State).Inv := ⟨h.inv.lzw.cursorMoved hmoved, h.inv.a85, h.inv.ahx⟩
    obtain ⟨t, ht⟩ := exec_classifyCode hinv (hmoved.fsm.trans_ne hf)
      (BitVec.ofNat 12 (bitsValue (s.lzw.unread.take (width s.lzw.tlen))))
    rw [hmoved.context] at ht
    refine ⟨_, _, t, hfetch, classifyCode_unit _ _, ht, .inr ?_⟩
    have hwidth := (width_range s.lzw.tlen).1
    have hbefore := h.inv.lzw.bitPos_add
    have hafter := hinv.lzw.bitPos_add
    simp only [hunread, hmoved.inp, List.length_drop] at hafter
    show _ ≤ e.bitPos
    omega
  · obtain ⟨e, hfetch, hmoved, hresp, -⟩ := hend (by omega) h.eof
    exact ⟨_, _, _, hfetch, rfl, exec_lzwEoi (hmoved.fsm.trans_ne hf) hresp, .inl rfl⟩

/-- A step of the engine keeps a decode under way. -/
theorem Decoding.of_engineStep (h : Decoding s) (hinv : t.Inv) (hstep : engineStep .lzw s = .next t) : Decoding t := by
  obtain ⟨hio, hreq, -⟩ := engineStep_hostSide hstep
  obtain ⟨-, -, -, hactive, hhost⟩ := engineStep_elsewhere hstep
  exact ⟨hinv, hhost.trans h.host, hactive.trans h.active, hreq h.req, ((hio .lzw).2.1).trans h.eof⟩

theorem Decoding.step_eq_engineStep (h : Decoding s) : step s = engineStep .lzw s := by
  rw [step, h.host, ← h.active]

/-- A step with room in the output staging consumes at least 9 bits or terminates (R152). -/
theorem Decoding.exists_step (h : Decoding s) (hf : s.lzw.fsm ≠ .terminated) (hroom : s.outFull .lzw = false) :
    ∃ t, step s = .next t ∧ Decoding t ∧ (t.lzw.fsm = .terminated ∨ s.lzw.bitPos + 9 ≤ t.lzw.bitPos) := by
  obtain ⟨i, u, t, hfetch, hunit, hexec, hprogress⟩ := h.exists_fetch hf
  have hstep : engineStep .lzw s = .next t := by rw [engineStep_room hroom, hfetch]; exact hexec
  have hinv : t.Inv := exec_lzw_inv hunit hexec (fetch_inv h.inv hfetch)
  refine ⟨t, h.step_eq_engineStep.trans hstep, h.of_engineStep hinv hstep, ?_⟩
  rwa [(exec_lzw_effect hunit hexec).bitPos]

/-- A terminated engine stays as it is (R216). -/
theorem Decoding.step_terminated (h : Decoding s) (hf : s.lzw.fsm = .terminated) : step s = .next s := by
  rw [h.step_eq_engineStep]
  unfold engineStep
  simp [fetch, fetchLzw, hf]

/-- The consumer's transfers leave a decode under way. -/
theorem Decoding.drained (h : Decoding s) : Decoding (s.drained .lzw) :=
  { inv := ⟨{ h.inv.lzw with io := { h.inv.lzw.io with taken_le := le_refl _ } }, h.inv.a85, h.inv.ahx⟩
    host := h.host, active := h.active, req := h.req, eof := h.eof }

/-! ### Termination -/

/-- The engine has terminated, or fewer bits are unread than `k` codes of 9 bits take. -/
def EndsWithin (k : Nat) (s : State) : Prop := s.lzw.fsm = .terminated ∨ 8 * s.lzw.io.inp.length < s.lzw.bitPos + 9 * k

/-- Each step under a consumer that keeps its duty brings the end one step nearer. -/
theorem EndsWithin.exists_step {k : Nat} (h : EndsWithin (k + 1) s) (hd : Decoding s) :
    ∃ t, step (s.drained .lzw) = .next t ∧ Decoding t ∧ EndsWithin k t := by
  by_cases hf : s.lzw.fsm = .terminated
  · exact ⟨_, hd.drained.step_terminated hf, hd.drained, .inl hf⟩
  · obtain ⟨t, hstep, hdt, hprogress⟩ := hd.drained.exists_step hf (State.outFull_drained s .lzw)
    refine ⟨t, hstep, hdt, hprogress.imp_right fun hbits => ?_⟩
    have hengine : engineStep .lzw (s.drained .lzw) = .next t := hd.drained.step_eq_engineStep.symm.trans hstep
    have hinp : t.lzw.io.inp = s.lzw.io.inp := ((engineStep_hostSide hengine).1 .lzw).1
    have hunread := h.resolve_left hf
    have hbits : s.lzw.bitPos + 9 ≤ t.lzw.bitPos := hbits
    rw [hinp]
    omega

/-- A run of as many steps as 9-bit codes would overrun the input ends terminated. -/
theorem EndsWithin.run_terminates {k : Nat} (h : EndsWithin k s) (hd : Decoding s) :
    ∃ t, run .lzw k s = .next t ∧ t.Inv ∧ t.lzw.fsm = .terminated := by
  induction k generalizing s with
  | zero =>
    refine ⟨s, rfl, hd.inv, h.resolve_right fun hover => ?_⟩
    have := hd.inv.lzw.bitPos_add
    omega
  | succ k ih =>
    obtain ⟨t, hstep, hdt, hk⟩ := h.exists_step hd
    obtain ⟨u, hrun, hu⟩ := ih hk hdt
    exact ⟨u, by rw [run, hstep]; exact hrun, hu⟩

/-- What the status registers of a terminated LZW engine say (R37, R210). -/
theorem Lzw.Inv.terminated_status {e : Lzw} (h : e.Inv) (hf : e.fsm = .terminated) :
    (e.io.cause = .endOfData ∨ e.io.cause = .endOfInput ∨ e.io.cause = .corruptTable) ∧ e.io.err = false := by
  have hne : e.io.cause ≠ .none := by simp [h.io.cause_iff, hf]
  have hcause : e.io.cause = .endOfData ∨ e.io.cause = .endOfInput ∨ e.io.cause = .corruptTable := by
    simpa [hne] using h.causes
  refine ⟨hcause, ?_⟩
  rw [h.io.err_eq]
  obtain hc | hc | hc := hcause <;> rw [hc] <;> rfl

/-! ### The start of a decode -/

/-- The streams of an engine that is about to decode `bytes`. -/
theorem Stream.reset_supplied_inv (bytes : Bytes) (eof : Bool) :
    ({ Stream.reset with inp := bytes, eof := eof } : Stream).Inv false :=
  { ipos_le := Nat.zero_le _, taken_le := le_refl _, cause_iff := ⟨fun _ => rfl, fun _ => rfl⟩, err_eq := rfl
    info_eq := fun _ => rfl }

/-- An LZW decode about to begin meets the invariant. -/
theorem startDecode_lzw_inv (m : PairMode) (bytes : Bytes) : (startDecode .lzw m bytes).Inv where
  lzw :=
    { io := Stream.reset_supplied_inv bytes true
      causes := List.mem_cons_self, tlen_lo := le_refl 258, tlen_hi := by show 258 ≤ 4096; omega
      table_wf := Memory.wf_reset m, slots := fun i hlo hhi => absurd hhi (not_lt.mpr hlo), prev_len := Nat.zero_le _
      prev_nil := fun _ => rfl, awaiting := fun _ => rfl, bpos_lo := by show 1 ≤ 8; omega, bpos_hi := le_refl 8
      cur_eq := fun h => absurd h (lt_irrefl 8) }
  a85 :=
    { io := Stream.reset_supplied_inv [] false
      causes := List.mem_cons_self, running := fun _ => ⟨Nat.zero_le _, by show 0 < 85 ^ 0; simp⟩
      cnt_le := Nat.zero_le _, acc_lt := by show 0 < 2 ^ 33; simp }
  ahx :=
    { io := Stream.reset_supplied_inv [] false
      causes := List.mem_cons_self, stream := fun _ => ⟨rfl, rfl⟩, sep_pending := fun _ h => by cases h }

end Machine

open Machine

/-- Settles O39: with `8 * n` bits to read and at least 9 read by each step, the engine has terminated after
`8 * n / 9 + 1` steps; the invariant gives the causes. -/
theorem lzwDecodeTerminates : Obligations.LzwDecodeTerminates := by
  refine ⟨fun m bytes => ?_, fun s hinv hhost hactive hreq hf heof hroom => ?_⟩
  · have hstart : Decoding (startDecode .lzw m bytes) := ⟨startDecode_lzw_inv m bytes, rfl, rfl, rfl, rfl⟩
    have hends : EndsWithin (8 * bytes.length / 9 + 1) (startDecode .lzw m bytes) := by
      refine .inr ?_
      show 8 * bytes.length < 0 + 9 * (8 * bytes.length / 9 + 1)
      omega
    obtain ⟨t, hrun, hinv, hf⟩ := hends.run_terminates hstart
    obtain ⟨hcause, herr⟩ := hinv.lzw.terminated_status hf
    exact ⟨_, _, _, ⟨t, hrun, by simp [hf], rfl, rfl, herr, rfl⟩, hcause⟩
  · obtain ⟨t, hstep, -, hprogress⟩ := (Decoding.mk hinv hhost hactive hreq heof).exists_step hf hroom
    exact ⟨t, hstep, hprogress⟩

end Sys2Proof
end

section
/-!
PROOFS. The shorthand for an all-zero ASCII85 group (spec/42_ascii85.md R172).
-/

namespace Sys2Proof
namespace Machine

variable {s : State}

/-- A running engine with no digit pending has an empty accumulator (R38). -/
theorem A85.Inv.acc_eq_zero {e : A85} (h : e.Inv) (hf : e.fsm = .running) (hn : e.cnt = 0) : e.acc = 0 := by
  have hacc := (h.running hf).2
  rw [hn, pow_zero] at hacc
  exact Nat.lt_one_iff.mp hacc

theorem exec_a85Z (hf : s.a85.fsm = .running) (hn : s.a85.cnt = 0) :
    exec .a85Z s = .next (s.emit .a85 [0, 0, 0, 0]) := if_pos ⟨hf, hn⟩

end Machine

open Machine

/-- Settles O44: the invariant empties the accumulator with the group, the meaning only emits, and the row of R100 for
`A85.Z` gives the byte's class. -/
theorem zeroGroupShorthandEmitsFourZeros : Obligations.ZeroGroupShorthandEmitsFourZeros := by
  refine ⟨fun s hinv hf hn => ⟨hinv.a85.acc_eq_zero hf hn, exec_a85Z hf hn⟩, fun n => ?_⟩
  obtain ⟨-, hz, -⟩ := a85ByteHasExactlyOneClass.1 n 122
  exact hz.trans (and_iff_right rfl)

end Sys2Proof
end

section
/-!
PROOFS. The hazard of the code table (20_memory.md R252): `LZW.KWKWK` builds its chunk from `prev` and reads no slot.
-/

namespace Sys2Proof
namespace Machine

/-- Over another table an append leaves the same engine but for the table: `tlen` alone decides whether there is room. -/
theorem Lzw.append_with_table (e : Lzw) (m : Memory) (x : Bytes) :
    ∃ m', ({ e with table := m } : Lzw).append x = { e.append x with table := m' } := by
  unfold Lzw.append
  split
  case isTrue => exact ⟨_, rfl⟩
  case isFalse => exact ⟨m, rfl⟩

/-- Over another table an append with an emission leaves the same state but for the table. -/
theorem appendEmit_with_table (s : State) (m : Memory) (entry chunk : Bytes) :
    ∃ m', appendEmit { s with lzw := { s.lzw with table := m } } entry chunk =
      { appendEmit s entry chunk with lzw := { (appendEmit s entry chunk).lzw with table := m' } } := by
  obtain ⟨m', happend⟩ := s.lzw.append_with_table m entry
  exact ⟨m', by simp only [appendEmit, happend]⟩

end Machine

open Machine

/-- Settles O35: the condition of `LZW.KWKWK` and its chunk are given by `fsm`, `tlen` and `prev`, so it runs over any other
table too, with the same append and emission. -/
theorem kwkwkReadsNoSlot : Obligations.KwkwkReadsNoSlot := by
  intro s t code m h
  obtain ⟨hf, hc, hd, b, x, hp, rfl⟩ := execLzwKwkwk_next h
  obtain ⟨m', hsame⟩ := appendEmit_with_table s m (b :: x ++ [b]) (b :: x ++ [b])
  exact ⟨_, exec_lzwKwkwk (s := { s with lzw := { s.lzw with table := m } }) hf hp hc hd, by rw [hsame]⟩

end Sys2Proof
end

section
/-!
PROOFS. Symbols and their classes (spec/30_encoding.md): the operand ranges of the table as comparisons, the class of a code
and of a byte in every context, and that the decoder and the encoder are inverse to each other.
-/

namespace Sys2Proof

/-! ### The operand ranges -/

theorem inRanges_nil (v : Nat) : inRanges v [] = true ↔ False := by simp [inRanges]

theorem inRanges_cons (v lo hi : Nat) (ranges : List (Nat × Nat)) :
    inRanges v ((lo, hi) :: ranges) = true ↔ (lo ≤ v ∧ v ≤ hi) ∨ inRanges v ranges = true := by
  simp [inRanges]

/-- The operands of the classes that take every data code (R98 rows 3 and 6). -/
theorem inRanges_dataCode (code : Code) :
    inRanges code.toNat [(0, 255), (258, 4095)] = true ↔ code.toNat ≠ 256 ∧ code.toNat ≠ 257 := by
  have := code.isLt
  simp only [inRanges_cons, inRanges_nil, or_false]
  omega

@[simp] theorem wellFormed_brRead (n : BitVec 6) :
    (Instr.brRead n).wellFormed = true ↔ 1 ≤ n.toNat ∧ n.toNat ≤ 32 := by
  simp [Instr.wellFormed, bitCountOk]

@[simp] theorem wellFormed_lzwNoclear (code : Code) :
    (Instr.lzwNoclear code).wellFormed = true ↔ code.toNat ≠ 256 ∧ code.toNat ≠ 257 := inRanges_dataCode code

@[simp] theorem wellFormed_lzwRef (code : Code) :
    (Instr.lzwRef code).wellFormed = true ↔ code.toNat ≠ 256 ∧ code.toNat ≠ 257 := inRanges_dataCode code

@[simp] theorem wellFormed_lzwFirst (code : Code) : (Instr.lzwFirst code).wellFormed = true ↔ code.toNat ≤ 255 := by
  simp only [Instr.wellFormed, inRanges_cons, inRanges_nil, or_false]
  omega

@[simp] theorem wellFormed_lzwBadfirst (code : Code) : (Instr.lzwBadfirst code).wellFormed = true ↔ 258 ≤ code.toNat := by
  have := code.isLt
  simp only [Instr.wellFormed, inRanges_cons, inRanges_nil, or_false]
  omega

@[simp] theorem wellFormed_lzwKwkwk (code : Code) : (Instr.lzwKwkwk code).wellFormed = true ↔ 258 ≤ code.toNat :=
  wellFormed_lzwBadfirst code

@[simp] theorem wellFormed_lzwCorrupt (code : Code) : (Instr.lzwCorrupt code).wellFormed = true ↔ 259 ≤ code.toNat := by
  have := code.isLt
  simp only [Instr.wellFormed, inRanges_cons, inRanges_nil, or_false]
  omega

@[simp] theorem wellFormed_a85Digit (c : Byte) :
    (Instr.a85Digit c).wellFormed = true ↔ 33 ≤ c.toNat ∧ c.toNat ≤ 117 := by
  simp only [Instr.wellFormed, inRanges_cons, inRanges_nil, or_false]

@[simp] theorem wellFormed_a85Skip (c : Byte) :
    (Instr.a85Skip c).wellFormed = true ↔
      c.toNat ≤ 32 ∨ (118 ≤ c.toNat ∧ c.toNat ≤ 121) ∨ (123 ≤ c.toNat ∧ c.toNat ≤ 125) ∨ 127 ≤ c.toNat := by
  have := c.isLt
  simp only [Instr.wellFormed, inRanges_cons, inRanges_nil, or_false]
  omega

/-! ### Hex digits -/

/-- The three ranges of hex digits with their values, and what lies outside (R96). -/
theorem hexValue?_cases (c : Byte) :
    (∃ v, v < 16 ∧ hexValue? c = some v ∧
      ((48 ≤ c.toNat ∧ c.toNat ≤ 57 ∧ v = c.toNat - 48) ∨ (65 ≤ c.toNat ∧ c.toNat ≤ 70 ∧ v = c.toNat - 55) ∨
        (97 ≤ c.toNat ∧ c.toNat ≤ 102 ∧ v = c.toNat - 87))) ∨
    (hexValue? c = none ∧ ¬ (48 ≤ c.toNat ∧ c.toNat ≤ 57) ∧ ¬ (65 ≤ c.toNat ∧ c.toNat ≤ 70) ∧
      ¬ (97 ≤ c.toNat ∧ c.toNat ≤ 102)) := by
  unfold hexValue?
  split
  case isTrue h => exact .inl ⟨_, by omega, rfl, .inl ⟨h.1, h.2, rfl⟩⟩
  case isFalse h48 =>
    split
    case isTrue h => exact .inl ⟨_, by omega, rfl, .inr (.inl ⟨h.1, h.2, rfl⟩)⟩
    case isFalse h65 =>
      split
      case isTrue h => exact .inl ⟨_, by omega, rfl, .inr (.inr ⟨h.1, h.2, rfl⟩)⟩
      case isFalse h97 => exact .inr ⟨rfl, h48, h65, h97⟩

/-- `'>'` by its code point (R8). -/
theorem eq_ahxGt_iff {c : Byte} : c = ahxGt ↔ c.toNat = 62 := BitVec.toNat_inj.symm

@[simp] theorem wellFormed_ahxDigit (c : Byte) :
    (Instr.ahxDigit c).wellFormed = true ↔ ∃ v, hexValue? c = some v := by
  simp only [Instr.wellFormed, inRanges_cons, inRanges_nil, or_false]
  obtain ⟨v, -, hv, hrange⟩ | ⟨hv, hrange⟩ := hexValue?_cases c <;>
    simp only [hv, Option.some.injEq, reduceCtorEq, exists_eq', exists_false, iff_true, iff_false] <;> omega

@[simp] theorem wellFormed_ahxSkip (c : Byte) :
    (Instr.ahxSkip c).wellFormed = true ↔ hexValue? c = none ∧ c ≠ ahxGt := by
  have := c.isLt
  simp only [Instr.wellFormed, inRanges_cons, inRanges_nil, or_false, ne_eq, eq_ahxGt_iff]
  obtain ⟨v, -, hv, hrange⟩ | ⟨hv, hrange⟩ := hexValue?_cases c <;>
    simp only [hv, reduceCtorEq, false_and, true_and, iff_false] <;> omega

/-- The class of an ASCIIHex byte together with the condition that gives it, row by row of R101. -/
theorem classifyAhx_cases (c : Byte) :
    ((∃ v, hexValue? c = some v) ∧ classifyAhx c = .ahxDigit c) ∨
    (hexValue? c = none ∧ c = ahxGt ∧ classifyAhx c = .ahxEnd) ∨
    (hexValue? c = none ∧ c ≠ ahxGt ∧ classifyAhx c = .ahxSkip c) := by
  cases hv : hexValue? c with
  | some v => exact .inl ⟨⟨v, rfl⟩, by simp [classifyAhx, hv]⟩
  | none =>
    by_cases hgt : c = ahxGt
    · exact .inr (.inl ⟨rfl, hgt, by simp [classifyAhx, hgt, show hexValue? ahxGt = none from rfl]⟩)
    · exact .inr (.inr ⟨rfl, hgt, by simp [classifyAhx, hv, hgt]⟩)

namespace Machine

/-- The ASCIIHex fetch meets the end of input exactly where the engine runs and its stream is exhausted, and consumes
nothing (R101, R190). -/
theorem fetchAhx_eq_eoi_iff {s t : State} :
    fetchAhx s = .got .ahxEoi t ↔ s.ahx.fsm = .running ∧ s.ahx.io.inExhausted = true ∧ t = s := by
  constructor
  · intro h
    obtain ⟨hf, ⟨c, io, -, hc, -⟩ | ⟨-, he, -, ht⟩⟩ := fetchAhx_got h
    · obtain ⟨-, hclass⟩ | ⟨-, -, hclass⟩ | ⟨-, -, hclass⟩ := classifyAhx_cases c <;> simp [hclass] at hc
    · exact ⟨hf, he, ht⟩
  · rintro ⟨hf, he, rfl⟩
    simp [fetchAhx, hf, he, Stream.inNext_of_inExhausted he]

end Machine

/-! ### Codes -/

/-- The class the decoder gives is well formed, of this code, and applies (R98). -/
theorem classifyCode_applies {k : Context} {code : Code} (hlo : 258 ≤ k.tlen) (hfit : code.toNat < 2 ^ width k.tlen) :
    (classifyCode k code).code? = some code.toNat ∧ (classifyCode k code).wellFormed = true ∧
      (classifyCode k code).applies k = true := by
  obtain ⟨h256, hclass⟩ | ⟨h257, hclass⟩ | ⟨hd, hdata⟩ := classifyCode_cases k code
  · simp [hclass, h256, Instr.code?, Instr.wellFormed, Instr.applies]
  · simp [hclass, h257, Instr.code?, Instr.wellFormed, Instr.applies]
  rw [isDataCode_iff] at hd
  obtain ⟨haw, hclass⟩ | ⟨haw, ⟨hp, hfirst⟩ | ⟨hp, hlater⟩⟩ := hdata
  · simp [hclass, Instr.code?, Instr.applies, hfit, haw, hd]
  · obtain ⟨hc, hclass⟩ | ⟨hc, hclass⟩ := hfirst <;> simp [hclass, Instr.code?, Instr.applies, hfit, haw, hp, hc]
  · obtain ⟨hc, hclass⟩ | ⟨hc, hclass⟩ | ⟨hc, hclass⟩ := hlater
    · simp [hclass, Instr.code?, Instr.applies, hfit, haw, hp, hc, hd]
    · simp [hclass, Instr.code?, Instr.applies, haw, hp, hc, hlo, hc ▸ hfit]
    · have h259 : 259 ≤ code.toNat := by omega
      simp [hclass, Instr.code?, Instr.applies, hfit, haw, hp, hc, h259]

/-- An instruction of the LZW unit that is well formed and applies is the class of its code (R98). -/
theorem eq_classifyCode {k : Context} {i : Instr} {code : Code} (hu : i.unit = .lzw) (hcode : i.code? = some code.toNat)
    (hwf : i.wellFormed = true) (happ : i.applies k = true) : i = classifyCode k code := by
  cases i with
  | lzwClear =>
    have h256 : code.toNat = 256 := by simpa [Instr.code?] using hcode.symm
    simp [classifyCode, h256]
  | lzwEod =>
    have h257 : code.toNat = 257 := by simpa [Instr.code?] using hcode.symm
    simp [classifyCode, h257]
  | lzwNoclear c =>
    obtain rfl : c = code := BitVec.toNat_inj.mp (by simpa [Instr.code?] using hcode)
    simp only [wellFormed_lzwNoclear] at hwf
    simp only [Instr.applies, Bool.and_eq_true, beq_iff_eq] at happ
    simp [classifyCode, hwf, happ.1]
  | lzwFirst c =>
    obtain rfl : c = code := BitVec.toNat_inj.mp (by simpa [Instr.code?] using hcode)
    simp only [wellFormed_lzwFirst] at hwf
    simp only [Instr.applies, Bool.and_eq_true, bne_iff_ne] at happ
    have h256 : c.toNat ≠ 256 ∧ c.toNat ≠ 257 := by omega
    simp [classifyCode, hwf, happ, h256]
  | lzwBadfirst c =>
    obtain rfl : c = code := BitVec.toNat_inj.mp (by simpa [Instr.code?] using hcode)
    simp only [wellFormed_lzwBadfirst] at hwf
    simp only [Instr.applies, Bool.and_eq_true, bne_iff_ne] at happ
    have h256 : c.toNat ≠ 256 ∧ c.toNat ≠ 257 ∧ ¬ c.toNat ≤ 255 := by omega
    simp [classifyCode, happ, h256]
  | lzwRef c =>
    obtain rfl : c = code := BitVec.toNat_inj.mp (by simpa [Instr.code?] using hcode)
    simp only [wellFormed_lzwRef] at hwf
    simp only [Instr.applies, Bool.and_eq_true, bne_iff_ne, Bool.not_eq_true', decide_eq_true_eq] at happ
    simp [classifyCode, hwf, happ]
  | lzwKwkwk c =>
    obtain rfl : c = code := BitVec.toNat_inj.mp (by simpa [Instr.code?] using hcode)
    simp only [wellFormed_lzwKwkwk] at hwf
    simp only [Instr.applies, Bool.and_eq_true, bne_iff_ne, Bool.not_eq_true', beq_iff_eq, decide_eq_true_eq] at happ
    have h256 : k.tlen ≠ 256 ∧ k.tlen ≠ 257 := by omega
    simp [classifyCode, happ, h256]
  | lzwCorrupt c =>
    obtain rfl : c = code := BitVec.toNat_inj.mp (by simpa [Instr.code?] using hcode)
    simp only [wellFormed_lzwCorrupt] at hwf
    simp only [Instr.applies, Bool.and_eq_true, bne_iff_ne, Bool.not_eq_true', decide_eq_true_eq] at happ
    have h256 : c.toNat ≠ 256 ∧ c.toNat ≠ 257 ∧ ¬ c.toNat < k.tlen ∧ c.toNat ≠ k.tlen := by omega
    simp [classifyCode, happ, h256]
  | lzwEoi => cases hcode
  | _ => cases hu

/-- A class with a code applies where the code fits the width only (R91). -/
theorem code_lt_of_applies {k : Context} {i : Instr} {v : Nat} (hu : i.unit = .lzw) (hcode : i.code? = some v)
    (hwf : i.wellFormed = true) (happ : i.applies k = true) : v < 2 ^ width k.tlen := by
  have h9 : 2 ^ 9 ≤ 2 ^ width k.tlen := Nat.pow_le_pow_right (by decide) (width_range k.tlen).1
  cases i with
  | lzwEoi => cases hcode
  | lzwClear | lzwEod => cases hcode; omega
  | lzwFirst c =>
    cases hcode
    have := (wellFormed_lzwFirst c).mp hwf
    omega
  | lzwNoclear c | lzwBadfirst c | lzwRef c | lzwKwkwk c | lzwCorrupt c =>
    cases hcode
    simp only [Instr.applies, Bool.and_eq_true, decide_eq_true_eq] at happ
    exact happ.2
  | _ => cases hu

/-- A class with a code is written as that code at the current width (R92). -/
theorem encode_of_code? {i : Instr} {v : Nat} (k : Context) (hcode : i.code? = some v) :
    encode k i = valueBits (width k.tlen) v := by
  cases i <;> cases hcode <;> rfl

/-- Settles O34: the decoder's class is well formed and applies, and any other class that does is the decoder's. -/
theorem codeHasExactlyOneClass : Obligations.CodeHasExactlyOneClass := by
  intro k code hlo hfit
  obtain ⟨hcode, hwf, happ⟩ := classifyCode_applies hlo hfit
  exact ⟨Machine.classifyCode_unit k code, hcode, hwf, happ, fun i hu hc hw ha => eq_classifyCode hu hc hw ha⟩

/-! ### Decoding what was encoded -/

/-- The first symbol's value where a number was written out. -/
theorem take_valueBits {w v : Nat} (hv : v < 2 ^ w) (rest : List Bool) :
    bitsValue ((valueBits w v ++ rest).take w) = v ∧ (valueBits w v ++ rest).drop w = rest := by
  rw [List.take_left' (valueBits_length w v), List.drop_left' (valueBits_length w v), bitsValue_valueBits,
    Nat.mod_eq_of_lt hv]
  exact ⟨rfl, rfl⟩

/-- A code written at the current width is read as its class (R91, R92). -/
theorem decode_lzw_valueBits {k : Context} {code : Code} (hfit : code.toNat < 2 ^ width k.tlen) (rest : List Bool) :
    decode .lzw k (valueBits (width k.tlen) code.toNat ++ rest) = .ok (classifyCode k code, rest) := by
  obtain ⟨hvalue, hrest⟩ := take_valueBits hfit rest
  have hlen : ¬ (valueBits (width k.tlen) code.toNat ++ rest).length < width k.tlen := by simp
  rw [decode, if_neg hlen, hvalue, hrest, BitVec.ofNat_toNat, BitVec.setWidth_eq]

/-- A byte of a text stream is read back (R60). -/
theorem take_byteBits (c : Byte) (rest : List Bool) :
    BitVec.ofNat 8 (bitsValue ((byteBits c ++ rest).take 8)) = c ∧ (byteBits c ++ rest).drop 8 = rest := by
  rw [byteBits_eq_valueBits, (take_valueBits c.isLt rest).1, (take_valueBits c.isLt rest).2]
  exact ⟨BitVec.ofNat_toNat 8 c ▸ BitVec.setWidth_eq c, rfl⟩

theorem decode_a85_byteBits (k : Context) (c : Byte) (rest : List Bool) :
    decode .a85 k (byteBits c ++ rest) = .ok (classifyA85 k.aCnt c, rest) := by
  have hne : byteBits c ++ rest ≠ [] := List.append_ne_nil_of_left_ne_nil (by simp [byteBits]) rest
  have hlen : ¬ (byteBits c ++ rest).length < 8 := by simp
  rw [decode, if_neg hne, if_neg hlen, (take_byteBits c rest).1, (take_byteBits c rest).2]

theorem decode_ahx_byteBits (k : Context) (c : Byte) (rest : List Bool) :
    decode .ahx k (byteBits c ++ rest) = .ok (classifyAhx c, rest) := by
  have hne : byteBits c ++ rest ≠ [] := List.append_ne_nil_of_left_ne_nil (by simp [byteBits]) rest
  have hlen : ¬ (byteBits c ++ rest).length < 8 := by simp
  rw [decode, if_neg hne, if_neg hlen, (take_byteBits c rest).1, (take_byteBits c rest).2]

theorem decode_bitReader_valueBits (k : Context) {n : BitVec 6} (hn : 1 ≤ n.toNat ∧ n.toNat ≤ 32) (rest : List Bool) :
    decode .bitReader k (valueBits 6 n.toNat ++ rest) = .ok (.brRead n, rest) := by
  obtain ⟨hvalue, hrest⟩ := take_valueBits n.isLt rest
  have hlen : ¬ (valueBits 6 n.toNat ++ rest).length < 6 := by simp
  rw [decode, if_neg hlen, hvalue, hrest, BitVec.ofNat_toNat, BitVec.setWidth_eq]
  simp [classifyRequest, hn]

theorem classifyA85_digit (n : Nat) {c : Byte} (h : (Instr.a85Digit c).wellFormed = true) :
    classifyA85 n c = .a85Digit c :=
  ((a85ByteHasExactlyOneClass.1 n c).1).mpr ((wellFormed_a85Digit c).mp h)

theorem classifyA85_skip_iff (n : Nat) (c : Byte) :
    classifyA85 n c = .a85Skip c ↔ (Instr.a85Skip c).wellFormed = true := by
  obtain ⟨-, -, -, -, hskip, -⟩ := a85ByteHasExactlyOneClass.1 n c
  rw [hskip, wellFormed_a85Skip]

/-- The class of an ASCIIHex byte is the skip class exactly in the table's ranges. -/
theorem classifyAhx_skip_iff (c : Byte) : classifyAhx c = .ahxSkip c ↔ (Instr.ahxSkip c).wellFormed = true := by
  rw [wellFormed_ahxSkip]
  obtain ⟨⟨v, hv⟩, hclass⟩ | ⟨-, hgt, hclass⟩ | ⟨hv, hgt, hclass⟩ := classifyAhx_cases c
  · simp [hclass, hv]
  · rw [hclass]
    exact iff_of_false nofun fun h => h.2 hgt
  · exact iff_of_true hclass ⟨hv, hgt⟩

theorem classifyAhx_digit {c : Byte} {v : Nat} (h : hexValue? c = some v) : classifyAhx c = .ahxDigit c := by
  simp [classifyAhx, h]

/-- Settles O58: a code is read at the width it was written with, a byte and a request at their fixed lengths, and the class
read is the one that applies. -/
theorem decodeOfEncodeIsTheInstruction : Obligations.DecodeOfEncodeIsTheInstruction := by
  intro k i rest hwf happ heoi
  have hlzw : ∀ v, i.unit = .lzw → i.code? = some v → decode i.unit k (encode k i ++ rest) = .ok (i, rest) := by
    intro v hu hcode
    have hfit := code_lt_of_applies hu hcode hwf happ
    have h12 : v < 2 ^ 12 := hfit.trans_le (Nat.pow_le_pow_right (by decide) (width_range k.tlen).2)
    have htoNat : (BitVec.ofNat 12 v).toNat = v := Nat.mod_eq_of_lt h12
    rw [hu, encode_of_code? k hcode]
    conv_lhs => rw [← htoNat]
    rw [decode_lzw_valueBits (htoNat.symm ▸ hfit), ← eq_classifyCode hu (htoNat.symm ▸ hcode) hwf happ]
  cases i with
  | brRead n => exact decode_bitReader_valueBits k ((wellFormed_brRead n).mp hwf) rest
  | lzwEoi =>
    have h9 := (width_range k.tlen).1
    rw [heoi rfl]
    exact if_pos (by show 0 < width k.tlen; omega)
  | lzwClear | lzwEod | lzwNoclear _ | lzwFirst _ | lzwBadfirst _ | lzwRef _ | lzwKwkwk _ | lzwCorrupt _ =>
    exact hlzw _ rfl rfl
  | a85Eoi => rw [heoi rfl]; rfl
  | a85Digit c => exact (decode_a85_byteBits k c rest).trans (by rw [classifyA85_digit _ hwf])
  | a85Z =>
    have hcnt : k.aCnt = 0 := by simpa [Instr.applies] using happ
    exact (decode_a85_byteBits k _ rest).trans (by rw [hcnt]; rfl)
  | a85Zbad =>
    have hcnt : k.aCnt ≠ 0 := by simpa [Instr.applies] using happ
    exact (decode_a85_byteBits k _ rest).trans (by rw [((a85ByteHasExactlyOneClass.1 _ _).2.2.1).mpr ⟨rfl, hcnt⟩])
  | a85End => exact decode_a85_byteBits k _ rest
  | a85Skip c => exact (decode_a85_byteBits k c rest).trans (by rw [(classifyA85_skip_iff _ c).mpr hwf])
  | ahxEoi => rw [heoi rfl]; rfl
  | ahxDigit c =>
    obtain ⟨v, hv⟩ := (wellFormed_ahxDigit c).mp hwf
    exact (decode_ahx_byteBits k c rest).trans (by rw [classifyAhx_digit hv])
  | ahxEnd => exact decode_ahx_byteBits k _ rest
  | ahxSkip c => exact (decode_ahx_byteBits k c rest).trans (by rw [(classifyAhx_skip_iff c).mpr hwf])

/-! ### Encoding what was decoded -/

/-- The bits of a symbol of `w` bits, from the number they are. -/
theorem valueBits_take {w : Nat} {bits : List Bool} (h : w ≤ bits.length) :
    valueBits w (bitsValue (bits.take w)) = bits.take w ∧ bitsValue (bits.take w) < 2 ^ w := by
  have hlen : (bits.take w).length = w := by rw [List.length_take, Nat.min_eq_left h]
  have hvalue := valueBits_bitsValue (bits.take w)
  have hlt := bitsValue_lt (bits.take w)
  rw [hlen] at hvalue hlt
  exact ⟨hvalue, hlt⟩

/-- The bits of a byte, from the number they are. -/
theorem byteBits_take {bits : List Bool} (h : 8 ≤ bits.length) :
    byteBits (BitVec.ofNat 8 (bitsValue (bits.take 8))) = bits.take 8 := by
  obtain ⟨hvalue, hlt⟩ := valueBits_take h
  rw [byteBits_eq_valueBits, BitVec.toNat_ofNat, Nat.mod_eq_of_lt hlt, hvalue]

/-- An ASCII85 class is well formed and written as its byte. -/
theorem encode_classifyA85 (k : Context) (n : Nat) (c : Byte) :
    (classifyA85 n c).wellFormed = true ∧ encode k (classifyA85 n c) = byteBits c := by
  obtain ⟨hrow, hclass⟩ | ⟨⟨hrow, -⟩, hclass⟩ | ⟨⟨hrow, -⟩, hclass⟩ | ⟨hrow, hclass⟩ | ⟨hrow, hclass⟩ :=
    classifyA85_cases n c <;> rw [hclass]
  · exact ⟨(wellFormed_a85Digit c).mpr hrow, rfl⟩
  · exact ⟨rfl, by rw [eq_a85ZChar_iff.mpr hrow]; rfl⟩
  · exact ⟨rfl, by rw [eq_a85ZChar_iff.mpr hrow]; rfl⟩
  · exact ⟨rfl, by rw [eq_a85Tilde_iff.mpr hrow]; rfl⟩
  · exact ⟨(wellFormed_a85Skip c).mpr hrow, rfl⟩

/-- An ASCIIHex class is well formed and written as its byte. -/
theorem encode_classifyAhx (k : Context) (c : Byte) :
    (classifyAhx c).wellFormed = true ∧ encode k (classifyAhx c) = byteBits c := by
  obtain ⟨hv, hclass⟩ | ⟨-, hgt, hclass⟩ | ⟨hv, hgt, hclass⟩ := classifyAhx_cases c <;> rw [hclass]
  · exact ⟨(wellFormed_ahxDigit c).mpr hv, rfl⟩
  · exact ⟨rfl, by rw [hgt]; rfl⟩
  · exact ⟨(wellFormed_ahxSkip c).mpr ⟨hv, hgt⟩, rfl⟩

/-- Settles O59: the bits taken are those of the number they are, at the length they were taken with. -/
theorem encodeOfDecodeIsTheSymbol : Obligations.EncodeOfDecodeIsTheSymbol := by
  intro u k bits rest i hlo hdec heoi
  unfold decode at hdec
  split at hdec
  case h_1 =>
    split at hdec
    case isTrue => cases hdec
    case isFalse hlen =>
      obtain ⟨hvalue, hlt⟩ := valueBits_take (not_lt.mp hlen)
      dsimp only at hdec
      split at hdec
      case h_2 => cases hdec
      case h_1 j hj =>
        cases hdec
        obtain ⟨h1, h32, rfl⟩ := Machine.classifyRequest_some hj
        refine ⟨rfl, (wellFormed_brRead _).mpr ⟨h1, h32⟩, ?_⟩
        rw [encode, BitVec.toNat_ofNat, Nat.mod_eq_of_lt hlt, hvalue, List.take_append_drop]
  case h_2 =>
    split at hdec
    case isTrue => cases hdec; cases heoi
    case isFalse hlen =>
      cases hdec
      obtain ⟨hvalue, hlt⟩ := valueBits_take (not_lt.mp hlen)
      have h12 := hlt.trans_le (Nat.pow_le_pow_right (by decide) (width_range k.tlen).2)
      have htoNat : (BitVec.ofNat 12 (bitsValue (bits.take (width k.tlen)))).toNat = _ := Nat.mod_eq_of_lt h12
      obtain ⟨hcode, hwf, -⟩ := classifyCode_applies hlo (htoNat.symm ▸ hlt)
      refine ⟨Machine.classifyCode_unit _ _, hwf, ?_⟩
      rw [encode_of_code? k hcode, htoNat, hvalue, List.take_append_drop]
  case h_3 =>
    split at hdec
    case isTrue => cases hdec; cases heoi
    case isFalse =>
      split at hdec
      case isTrue => cases hdec
      case isFalse hlen =>
        cases hdec
        obtain ⟨hwf, henc⟩ := encode_classifyA85 k k.aCnt (BitVec.ofNat 8 (bitsValue (bits.take 8)))
        refine ⟨Machine.classifyA85_unit _ _, hwf, ?_⟩
        rw [henc, byteBits_take (not_lt.mp hlen), List.take_append_drop]
  case h_4 =>
    split at hdec
    case isTrue => cases hdec; cases heoi
    case isFalse =>
      split at hdec
      case isTrue => cases hdec
      case isFalse hlen =>
        cases hdec
        obtain ⟨hwf, henc⟩ := encode_classifyAhx k (BitVec.ofNat 8 (bitsValue (bits.take 8)))
        refine ⟨Machine.classifyAhx_unit _, hwf, ?_⟩
        rw [henc, byteBits_take (not_lt.mp hlen), List.take_append_drop]

/-! ### Small statements about symbols -/

/-- Settles O24: the thresholds of `width` are the boundaries. -/
theorem codeWidthByTableLength : Obligations.CodeWidthByTableLength := by
  intro t
  unfold width
  split
  · omega
  · split
    · omega
    · split <;> omega

/-- Settles O50: the rows of R101 have disjoint conditions and distinct classes. -/
theorem ahxByteHasExactlyOneClass : Obligations.AhxByteHasExactlyOneClass := by
  refine ⟨fun c => ⟨?_, ?_, classifyAhx_skip_iff c, ?_⟩, fun s t => Machine.fetchAhx_eq_eoi_iff⟩
  · obtain ⟨v, -, hv, hrange⟩ | ⟨hv, hrange⟩ := hexValue?_cases c
    · rw [classifyAhx_digit hv]
      simp only [true_iff]
      omega
    · obtain ⟨⟨v, hv'⟩, -⟩ | ⟨-, -, hclass⟩ | ⟨-, -, hclass⟩ := classifyAhx_cases c
      · rw [hv] at hv'; cases hv'
      all_goals
        rw [hclass]
        simp only [reduceCtorEq, false_iff]
        omega
  · rw [← eq_ahxGt_iff]
    obtain ⟨⟨v, hv⟩, hclass⟩ | ⟨-, hgt, hclass⟩ | ⟨-, hgt, hclass⟩ := classifyAhx_cases c
    · rw [hclass]
      simp only [reduceCtorEq, false_iff]
      rintro rfl
      cases hv
    · exact iff_of_true hclass hgt
    · rw [hclass]
      simp only [reduceCtorEq, false_iff]
      exact hgt
  · obtain ⟨-, h⟩ | ⟨-, -, h⟩ | ⟨-, -, h⟩ := classifyAhx_cases c
    · exact .inl h
    · exact .inr (.inl h)
    · exact .inr (.inr h)

/-- Settles O60: closed symbols, read by evaluation. -/
theorem wordsDecodeAsTheSpecLaysThemOut : Obligations.WordsDecodeAsTheSpecLaysThemOut := by
  unfold Obligations.WordsDecodeAsTheSpecLaysThemOut
  decide

end Sys2Proof
end

section
/-!
PROOFS. The meanings of the text engines (spec/42_ascii85.md, spec/43_asciihex.md) where their classes apply, `raise` as one
operation (spec/60_exceptions.md R211), and the statements about single classes.
-/

namespace Sys2Proof
namespace Machine

variable {s : State} {e : Engine} {c : Byte} {cause : Cause} {v : BitVec 12}

/-! ### Termination -/

/-- On the status registers of an engine that still runs `raise` leaves `err` as the cause says, and `info` 0 for a cause
that has none (R211). -/
theorem Stream.Inv.raise_eq {io : Stream} (h : io.Inv false) (cause : Cause) (v : BitVec 12) :
    io.raise cause v =
      { io with cause := cause, err := cause.isFailure, info := if cause.hasInfo then v else 0 } := by
  obtain ⟨-, herr, hinfo⟩ := h.status
  simp only [Stream.raise, herr, hinfo]
  cases cause.isFailure <;> rfl

/-- What `raise` leaves of an engine that still runs, and what the host reads of it (R211). -/
theorem raise_endsWith (h : (s.io e).Inv false) :
    EndsWith e cause cause.isFailure (if cause.hasInfo then v else 0) s (raise e cause v s) ∧
      (raise e cause v s).status e = (cause.code, cause.isFailure, if cause.hasInfo then v else 0) := by
  have hends : EndsWith e cause cause.isFailure (if cause.hasInfo then v else 0) s (raise e cause v s) := by
    rw [EndsWith, raise, h.raise_eq]
  refine ⟨hends, ?_⟩
  rw [hends]
  cases e <;> rfl

/-! ### ASCII85 -/

theorem exec_a85Digit_pending (hf : s.a85.fsm = .running) (hc : 33 ≤ c.toNat ∧ c.toNat ≤ 117) (hn : s.a85.cnt ≠ 4) :
    exec (.a85Digit c) s = .next { s with
      a85 := { s.a85 with acc := s.a85.acc * 85 + (c.toNat - 33), cnt := s.a85.cnt + 1 } } := by
  have h5 : ¬ s.a85.cnt + 1 = 5 := by omega
  rw [exec, execA85Digit, if_pos ⟨hf, isA85Digit_iff.mpr hc⟩]
  exact if_neg h5

theorem exec_a85Digit_fifth (hf : s.a85.fsm = .running) (hc : 33 ≤ c.toNat ∧ c.toNat ≤ 117) (hn : s.a85.cnt = 4)
    (hfit : s.a85.acc * 85 + (c.toNat - 33) < 2 ^ 32) :
    exec (.a85Digit c) s = .next { s with
      a85 := { s.a85 with
        acc := 0, cnt := 0
        io := s.a85.io.emit (be32 (s.a85.acc * 85 + (c.toNat - 33))) } } := by
  rw [exec, execA85Digit, if_pos ⟨hf, isA85Digit_iff.mpr hc⟩]
  dsimp only
  rw [if_pos (by omega)]
  exact if_neg (mt (groupOverflows_iff _).mp (not_le.mpr hfit))

theorem exec_a85Digit_overflow (hf : s.a85.fsm = .running) (hc : 33 ≤ c.toNat ∧ c.toNat ≤ 117) (hn : s.a85.cnt = 4)
    (hover : 2 ^ 32 ≤ s.a85.acc * 85 + (c.toNat - 33)) :
    exec (.a85Digit c) s = .next (raise .a85 .a85Overflow 5
      { s with a85 := { s.a85 with acc := s.a85.acc * 85 + (c.toNat - 33), cnt := 5 } }) := by
  rw [exec, execA85Digit, if_pos ⟨hf, isA85Digit_iff.mpr hc⟩]
  dsimp only
  rw [if_pos (by omega), hn]
  exact if_pos ((groupOverflows_iff _).mpr hover)

theorem exec_a85Zbad (hf : s.a85.fsm = .running) (hn : s.a85.cnt ≠ 0) :
    exec .a85Zbad s = .next (raise .a85 .invalidShorthand (BitVec.ofNat 12 s.a85.cnt) s) := if_pos ⟨hf, hn⟩

theorem exec_a85Eoi (hf : s.a85.fsm = .running) (he : s.a85.io.inExhausted = true) :
    exec .a85Eoi s = .next (raise .a85 .endOfInput 0 s) := if_pos ⟨hf, he⟩

theorem exec_a85Skip (hf : s.a85.fsm = .running) (hc : (Instr.a85Skip c).wellFormed = true) :
    exec (.a85Skip c) s = .next s := by
  rw [wellFormed_a85Skip] at hc
  refine if_pos ⟨hf, ?_, ?_, ?_⟩
  · rw [isA85Digit_iff]; omega
  · rw [ne_eq, eq_a85ZChar_iff]; omega
  · rw [ne_eq, eq_a85Tilde_iff]; omega

theorem exec_a85End_empty (hf : s.a85.fsm = .running) (hn : s.a85.cnt = 0) :
    exec .a85End s = .next (raise .a85 .terminator 0 s) := by
  rw [exec, execA85End, if_pos hf, if_neg (by omega)]

theorem exec_a85End_group (hf : s.a85.fsm = .running) (hn : s.a85.cnt ≠ 0)
    (hfit : padGroup (5 - s.a85.cnt) s.a85.acc < 2 ^ 32) :
    exec .a85End s = .next (raise .a85 .terminator 0 { s with a85 := { s.a85 with
      acc := padGroup (5 - s.a85.cnt) s.a85.acc
      io := s.a85.io.emit ((be32 (padGroup (5 - s.a85.cnt) s.a85.acc)).take (s.a85.cnt - 1)) } }) := by
  rw [exec, execA85End, if_pos hf, if_pos (by omega)]
  exact if_neg (mt (groupOverflows_iff _).mp (not_le.mpr hfit))

theorem exec_a85End_overflow (hf : s.a85.fsm = .running) (hn : s.a85.cnt ≠ 0)
    (hover : 2 ^ 32 ≤ padGroup (5 - s.a85.cnt) s.a85.acc) :
    exec .a85End s = .next (raise .a85 .a85Overflow (BitVec.ofNat 12 s.a85.cnt)
      { s with a85 := { s.a85 with acc := padGroup (5 - s.a85.cnt) s.a85.acc } }) := by
  rw [exec, execA85End, if_pos hf, if_pos (by omega)]
  exact if_pos ((groupOverflows_iff _).mpr hover)

/-! ### ASCIIHex -/

variable {d : Nat}

theorem exec_ahxDigit_pair (hf : s.ahx.fsm = .running) (hd : hexValue? c = some d) (hp : s.ahx.pv = true)
    (hm : s.ahx.mode = .stream ∨ s.ahx.sep = false) :
    exec (.ahxDigit c) s = .next { s with
      ahx := { s.ahx with pv := false, io := s.ahx.io.emit [hexByte s.ahx.pend d] } } := by
  simp [exec, execAhxDigit, hf, hd, hp, hm]

theorem exec_ahxDigit_dropped (hf : s.ahx.fsm = .running) (hd : hexValue? c = some d) (hp : s.ahx.pv = true)
    (hm : s.ahx.mode = .adjacent) (hs : s.ahx.sep = true) :
    exec (.ahxDigit c) s = .next { s with
      ahx := { s.ahx with stray := true, pend := BitVec.ofNat 4 d, sep := false } } := by
  simp [exec, execAhxDigit, hf, hd, hp, hm, hs]

theorem exec_ahxDigit_begins (hf : s.ahx.fsm = .running) (hd : hexValue? c = some d) (hp : s.ahx.pv = false) :
    exec (.ahxDigit c) s = .next { s with
      ahx := { s.ahx with pend := BitVec.ofNat 4 d, pv := true, sep := false } } := by
  simp [exec, execAhxDigit, hf, hd, hp]

theorem exec_ahxEnd (hf : s.ahx.fsm = .running) :
    exec .ahxEnd s = .next (raise .ahx .terminator 0 (ahxFlush s)) := if_pos hf

theorem exec_ahxEoi (hf : s.ahx.fsm = .running) (he : s.ahx.io.inExhausted = true) :
    exec .ahxEoi s = .next (raise .ahx .endOfInput 0 (ahxFlush s)) := if_pos ⟨hf, he⟩

theorem exec_ahxSkip_marks (hf : s.ahx.fsm = .running) (hc : (Instr.ahxSkip c).wellFormed = true)
    (hm : s.ahx.mode = .adjacent) (hp : s.ahx.pv = true) :
    exec (.ahxSkip c) s = .next { s with ahx := { s.ahx with sep := true } } := by
  rw [exec, execAhxSkip, if_pos ⟨hf, (wellFormed_ahxSkip c).mp hc⟩, if_pos ⟨hm, hp⟩]

theorem exec_ahxSkip_keeps (hf : s.ahx.fsm = .running) (hc : (Instr.ahxSkip c).wellFormed = true)
    (hm : s.ahx.mode = .stream ∨ s.ahx.pv = false) : exec (.ahxSkip c) s = .next s := by
  rw [exec, execAhxSkip, if_pos ⟨hf, (wellFormed_ahxSkip c).mp hc⟩, if_neg]
  rintro ⟨hadj, hp⟩
  simp [hadj, hp] at hm

end Machine

open Machine

/-! ### The statements -/

/-- Settles O57: `raise` writes the status of any engine in the same way, whatever its state. -/
theorem raiseWritesTheStatusOnly : Obligations.RaiseWritesTheStatusOnly := by
  intro e c info s
  unfold EndsWith raise
  congr 2
  cases c <;> rfl

/-- Settles O32: both classes are `raise` with the code as `info`. -/
theorem unplacedCodeTerminates : Obligations.UnplacedCodeTerminates := by
  refine fun s code h => ⟨fun hf hp hc => ?_, fun hf h256 h257 => ?_⟩
  · exact ⟨_, exec_lzwBadfirst hf hp hc, raise_lzw_endsWith h.lzw (by simp [hf]) rfl nofun⟩
  · exact ⟨_, exec_lzwNoclear hf (isDataCode_iff.mpr ⟨h256, h257⟩), raise_lzw_endsWith h.lzw (by simp [hf]) rfl nofun⟩

/-- Settles O42: the fifth digit is the one that finds four pending. -/
theorem digitAccumulatesAndFifthEmits : Obligations.DigitAccumulatesAndFifthEmits := by
  intro s c h hf hlo hhi
  refine ⟨fun hn => exec_a85Digit_pending hf ⟨hlo, hhi⟩ hn.ne, fun hn hfit => ?_, fun hn hover => ?_⟩
  · rw [exec_a85Digit_fifth hf ⟨hlo, hhi⟩ hn hfit, be32_eq]
    rfl
  · obtain ⟨hends, hstatus⟩ := raise_endsWith (e := .a85) (cause := .a85Overflow) (v := 5)
      (s := { s with a85 := { s.a85 with acc := s.a85.acc * 85 + (c.toNat - 33), cnt := 5 } }) (h.a85.running_io hf)
    exact ⟨_, exec_a85Digit_overflow hf ⟨hlo, hhi⟩ hn hover, hstatus, hends⟩

/-- Settles O43: four digits wait and the fifth completes the group, whose value is the nested sum. -/
theorem fullGroupDecodesToFourBytes : Obligations.FullGroupDecodesToFourBytes := by
  rintro ⟨lzw, ⟨fsm, acc, cnt, io⟩, ahx, active, host⟩ c1 c2 c3 c4 c5 (hf : fsm = _) (hcnt : cnt = _) (hacc : acc = _)
    hdigits v hv
  subst hf hcnt hacc
  simp only [List.mem_cons, List.not_mem_nil, or_false, forall_eq_or_imp, forall_eq] at hdigits
  obtain ⟨h1, h2, h3, h4, h5⟩ := hdigits
  have hgroup : ((((0 * 85 + (c1.toNat - 33)) * 85 + (c2.toNat - 33)) * 85 + (c3.toNat - 33)) * 85 +
      (c4.toNat - 33)) * 85 + (c5.toNat - 33) = v := by ring
  refine ⟨_, _, _, _, _, exec_a85Digit_pending rfl h1 (by decide : (0 : Nat) ≠ 4),
    exec_a85Digit_pending rfl h2 (by decide : (1 : Nat) ≠ 4), exec_a85Digit_pending rfl h3 (by decide : (2 : Nat) ≠ 4),
    exec_a85Digit_pending rfl h4 (by decide : (3 : Nat) ≠ 4), exec_a85Digit_fifth rfl h5 rfl (hgroup.trans_lt hv), ?_, rfl,
    by simp [SameElsewhere]⟩
  show io.out ++ be32 _ = io.out ++ _
  rw [← be32_eq, ← hgroup]

/-- Settles O45: the shorthand raises with the pending count. -/
theorem misplacedShorthandTerminates : Obligations.MisplacedShorthandTerminates :=
  fun _ h hf hn => ⟨_, exec_a85Zbad hf hn, raise_endsWith (e := .a85) (h.a85.running_io hf)⟩

/-- Settles O46: the padded value in closed form decides between the emission and the overflow. -/
theorem tildeFlushesAShortGroup : Obligations.TildeFlushesAShortGroup := by
  intro s h hf n v bytes
  have hpad : padGroup (5 - s.a85.cnt) s.a85.acc = v := padGroup_eq _ _
  refine ⟨fun hn => ?_, fun hn hfit => ?_, fun hn hover => ?_⟩
  · exact ⟨_, exec_a85End_empty hf hn, raise_endsWith (e := .a85) (cause := .terminator) (v := 0) (h.a85.running_io hf)⟩
  · have htake : (be32 v).take (n - 1) = bytes.take (n - 1) := by
      have hcnt : n ≤ 4 := (h.a85.running hf).1
      rw [be32_eq]
      exact List.take_append_of_le_length (l₁ := bytes) (by show n - 1 ≤ 3; omega)
    obtain ⟨hends, hstatus⟩ := raise_endsWith (e := .a85) (cause := .terminator) (v := 0)
      (s := { s with a85 := { s.a85 with acc := v, io := s.a85.io.emit (bytes.take (n - 1)) } })
      ((h.a85.running_io hf).emit _)
    refine ⟨_, ?_, hstatus, hends⟩
    rw [exec_a85End_group hf hn (hpad.trans_lt hfit), hpad, htake]
  · obtain ⟨hends, hstatus⟩ := raise_endsWith (e := .a85) (cause := .a85Overflow) (v := BitVec.ofNat 12 n)
      (s := { s with a85 := { s.a85 with acc := v } }) (h.a85.running_io hf)
    refine ⟨_, ?_, hstatus, hends⟩
    rw [exec_a85End_overflow hf hn (hpad.symm ▸ hover), hpad]

/-- Settles O47: the skip class leaves the state, the end of input raises. -/
theorem a85SkipAndEndOfInput : Obligations.A85SkipAndEndOfInput := by
  refine fun s h hf => ⟨fun c hc => exec_a85Skip hf ((wellFormed_a85Skip c).mpr hc), fun he => ?_⟩
  exact ⟨_, exec_a85Eoi hf he, raise_endsWith (e := .a85) (cause := .endOfInput) (v := 0) (h.a85.running_io hf)⟩

/-- A byte in one of the digit ranges has the value that its range gives (R96). -/
theorem hexValue?_of_range {c : Byte} {v : Nat}
    (h : (48 ≤ c.toNat ∧ c.toNat ≤ 57 ∧ v = c.toNat - 48) ∨ (65 ≤ c.toNat ∧ c.toNat ≤ 70 ∧ v = c.toNat - 55) ∨
      (97 ≤ c.toNat ∧ c.toNat ≤ 102 ∧ v = c.toNat - 87)) : hexValue? c = some v := by
  obtain ⟨w, -, hw, hrange⟩ | ⟨-, hrange⟩ := hexValue?_cases c
  · rw [hw, Option.some.injEq]
    omega
  · omega

/-- Settles O51: the three branches of the meaning, by `h_pv` and `h_sep`. -/
theorem hexDigitPairsOrBegins : Obligations.HexDigitPairsOrBegins := by
  intro s c v hf hrange
  have hv := hexValue?_of_range hrange
  exact ⟨fun hp hm => exec_ahxDigit_pair hf hv hp hm, fun hp hm hs => exec_ahxDigit_dropped hf hv hp hm hs,
    fun hp => exec_ahxDigit_begins hf hv hp⟩

/-- Settles O52: the two branches of the meaning. -/
theorem ahxSkipMarksASeparatedDigit : Obligations.AhxSkipMarksASeparatedDigit :=
  fun _ _ hf hc => ⟨fun hm hp => exec_ahxSkip_marks hf hc hm hp, fun hm => exec_ahxSkip_keeps hf hc hm⟩

/-- Settles O53: the flush comes first, then `raise` with a cause that has no `info`. -/
theorem ahxEndFlushesALoneDigit : Obligations.AhxEndFlushesALoneDigit := by
  intro s h hf flushed
  have hflush : ahxFlush s = flushed := ahxFlush_eq s
  have hio : (flushed.io .ahx).Inv false := (h.ahx.running_io hf).emit _
  refine ⟨⟨_, exec_ahxEnd hf, ?_⟩, fun he => ⟨_, exec_ahxEoi hf he, ?_⟩⟩ <;> rw [hflush]
  · exact raise_endsWith (e := .ahx) (cause := .terminator) (v := 0) hio
  · exact raise_endsWith (e := .ahx) (cause := .endOfInput) (v := 0) hio

end Sys2Proof
end

section
/-!
PROOFS. What a step of the block can do, said once: a reset, new input or a transfer at the host's port, or a step of one
engine; and that each of these keeps the invariant.
-/

namespace Sys2Proof
namespace Machine

variable {s t u : State} {i : Instr} {e : Engine}

/-! ### What the meanings do not read: the input side -/

/-- A stream with the input side of another: `IN`, `in_eof`, the cursor and the count of bytes taken. -/
def Stream.withSupply (io jo : Stream) : Stream :=
  { io with inp := jo.inp, eof := jo.eof, ipos := jo.ipos, taken := jo.taken }

/-- An LZW engine with the input side of another: the bit cursor and the streams' input side. -/
def Lzw.withInput (e f : Lzw) : Lzw := { e with cur := f.cur, bpos := f.bpos, io := e.io.withSupply f.io }

/-- An ASCII85 engine with another input side. -/
def A85.withSupply (e : A85) (jo : Stream) : A85 := { e with io := e.io.withSupply jo }

/-- An ASCIIHex engine with another input side. -/
def Ahx.withSupply (e : Ahx) (jo : Stream) : Ahx := { e with io := e.io.withSupply jo }

/-- An append is the same over another input side. -/
theorem Lzw.append_withInput (e f : Lzw) (x : Bytes) : (e.withInput f).append x = (e.append x).withInput f := by
  by_cases hroom : e.tlen < Config.tcap <;> simp only [Lzw.append, Lzw.withInput, hroom, if_true, if_false]

/-- An append with an emission is the same over another input side and beside other engines. -/
theorem appendEmit_withInput {f : Lzw} (ht : t.lzw = s.lzw.withInput f) (entry chunk : Bytes) :
    appendEmit t entry chunk = { t with lzw := (appendEmit s entry chunk).lzw.withInput f } := by
  simp only [appendEmit, ht, Lzw.append_withInput]
  rfl

theorem lt_of_groupOverflows {v : Nat} (h : groupOverflows v = false) : v < 2 ^ 32 := by
  rw [← not_le, ← groupOverflows_iff, h]
  decide

/-- An LZW meaning reads nothing but its own engine, and nothing of its input side but the response. -/
theorem exec_lzw_withInput {f : Lzw} (hu : i.unit = .lzw) (h : exec i s = .next u) (ht : t.lzw = s.lzw.withInput f) :
    exec i t = .next { t with lzw := u.lzw.withInput f } := by
  obtain ⟨lzw, a85, ahx, active, host⟩ := t
  obtain rfl : lzw = s.lzw.withInput f := ht
  cases i with
  | lzwEoi => obtain ⟨hf, hr, rfl⟩ := execLzwEoi_next h; exact exec_lzwEoi hf hr
  | lzwClear => obtain ⟨hf, rfl⟩ := execLzwClear_next h; exact exec_lzwClear hf
  | lzwEod => obtain ⟨hf, rfl⟩ := execLzwEod_next h; exact exec_lzwEod hf
  | lzwNoclear code => obtain ⟨hf, hd, rfl⟩ := execLzwNoclear_next h; exact exec_lzwNoclear hf hd
  | lzwFirst code => obtain ⟨hf, hp, hc, rfl⟩ := execLzwFirst_next h; exact exec_lzwFirst hf hp hc
  | lzwBadfirst code => obtain ⟨hf, hp, hc, rfl⟩ := execLzwBadfirst_next h; exact exec_lzwBadfirst hf hp hc
  | lzwRef code =>
    obtain ⟨hf, hp, hc, hd, b, x, hread, rfl⟩ := execLzwRef_next h
    exact (exec_lzwRef (s := ⟨s.lzw.withInput f, a85, ahx, active, host⟩) hf hp hc hd hread).trans
      (congrArg _ (appendEmit_withInput (s := s) (t := ⟨s.lzw.withInput f, a85, ahx, active, host⟩) rfl _ _))
  | lzwKwkwk code =>
    obtain ⟨hf, hc, hd, b, x, hp, rfl⟩ := execLzwKwkwk_next h
    exact (exec_lzwKwkwk (s := ⟨s.lzw.withInput f, a85, ahx, active, host⟩) hf hp hc hd).trans
      (congrArg _ (appendEmit_withInput (s := s) (t := ⟨s.lzw.withInput f, a85, ahx, active, host⟩) rfl _ _))
  | lzwCorrupt code => obtain ⟨hf, hp, hc, hd, rfl⟩ := execLzwCorrupt_next h; exact exec_lzwCorrupt hf hp hc hd
  | _ => cases hu

/-- An ASCII85 meaning reads nothing but its own engine, and nothing of its input side but that the input has ended. -/
theorem exec_a85_withSupply {jo : Stream} (hu : i.unit = .a85) (h : exec i s = .next u)
    (heoi : i = .a85Eoi → t.a85.io.inExhausted = true) (ht : t.a85 = s.a85.withSupply jo) :
    exec i t = .next { t with a85 := u.a85.withSupply jo } := by
  obtain ⟨lzw, a85, ahx, active, host⟩ := t
  obtain rfl : a85 = s.a85.withSupply jo := ht
  cases i with
  | a85Eoi => obtain ⟨hf, -, rfl⟩ := execA85Eoi_next h; exact exec_a85Eoi hf (heoi rfl)
  | a85Digit c =>
    obtain ⟨hf, hc, ⟨hn, rfl⟩ | ⟨hn, hfit, rfl⟩ | ⟨hn, hover, rfl⟩⟩ := execA85Digit_next h <;>
      have hc := isA85Digit_iff.mp hc
    · exact exec_a85Digit_pending hf hc hn
    · exact exec_a85Digit_fifth hf hc hn (lt_of_groupOverflows hfit)
    · exact exec_a85Digit_overflow hf hc hn ((groupOverflows_iff _).mp hover)
  | a85Z => obtain ⟨hf, hn, rfl⟩ := execA85Z_next h; exact exec_a85Z hf hn
  | a85Zbad => obtain ⟨hf, hn, rfl⟩ := execA85Zbad_next h; exact exec_a85Zbad hf hn
  | a85End =>
    obtain ⟨hf, ⟨hn, rfl⟩ | ⟨hn, hfit, rfl⟩ | ⟨hn, hover, rfl⟩⟩ := execA85End_next h
    · exact exec_a85End_empty hf hn
    · exact exec_a85End_group hf hn.ne' (lt_of_groupOverflows hfit)
    · exact exec_a85End_overflow hf hn.ne' ((groupOverflows_iff _).mp hover)
  | a85Skip c =>
    obtain ⟨hf, hd, hz, htilde, rfl⟩ := execA85Skip_next h
    exact if_pos ⟨hf, by simpa using hd, hz, htilde⟩
  | _ => cases hu

/-- An ASCIIHex meaning reads nothing but its own engine, and nothing of its input side but that the input has ended. -/
theorem exec_ahx_withSupply {jo : Stream} (hu : i.unit = .ahx) (h : exec i s = .next u)
    (heoi : i = .ahxEoi → t.ahx.io.inExhausted = true) (ht : t.ahx = s.ahx.withSupply jo) :
    exec i t = .next { t with ahx := u.ahx.withSupply jo } := by
  obtain ⟨lzw, a85, ahx, active, host⟩ := t
  obtain rfl : ahx = s.ahx.withSupply jo := ht
  cases i with
  | ahxEoi =>
    obtain ⟨hf, -, rfl⟩ := execAhxEoi_next h
    rw [exec_ahxEoi (by exact hf) (heoi rfl), ahxFlush_eq, ahxFlush_eq]
    rfl
  | ahxDigit c =>
    obtain ⟨hf, d, hd, ⟨hp, hm, rfl⟩ | ⟨hp, hm, hsep, rfl⟩ | ⟨hp, rfl⟩⟩ := execAhxDigit_next h
    · exact exec_ahxDigit_pair hf hd hp hm
    · exact exec_ahxDigit_dropped hf hd hp hm hsep
    · exact exec_ahxDigit_begins hf hd hp
  | ahxEnd =>
    obtain ⟨hf, rfl⟩ := execAhxEnd_next h
    rw [exec_ahxEnd (by exact hf), ahxFlush_eq, ahxFlush_eq]
    rfl
  | ahxSkip c =>
    obtain ⟨hf, hv, hgt, ⟨hm, hp, rfl⟩ | ⟨hm, rfl⟩⟩ := execAhxSkip_next h
    · exact exec_ahxSkip_marks hf ((wellFormed_ahxSkip c).mpr ⟨hv, hgt⟩) hm hp
    · exact exec_ahxSkip_keeps hf ((wellFormed_ahxSkip c).mpr ⟨hv, hgt⟩) hm
  | _ => cases hu

/-- No meaning of the LZW decoder writes the input side. -/
theorem exec_lzw_input (hu : i.unit = .lzw) (h : exec i s = .next t) : t.lzw = t.lzw.withInput s.lzw := by
  have hsame := exec_lzw_withInput (f := s.lzw) hu h rfl
  rw [h] at hsame
  exact congrArg State.lzw (Host.Outcome.next.inj hsame)

/-- No meaning of the ASCII85 engine writes the input side. -/
theorem exec_a85_input (hu : i.unit = .a85) (h : exec i s = .next t) : t.a85 = t.a85.withSupply s.a85.io := by
  have heoi : i = .a85Eoi → s.a85.io.inExhausted = true := by rintro rfl; exact (execA85Eoi_next h).2.1
  have hsame := exec_a85_withSupply (jo := s.a85.io) hu h heoi rfl
  rw [h] at hsame
  exact congrArg State.a85 (Host.Outcome.next.inj hsame)

/-- No meaning of the ASCIIHex engine writes the input side. -/
theorem exec_ahx_input (hu : i.unit = .ahx) (h : exec i s = .next t) : t.ahx = t.ahx.withSupply s.ahx.io := by
  have heoi : i = .ahxEoi → s.ahx.io.inExhausted = true := by rintro rfl; exact (execAhxEoi_next h).2.1
  have hsame := exec_ahx_withSupply (jo := s.ahx.io) hu h heoi rfl
  rw [h] at hsame
  exact congrArg State.ahx (Host.Outcome.next.inj hsame)

/-! ### The meanings keep the invariant -/

/-- One digit more stays below the next power of 85 (R38, R95). -/
theorem groupStep_lt {acc n : Nat} {c : Byte} (h : acc < 85 ^ n) (hc : isA85Digit c = true) :
    groupStep acc (a85Value c) < 85 ^ (n + 1) := by
  have := isA85Digit_iff.mp hc
  rw [groupStep, a85Value, pow_succ]
  omega

theorem exec_a85_inv (hu : i.unit = .a85) (h : exec i s = .next t) (hs : s.Inv) : t.Inv := by
  have hend : ∀ {a : A85} {c : Cause} (v : BitVec 12), s.a85.fsm = .running → a.io.Inv false → a.cnt ≤ 5 →
      a.acc < 2 ^ 33 → c ∈ [Cause.endOfInput, .terminator, .invalidShorthand, .a85Overflow] →
      (raise .a85 c v { s with a85 := a }).Inv :=
    fun v _ hio hcnt hacc hc => ⟨hs.lzw, A85.Inv.raise hio hcnt hacc v hc, hs.ahx⟩
  cases i with
  | a85Eoi =>
    obtain ⟨hf, -, rfl⟩ := execA85Eoi_next h
    exact hend 0 hf (hs.a85.running_io hf) hs.a85.cnt_le hs.a85.acc_lt (by simp)
  | a85Digit c =>
    obtain ⟨hf, hc, hcase⟩ := execA85Digit_next h
    obtain ⟨hcnt, hacc⟩ := hs.a85.running hf
    have hlt := groupStep_lt hacc hc
    obtain ⟨hn, rfl⟩ | ⟨hn, -, rfl⟩ | ⟨hn, -, rfl⟩ := hcase
    · have h85 : 85 ^ (s.a85.cnt + 1) ≤ 85 ^ 4 := Nat.pow_le_pow_right (by decide) (by omega)
      exact ⟨hs.lzw, { io := hs.a85.io, causes := hs.a85.causes, running := fun _ => ⟨by show _ + 1 ≤ 4; omega, hlt⟩
                       cnt_le := by show _ + 1 ≤ 5; omega
                       acc_lt := by show groupStep _ _ < 2 ^ 33; omega }, hs.ahx⟩
    · exact ⟨hs.lzw, { io := hs.a85.io.emit _, causes := hs.a85.causes, running := fun _ => ⟨Nat.zero_le _, by simp⟩
                       cnt_le := Nat.zero_le _, acc_lt := by show 0 < 2 ^ 33; decide }, hs.ahx⟩
    · rw [hn] at hlt
      exact hend 5 hf (hs.a85.running_io hf) (le_refl 5) (by show groupStep _ _ < 2 ^ 33; omega) (by simp)
  | a85Z =>
    obtain ⟨-, -, rfl⟩ := execA85Z_next h
    exact ⟨hs.lzw, { hs.a85 with io := hs.a85.io.emit _ }, hs.ahx⟩
  | a85Zbad =>
    obtain ⟨hf, -, rfl⟩ := execA85Zbad_next h
    exact hend _ hf (hs.a85.running_io hf) hs.a85.cnt_le hs.a85.acc_lt (by simp)
  | a85End =>
    obtain ⟨hf, hcase⟩ := execA85End_next h
    obtain ⟨hcnt, hacc⟩ := hs.a85.running hf
    have hpad := padGroup_lt hcnt hacc
    obtain ⟨-, rfl⟩ | ⟨-, -, rfl⟩ | ⟨-, -, rfl⟩ := hcase
    · exact hend 0 hf (hs.a85.running_io hf) hs.a85.cnt_le hs.a85.acc_lt (by simp)
    · exact hend 0 hf ((hs.a85.running_io hf).emit _) hs.a85.cnt_le hpad (by simp)
    · exact hend _ hf (hs.a85.running_io hf) hs.a85.cnt_le hpad (by simp)
  | a85Skip c =>
    obtain ⟨-, -, -, -, rfl⟩ := execA85Skip_next h
    exact hs
  | _ => cases hu

/-- Termination after the flush keeps the ASCIIHex engine's invariant. -/
theorem raise_ahxFlush_inv (hs : s.Inv) (hf : s.ahx.fsm = .running) {c : Cause} (hc : c ∈ [Cause.endOfInput, .terminator]) :
    (raise .ahx c 0 (ahxFlush s)).Inv := by
  rw [ahxFlush_eq]
  refine ⟨hs.lzw, hs.a85, Ahx.Inv.raise (e := { s.ahx with pv := false, io := s.ahx.io.emit _ }) ?_ hs.ahx.stream 0 hc⟩
  exact (hs.ahx.running_io hf).emit _

theorem exec_ahx_inv (hu : i.unit = .ahx) (h : exec i s = .next t) (hs : s.Inv) : t.Inv := by
  cases i with
  | ahxEoi =>
    obtain ⟨hf, -, rfl⟩ := execAhxEoi_next h
    exact raise_ahxFlush_inv hs hf (by simp)
  | ahxEnd =>
    obtain ⟨hf, rfl⟩ := execAhxEnd_next h
    exact raise_ahxFlush_inv hs hf (by simp)
  | ahxDigit c =>
    obtain ⟨hf, d, -, ⟨hp, hm, rfl⟩ | ⟨hp, hm, -, rfl⟩ | ⟨hp, rfl⟩⟩ := execAhxDigit_next h
    · have hsep : s.ahx.sep = false := hm.elim (fun hst => (hs.ahx.stream hst).1) id
      exact ⟨hs.lzw, hs.a85, { io := hs.ahx.io.emit _, causes := hs.ahx.causes, stream := hs.ahx.stream
                               sep_pending := fun _ h => by rw [show s.ahx.sep = true from h] at hsep; cases hsep }⟩
    · exact ⟨hs.lzw, hs.a85, { io := hs.ahx.io, causes := hs.ahx.causes
                               stream := fun hst => by rw [show s.ahx.mode = .stream from hst] at hm; cases hm
                               sep_pending := nofun }⟩
    · exact ⟨hs.lzw, hs.a85, { io := hs.ahx.io, causes := hs.ahx.causes
                               stream := fun hst => ⟨rfl, (hs.ahx.stream hst).2⟩, sep_pending := nofun }⟩
  | ahxSkip c =>
    obtain ⟨-, -, -, ⟨hm, hp, rfl⟩ | ⟨-, rfl⟩⟩ := execAhxSkip_next h
    · exact ⟨hs.lzw, hs.a85, { io := hs.ahx.io, causes := hs.ahx.causes
                               stream := fun hst => by rw [show s.ahx.mode = .stream from hst] at hm; cases hm
                               sep_pending := fun _ _ => hp }⟩
    · exact hs
  | _ => cases hu

theorem exec_brRead_inv {n : BitVec 6} (h : exec (.brRead n) s = .next t) (hs : s.Inv) : t.Inv := by
  obtain ⟨hn, -, ⟨-, rfl⟩ | ⟨g, hr, rfl⟩ | ⟨v, g, hr, rfl⟩⟩ := execBrRead_next h
  · exact hs
  · exact ⟨hs.lzw.cursorMoved ((hs.lzw.readBits_moved hn).1 _ hr), hs.a85, hs.ahx⟩
  · exact ⟨hs.lzw.cursorMoved ((hs.lzw.readBits_moved hn).2 _ _ hr), hs.a85, hs.ahx⟩

/-- Every meaning keeps the invariant. -/
theorem exec_inv (h : exec i s = .next t) (hs : s.Inv) : t.Inv := by
  cases hu : i.unit with
  | bitReader =>
    cases i with
    | brRead n => exact exec_brRead_inv h hs
    | _ => cases hu
  | lzw => exact exec_lzw_inv hu h hs
  | a85 => exact exec_a85_inv hu h hs
  | ahx => exact exec_ahx_inv hu h hs

/-- A step of an engine keeps the invariant. -/
theorem engineStep_inv (h : engineStep e s = .next t) (hs : s.Inv) : t.Inv := by
  obtain ⟨-, rfl⟩ | ⟨-, i, u, hfetch, hexec⟩ := engineStep_next h
  · exact hs
  · exact exec_inv hexec (fetch_inv hs hfetch)

/-! ### The host's side -/

/-- A stream with its host's side moved on: bytes supplied, `in_eof`, bytes taken. -/
def Stream.port (io : Stream) (x : Bytes) (eof : Bool) (taken : Nat) : Stream :=
  { io with inp := io.inp ++ x, eof := eof, taken := taken }

/-- What the host's actions but `rst` and `run` do to the streams of an engine. -/
def State.port (s : State) (e : Engine) (x : Bytes) (eof : Bool) (taken : Nat) : State :=
  s.setIo e ((s.io e).port x eof taken)

theorem State.port_nil (s : State) (e : Engine) (eof : Bool) (taken : Nat) :
    s.port e [] eof taken = s.setIo e { s.io e with eof := eof, taken := taken } := by
  simp only [State.port, Stream.port, List.append_nil]

theorem State.port_self (s : State) (e : Engine) : s.port e [] (s.io e).eof (s.io e).taken = s := by
  rw [State.port_nil]
  cases e <;> rfl

theorem Stream.Inv.port {io : Stream} {b : Bool} (h : io.Inv b) (x : Bytes) (eof : Bool) {taken : Nat}
    (htaken : taken ≤ io.out.length) : (io.port x eof taken).Inv b :=
  { ipos_le := by have := h.ipos_le; simp only [Stream.port, List.length_append]; omega
    taken_le := htaken, cause_iff := h.cause_iff, err_eq := h.err_eq, info_eq := h.info_eq }

theorem State.Inv.port (h : s.Inv) (x : Bytes) (eof : Bool) {taken : Nat} (htaken : taken ≤ (s.io e).out.length) :
    (s.port e x eof taken).Inv := by
  cases e with
  | lzw =>
    refine ⟨{ h.lzw with io := h.lzw.io.port x eof htaken, cur_eq := fun hb => ?_ }, h.a85, h.ahx⟩
    obtain ⟨hpos, hcur⟩ := h.lzw.cur_eq hb
    have hle := h.lzw.io.ipos_le
    have hpos : 0 < s.lzw.io.ipos := hpos
    have hlt : s.lzw.io.ipos - 1 < s.lzw.io.inp.length := by omega
    exact ⟨hpos, (List.getElem?_append_left hlt).trans hcur⟩
  | a85 => exact ⟨h.lzw, { h.a85 with io := h.a85.io.port x eof htaken }, h.ahx⟩
  | ahx => exact ⟨h.lzw, h.a85, { h.ahx with io := h.ahx.io.port x eof htaken }⟩

/-! ### Reset -/

theorem Stream.reset_inv : Stream.reset.Inv false := Stream.reset_supplied_inv [] false

theorem Lzw.reset_inv : Lzw.reset.Inv :=
  { (startDecode_lzw_inv .adjacent []).lzw with io := Stream.reset_inv, cur_eq := fun h => absurd h (lt_irrefl 8) }

theorem State.resetWith_inv (m : PairMode) : (State.resetWith m).Inv :=
  ⟨Lzw.reset_inv, (startDecode_lzw_inv m []).a85, (startDecode_lzw_inv m []).ahx⟩

/-- What a reset of one engine leaves (R240, R241). -/
theorem hwReset_agreeOn (s : State) (e : Engine) :
    AgreeOn e (State.resetWith s.ahx.mode) (hwReset e s) ∧ SameElsewhere e s (hwReset e s) := by
  cases e <;> exact ⟨rfl, by simp [SameElsewhere]⟩

theorem hwReset_inv (hs : s.Inv) (e : Engine) : (hwReset e s).Inv := by
  cases e with
  | lzw => exact ⟨Lzw.reset_inv, hs.a85, hs.ahx⟩
  | a85 => exact ⟨hs.lzw, (State.resetWith_inv .adjacent).a85, hs.ahx⟩
  | ahx => exact ⟨hs.lzw, hs.a85, (State.resetWith_inv s.ahx.mode).ahx⟩

/-! ### A step of the block -/

/-- What a step of the block can do: reset an engine; move the host's side of one engine's streams on, where a terminated
engine takes no byte, `in_eof` stays high and a byte taken was on offer; or let an engine, the active one or the one the
host names, take its step. -/
inductive StepEffect (s : State) : State → Prop where
  | reset (e : Engine) (rest : List HostAct) (hhost : s.host = .rst e :: rest) :
      StepEffect s (hwReset e { s with host := rest })
  | port (a : HostAct) (rest : List HostAct) (e : Engine) (x : Bytes) (eof : Bool) (taken : Nat)
      (hhost : s.host = a :: rest) (hrst : ∀ f, a ≠ .rst f) (hx : s.terminated e = true → x = [])
      (heof : (s.io e).eof = true → eof = true) (htaken : taken = (s.io e).taken ∨ taken ≤ (s.io e).out.length) :
      StepEffect s (({ s with host := rest } : State).port e x eof taken)
  | engine (e : Engine) (rest : List HostAct) (t : State)
      (hwho : (s.host = [] ∧ e = s.active ∧ rest = []) ∨ s.host = .run e :: rest)
      (hstep : engineStep e { s with active := e, host := rest } = .next t) : StepEffect s t

/-- A host action other than `rst` and `run`. -/
theorem hostStep_port {a : HostAct} {rest : List HostAct} (hhost : s.host = a :: rest) (hrst : ∀ f, a ≠ .rst f)
    (hrun : ∀ f, a ≠ .run f) (h : hostStep a { s with host := rest } = .next t) : StepEffect s t := by
  have hkeep : ∀ e, StepEffect s { s with host := rest } := fun e => by
    rw [← State.port_self { s with host := rest } e]
    exact .port a rest e [] _ _ hhost hrst (fun _ => rfl) id (.inl rfl)
  cases a with
  | rst e => exact absurd rfl (hrst e)
  | run e => exact absurd rfl (hrun e)
  | offer e b =>
    simp only [hostStep, hostOffer] at h
    split at h
    case isTrue => cases h; exact hkeep e
    case isFalse hterm =>
      split at h <;> cases h
      exact .port _ rest e [b] _ _ hhost hrst (fun ht => absurd ht hterm) id (.inl rfl)
  | eof e =>
    cases h
    rw [hostEof, ← State.port_nil]
    exact .port _ rest e [] true _ hhost hrst (fun _ => rfl) (fun _ => rfl) (.inl rfl)
  | take e =>
    simp only [hostStep, hostTake] at h
    split at h
    case isTrue hvalid =>
      cases h
      have hlt : (s.io e).taken < (s.io e).out.length := of_decide_eq_true hvalid
      have hport := StepEffect.port (.take e) rest e [] (s.io e).eof _ hhost hrst (fun _ => rfl) id (.inr hlt)
      rwa [State.port_nil] at hport
    case isFalse => cases h; exact hkeep e

/-- A step of the block, opened once. -/
theorem step_effect (h : step s = .next t) : StepEffect s t := by
  obtain ⟨hhost, hstep⟩ | ⟨a, rest, hhost, hstep⟩ := step_eq s <;> rw [hstep] at h
  · refine .engine s.active [] t (.inl ⟨hhost, rfl, rfl⟩) ?_
    rwa [← hhost]
  · by_cases hrst : ∃ f, a = .rst f
    · obtain ⟨f, rfl⟩ := hrst
      cases h
      exact .reset f rest hhost
    by_cases hrun : ∃ f, a = .run f
    · obtain ⟨f, rfl⟩ := hrun
      exact .engine f rest t (.inr hhost) h
    exact hostStep_port hhost (fun f hf => hrst ⟨f, hf⟩) (fun f hf => hrun ⟨f, hf⟩) h

/-- The invariant speaks of the engines alone. -/
theorem State.Inv.withHost (hs : s.Inv) (active : Engine) (host : List HostAct) :
    ({ s with active := active, host := host } : State).Inv := ⟨hs.lzw, hs.a85, hs.ahx⟩

/-- Every step keeps the invariant. -/
theorem step_inv (hs : s.Inv) (h : step s = .next t) : t.Inv := by
  cases step_effect h with
  | reset e rest => exact hwReset_inv (hs.withHost s.active rest) e
  | port a rest e x eof taken _ _ _ _ htaken =>
    refine (hs.withHost s.active rest).port x eof (htaken.elim (fun h => ?_) id)
    have hle : (s.io e).taken ≤ (s.io e).out.length := by
      cases e with
      | lzw => exact hs.lzw.io.taken_le
      | a85 => exact hs.a85.io.taken_le
      | ahx => exact hs.ahx.io.taken_le
    exact h ▸ hle
  | engine e rest _ _ hstep => exact engineStep_inv hstep (hs.withHost e rest)

end Machine

open Machine

/-- Settles O4: a reset, the host's port and the step of an engine each keep the invariant. -/
theorem stepKeepsInvariant : Obligations.StepKeepsInvariant := fun _ _ hs h => step_inv hs h

end Sys2Proof
end

section
/-!
PROOFS. What a step leaves and where it leads, property by property: the code table and its entries, the output, the input
cursors, a terminated engine, and the reset state. Each is proved for a meaning, then for a step of an engine, then for a
step of the block.
-/

namespace Sys2Proof
namespace Machine

variable {s t u : State} {i : Instr} {e : Engine}

/-! ### The engines a step leaves alone -/

theorem SameElsewhere.agreeOn {f : Engine} (h : SameElsewhere f s t) (hne : f ≠ e) : AgreeOn e s t := by
  obtain ⟨hlzw, ha85, hahx, -⟩ := h
  cases e with
  | lzw => exact hlzw hne
  | a85 => exact ha85 hne
  | ahx => exact hahx hne

theorem AgreeOn.refl (e : Engine) (s : State) : AgreeOn e s s := by cases e <;> rfl

theorem AgreeOn.io (h : AgreeOn e s t) : t.io e = s.io e := by
  cases e with
  | lzw => exact congrArg Lzw.io h
  | a85 => exact congrArg A85.io h
  | ahx => exact congrArg Ahx.io h

theorem AgreeOn.terminated (h : AgreeOn e s t) : t.terminated e = s.terminated e := by
  cases e with
  | lzw => exact congrArg (fun l : Lzw => l.fsm == .terminated) h
  | a85 => exact congrArg (fun a : A85 => a.fsm == .terminated) h
  | ahx => exact congrArg (fun a : Ahx => a.fsm == .terminated) h

theorem State.port_elsewhere (s : State) (e : Engine) (x : Bytes) (eof : Bool) (taken : Nat) :
    SameElsewhere e s (s.port e x eof taken) := by
  cases e <;> simp [SameElsewhere, State.port]

/-! ### Fetches -/

/-- A fetch moves cursors and the BitReader's latches and nothing else. -/
theorem fetch_frame (hg : fetch e s = .got i t) :
    t = { s with
      lzw := { s.lzw with
        cur := t.lzw.cur, bpos := t.lzw.bpos, req := t.lzw.req, resp := t.lzw.resp
        io := { s.lzw.io with ipos := t.lzw.io.ipos } }
      a85 := { s.a85 with io := { s.a85.io with ipos := t.a85.io.ipos } }
      ahx := { s.ahx with io := { s.ahx.io with ipos := t.ahx.io.ipos } } } := by
  cases e with
  | lzw =>
    obtain ⟨n, -, -, -, -, -, rfl⟩ | ⟨-, -, ⟨g, hr, -, rfl⟩ | ⟨v, g, hr, -, rfl⟩⟩ := fetchLzw_got hg
    · rfl
    · have hsame := readBits_frame (.inl hr)
      generalize g.cur = cur, g.bpos = bpos, g.resp = resp, g.io.ipos = ipos at hsame
      subst hsame
      rfl
    · have hsame := readBits_frame (.inr ⟨v, hr⟩)
      generalize g.cur = cur, g.bpos = bpos, g.resp = resp, g.io.ipos = ipos at hsame
      subst hsame
      rfl
  | a85 =>
    obtain ⟨-, ⟨c, io, hn, -, rfl⟩ | ⟨-, -, -, rfl⟩⟩ := fetchA85_got hg
    · obtain ⟨-, rfl⟩ := Stream.inNext_some hn
      rfl
    · rfl
  | ahx =>
    obtain ⟨-, ⟨c, io, hn, -, rfl⟩ | ⟨-, -, -, rfl⟩⟩ := fetchAhx_got hg
    · obtain ⟨-, rfl⟩ := Stream.inNext_some hn
      rfl
    · rfl

theorem fetch_out (hg : fetch e s = .got i t) (f : Engine) : (t.io f).out = (s.io f).out := by
  rw [fetch_frame hg]
  cases f <;> rfl

/-! ### The code table -/

/-- What a step leaves of `tlen`, the slots and `prev`: all of it; or the literal just emitted in `prev`; or a table reset;
or the previous chunk with the first byte of the one just emitted in slot `tlen`, where there is room, and that chunk, an
entry or the one appended, in `prev`. -/
inductive TableEffect (e f : Lzw) : Prop where
  | keeps (hread : ∀ i, f.table.read i = e.table.read i) (htlen : f.tlen = e.tlen)
      (hprev : f.prev = e.prev ∨ ∃ b, f.prev = [b]) : TableEffect e f
  | clear (htlen : f.tlen = 258) (hprev : f.prev = []) : TableEffect e f
  | append (b : Byte) (x : Bytes) (hp : e.prev ≠ []) (hother : ∀ i, i ≠ e.tlen → f.table.read i = e.table.read i)
      (hroom : (e.tlen < 4096 ∧ f.tlen = e.tlen + 1 ∧ f.table.read e.tlen = some (e.prev ++ [b])) ∨
        (e.tlen = 4096 ∧ f.tlen = e.tlen))
      (hchunk : (∃ k, k < e.tlen ∧ e.table.read k = some (b :: x)) ∨ (e.tlen < 4096 ∧ b :: x = e.prev ++ [b]))
      (hprev : f.prev = b :: x) (hout : f.io.out = e.io.out ++ b :: x) : TableEffect e f

theorem TableEffect.refl (e : Lzw) : TableEffect e e := .keeps (fun _ => rfl) rfl (.inl rfl)

/-- An append with an emission is the last case. -/
theorem tableEffect_appendEmit (hs : s.Inv) {b : Byte} {x : Bytes} (hp : s.lzw.prev ≠ [])
    (hchunk : (∃ k, k < s.lzw.tlen ∧ s.lzw.table.read k = some (b :: x)) ∨
      (s.lzw.tlen < 4096 ∧ b :: x = s.lzw.prev ++ [b])) :
    TableEffect s.lzw (appendEmit s (s.lzw.prev ++ [b]) (b :: x)).lzw := by
  refine .append b x hp (fun i hi => Lzw.append_read_of_ne _ _ hi) ?_ hchunk rfl rfl
  obtain hroom | hfull := hs.lzw.tlen_hi.lt_or_eq
  · exact .inl ⟨hroom, appendEmit_append hs hroom _ _⟩
  · exact .inr ⟨hfull, (appendEmit_full hfull _ _).1.trans hfull.symm⟩

theorem exec_tableEffect (hs : s.Inv) (h : exec i s = .next t) : TableEffect s.lzw t.lzw := by
  cases hu : i.unit with
  | a85 => exact (exec_elsewhere h).1 (by rw [hu]; decide) ▸ .refl _
  | ahx => exact (exec_elsewhere h).1 (by rw [hu]; decide) ▸ .refl _
  | bitReader =>
    cases i with
    | brRead n =>
      obtain ⟨-, -, ⟨-, rfl⟩ | ⟨g, hr, rfl⟩ | ⟨v, g, hr, rfl⟩⟩ := execBrRead_next h
      · exact .refl _
      · rw [readBits_frame (.inl hr)]; exact .keeps (fun _ => rfl) rfl (.inl rfl)
      · rw [readBits_frame (.inr ⟨v, hr⟩)]; exact .keeps (fun _ => rfl) rfl (.inl rfl)
    | _ => cases hu
  | lzw =>
    cases i with
    | lzwRef code =>
      obtain ⟨-, hp, hlt, -, b, x, hread, rfl⟩ := execLzwRef_next h
      exact tableEffect_appendEmit hs hp (.inl ⟨_, hlt, hread⟩)
    | lzwKwkwk code =>
      obtain ⟨-, hlen, -, b, x, hp, rfl⟩ := execLzwKwkwk_next h
      have heffect := tableEffect_appendEmit hs (b := b) (x := x ++ [b]) (by simp [hp])
        (.inr ⟨hlen ▸ code.isLt, by simp [hp]⟩)
      rwa [hp] at heffect
    | lzwEoi => obtain ⟨-, -, rfl⟩ := execLzwEoi_next h; exact .keeps (fun _ => rfl) rfl (.inl rfl)
    | lzwClear => obtain ⟨-, rfl⟩ := execLzwClear_next h; exact .clear rfl rfl
    | lzwEod => obtain ⟨-, rfl⟩ := execLzwEod_next h; exact .keeps (fun _ => rfl) rfl (.inl rfl)
    | lzwNoclear code => obtain ⟨-, -, rfl⟩ := execLzwNoclear_next h; exact .keeps (fun _ => rfl) rfl (.inl rfl)
    | lzwFirst code => obtain ⟨-, -, -, rfl⟩ := execLzwFirst_next h; exact .keeps (fun _ => rfl) rfl (.inr ⟨_, rfl⟩)
    | lzwBadfirst code => obtain ⟨-, -, -, rfl⟩ := execLzwBadfirst_next h; exact .keeps (fun _ => rfl) rfl (.inl rfl)
    | lzwCorrupt code => obtain ⟨-, -, -, -, rfl⟩ := execLzwCorrupt_next h; exact .keeps (fun _ => rfl) rfl (.inl rfl)
    | _ => cases hu

/-- A fetch moves no part of the table. -/
theorem TableEffect.of_fetch {f : Lzw} (hg : fetch e s = .got i u) (h : TableEffect u.lzw f) : TableEffect s.lzw f := by
  rw [fetch_frame hg] at h
  cases h with
  | keeps hread htlen hprev => exact .keeps hread htlen hprev
  | clear htlen hprev => exact .clear htlen hprev
  | append b x hp hother hroom hchunk hprev hout => exact .append b x hp hother hroom hchunk hprev hout

/-- Every step of the block but a reset of the engine has one of these effects on the code table; the reset is a table
reset that also rewrites the slots. -/
theorem step_tableEffect (hs : s.Inv) (h : step s = .next t) : TableEffect s.lzw t.lzw := by
  cases step_effect h with
  | reset e rest =>
    cases e with
    | lzw => exact .clear rfl rfl
    | a85 => exact .refl _
    | ahx => exact .refl _
  | port a rest e x eof taken =>
    cases e with
    | lzw => exact .keeps (fun _ => rfl) rfl (.inl rfl)
    | a85 => exact .refl _
    | ahx => exact .refl _
  | engine e rest _ _ hstep =>
    obtain ⟨-, rfl⟩ | ⟨-, i, u, hfetch, hexec⟩ := engineStep_next hstep
    · exact .refl _
    · exact TableEffect.of_fetch (s := { s with active := e, host := rest }) hfetch (exec_tableEffect (fetch_inv (hs.withHost e rest) hfetch) hexec)

/-- A slot that is not yet appended to is kept, so an entry below `tlen` reads as before. -/
theorem Lzw.Linked.of_tableEffect {e f : Lzw} (hlo : 258 ≤ e.tlen) (h : e.Linked) (heffect : TableEffect e f) :
    f.Linked := by
  cases heffect with
  | keeps hread htlen hprev =>
    refine ⟨fun i hi1 hi2 => ?_, ?_⟩
    · obtain ⟨k, y, b, hk, hky, hiy⟩ := h.entry i hi1 (htlen ▸ hi2)
      exact ⟨k, y, b, hk, (hread k).trans hky, (hread i).trans hiy⟩
    · obtain hprev | ⟨b, hprev⟩ := hprev
      · rw [hprev]
        refine h.prev.imp_right fun ⟨k, hk, hky⟩ => ⟨k, htlen ▸ hk, (hread k).trans hky⟩
      · have hb := b.isLt
        refine .inr ⟨b.toNat, by omega, ?_⟩
        rw [Memory.read_literal _ hb, hprev, BitVec.ofNat_toNat, BitVec.setWidth_eq]
  | clear htlen hprev => exact ⟨fun i hi1 hi2 => absurd hi2 (by omega), .inl hprev⟩
  | append b x hp hother hroom hchunk hprev _ =>
    have hold : ∀ k y, k < e.tlen → e.table.read k = some y → f.table.read k = some y :=
      fun k y hk hky => (hother k hk.ne).trans hky
    obtain ⟨j, hj, hjp⟩ := h.prev.resolve_left hp
    refine ⟨fun i hi1 hi2 => ?_, .inr ?_⟩
    · obtain hlt | rfl : i < e.tlen ∨ i = e.tlen := by omega
      · obtain ⟨k, y, c, hk, hky, hiy⟩ := h.entry i hi1 hlt
        exact ⟨k, y, c, hk, hold k _ (hk.trans hlt) hky, hold i _ hlt hiy⟩
      · obtain ⟨-, -, hnew⟩ | ⟨-, htlen⟩ := hroom
        · exact ⟨j, _, b, hj, hold j _ hj hjp, hnew⟩
        · omega
    · rw [hprev]
      obtain ⟨k, hk, hky⟩ | ⟨hlt, hkw⟩ := hchunk
      · exact ⟨k, by omega, hold k _ hk hky⟩
      · obtain ⟨-, htlen, hnew⟩ | ⟨hfull, -⟩ := hroom
        · exact ⟨e.tlen, by omega, hkw ▸ hnew⟩
        · omega

/-! ### The output -/

/-- The chunk that an LZW meaning emits is at most the longest byte-string (R31). -/
theorem LzwEffect.appends (h : LzwEffect s t) (hs : s.lzw.Inv) :
    ∃ x, t.lzw.io.out = s.lzw.io.out ++ x ∧ x.length ≤ 3839 := by
  have ht := h.inv hs
  cases h with
  | ends c v => exact ⟨[], by simp, by simp⟩
  | clear => exact ⟨[], by simp, by simp⟩
  | first b => exact ⟨[b], rfl, by simp⟩
  | append b chunk =>
    have hlen := ht.prev_len
    have hhi := ht.tlen_hi
    exact ⟨chunk, rfl, by simp only [appendEmit] at hlen hhi; omega⟩

theorem exec_a85_appends (hu : i.unit = .a85) (h : exec i s = .next t) :
    ∃ x, t.a85.io.out = s.a85.io.out ++ x ∧ x.length ≤ 4 := by
  have hbe : ∀ n k, ((be32 n).take k).length ≤ 4 := fun n k => (List.length_take_le' k _)
  cases i with
  | a85Eoi => obtain ⟨-, -, rfl⟩ := execA85Eoi_next h; exact ⟨[], by simp, by simp⟩
  | a85Digit c =>
    obtain ⟨-, -, ⟨-, rfl⟩ | ⟨-, -, rfl⟩ | ⟨-, -, rfl⟩⟩ := execA85Digit_next h
    · exact ⟨[], by simp, by simp⟩
    · exact ⟨_, rfl, le_refl 4⟩
    · exact ⟨[], by simp, by simp⟩
  | a85Z => obtain ⟨-, -, rfl⟩ := execA85Z_next h; exact ⟨_, rfl, le_refl 4⟩
  | a85Zbad => obtain ⟨-, -, rfl⟩ := execA85Zbad_next h; exact ⟨[], by simp, by simp⟩
  | a85End =>
    obtain ⟨-, ⟨-, rfl⟩ | ⟨-, -, rfl⟩ | ⟨-, -, rfl⟩⟩ := execA85End_next h
    · exact ⟨[], by simp, by simp⟩
    · exact ⟨_, rfl, hbe _ _⟩
    · exact ⟨[], by simp, by simp⟩
  | a85Skip c => obtain ⟨-, -, -, -, rfl⟩ := execA85Skip_next h; exact ⟨[], by simp, by simp⟩
  | _ => cases hu

theorem exec_ahx_appends (hu : i.unit = .ahx) (h : exec i s = .next t) :
    ∃ x, t.ahx.io.out = s.ahx.io.out ++ x ∧ x.length ≤ 1 := by
  have hflush : ∀ c, ∃ x, (raise .ahx c 0 (ahxFlush s)).ahx.io.out = s.ahx.io.out ++ x ∧ x.length ≤ 1 := fun c => by
    rw [ahxFlush_eq]
    exact ⟨_, rfl, by split <;> simp⟩
  cases i with
  | ahxEoi => obtain ⟨-, -, rfl⟩ := execAhxEoi_next h; exact hflush _
  | ahxDigit c =>
    obtain ⟨-, d, -, ⟨-, -, rfl⟩ | ⟨-, -, -, rfl⟩ | ⟨-, rfl⟩⟩ := execAhxDigit_next h
    · exact ⟨_, rfl, le_refl 1⟩
    · exact ⟨[], by simp, by simp⟩
    · exact ⟨[], by simp, by simp⟩
  | ahxEnd => obtain ⟨-, rfl⟩ := execAhxEnd_next h; exact hflush _
  | ahxSkip c =>
    obtain ⟨-, -, -, ⟨-, -, rfl⟩ | ⟨-, rfl⟩⟩ := execAhxSkip_next h <;> exact ⟨[], by simp, by simp⟩
  | _ => cases hu

/-- `OUT` after a meaning: the engine whose symbol it is appends, the others keep theirs (R25). -/
theorem exec_appends (hs : s.Inv) (h : exec i s = .next t) (f : Engine) :
    ∃ x, (t.io f).out = (s.io f).out ++ x ∧ x.length ≤ 3839 := by
  by_cases hf : f = i.unit.engine
  swap
  · exact ⟨[], by rw [((exec_elsewhere h).io hf).1]; simp, by simp⟩
  subst hf
  cases hu : i.unit with
  | bitReader =>
    cases i with
    | brRead n =>
      obtain ⟨-, -, ⟨-, rfl⟩ | ⟨g, hr, rfl⟩ | ⟨v, g, hr, rfl⟩⟩ := execBrRead_next h
      · exact ⟨[], by simp, by simp⟩
      · rw [readBits_frame (.inl hr)]; exact ⟨[], by simp [SymbolUnit.engine], by simp⟩
      · rw [readBits_frame (.inr ⟨v, hr⟩)]; exact ⟨[], by simp [SymbolUnit.engine], by simp⟩
    | _ => cases hu
  | lzw => exact (exec_lzw_effect hu h).appends hs.lzw
  | a85 =>
    obtain ⟨x, hx, hlen⟩ := exec_a85_appends hu h
    exact ⟨x, hx, by omega⟩
  | ahx =>
    obtain ⟨x, hx, hlen⟩ := exec_ahx_appends hu h
    exact ⟨x, hx, by omega⟩

/-! ### The input cursors -/

/-- A read moves the byte cursor and the bit cursor forward only. -/
theorem Lzw.Inv.readBits_forward {e e' : Lzw} (h : e.Inv) {n : Nat} (hn : 1 ≤ n)
    (hr : Machine.readBits n e = .endOfInput e' ∨ ∃ v, Machine.readBits n e = .value v e') :
    e.io.ipos ≤ e'.io.ipos ∧ e.bitPos ≤ e'.bitPos := by
  refine ⟨?_, h.readBits_bitPos hn hr⟩
  obtain hr | ⟨v, hr⟩ := hr
  · exact ((h.readBits_moved hn).1 _ hr).ipos_ge
  · exact ((h.readBits_moved hn).2 _ _ hr).ipos_ge

/-- A meaning moves no input cursor back. -/
theorem exec_forward (hs : s.Inv) (h : exec i s = .next t) :
    (∀ f, (s.io f).ipos ≤ (t.io f).ipos) ∧ s.lzw.bitPos ≤ t.lzw.bitPos := by
  obtain ⟨hlzw, ha85, hahx, -⟩ := exec_elsewhere h
  have hother : ∀ {f}, f ≠ i.unit.engine → (s.io f).ipos ≤ (t.io f).ipos := fun hf => by
    rw [((exec_elsewhere h).io hf).1]
  cases hu : i.unit with
  | bitReader =>
    cases i with
    | brRead n =>
      obtain ⟨hn, -, ⟨-, rfl⟩ | ⟨g, hr, rfl⟩ | ⟨v, g, hr, rfl⟩⟩ := execBrRead_next h
      · exact ⟨fun _ => le_refl _, le_refl _⟩
      · obtain ⟨hipos, hbit⟩ := hs.lzw.readBits_forward hn (.inl hr)
        exact ⟨fun f => by cases f <;> [exact hipos; exact le_refl _; exact le_refl _], hbit⟩
      · obtain ⟨hipos, hbit⟩ := hs.lzw.readBits_forward hn (.inr ⟨v, hr⟩)
        exact ⟨fun f => by cases f <;> [exact hipos; exact le_refl _; exact le_refl _], hbit⟩
    | _ => cases hu
  | lzw =>
    have hsame := exec_lzw_input hu h
    refine ⟨fun f => ?_, by rw [hsame]; exact le_refl _⟩
    cases f with
    | lzw => show _ ≤ t.lzw.io.ipos; rw [hsame]; exact le_refl _
    | a85 => exact hother (by rw [hu]; decide)
    | ahx => exact hother (by rw [hu]; decide)
  | a85 =>
    refine ⟨fun f => ?_, by rw [hlzw (by rw [hu]; decide)]⟩
    cases f with
    | lzw => exact hother (by rw [hu]; decide)
    | a85 => show _ ≤ t.a85.io.ipos; rw [exec_a85_input hu h]; exact le_refl _
    | ahx => exact hother (by rw [hu]; decide)
  | ahx =>
    refine ⟨fun f => ?_, by rw [hlzw (by rw [hu]; decide)]⟩
    cases f with
    | lzw => exact hother (by rw [hu]; decide)
    | a85 => exact hother (by rw [hu]; decide)
    | ahx => show _ ≤ t.ahx.io.ipos; rw [exec_ahx_input hu h]; exact le_refl _

/-- A fetch moves no input cursor back. -/
theorem fetch_forward (hs : s.Inv) (hg : fetch e s = .got i t) :
    (∀ f, (s.io f).ipos ≤ (t.io f).ipos) ∧ s.lzw.bitPos ≤ t.lzw.bitPos := by
  cases e with
  | lzw =>
    have hw : 1 ≤ width s.lzw.tlen := le_trans (by decide) (width_range s.lzw.tlen).1
    obtain ⟨n, -, -, -, -, -, rfl⟩ | ⟨-, -, ⟨g, hr, -, rfl⟩ | ⟨v, g, hr, -, rfl⟩⟩ := fetchLzw_got hg
    · exact ⟨fun f => by cases f <;> exact le_refl _, le_refl _⟩
    · obtain ⟨hipos, hbit⟩ := hs.lzw.readBits_forward hw (.inl hr)
      exact ⟨fun f => by cases f <;> [exact hipos; exact le_refl _; exact le_refl _], hbit⟩
    · obtain ⟨hipos, hbit⟩ := hs.lzw.readBits_forward hw (.inr ⟨v, hr⟩)
      exact ⟨fun f => by cases f <;> [exact hipos; exact le_refl _; exact le_refl _], hbit⟩
  | a85 =>
    obtain ⟨-, ⟨c, io, hn, -, rfl⟩ | ⟨-, -, -, rfl⟩⟩ := fetchA85_got hg
    · obtain ⟨-, rfl⟩ := Stream.inNext_some hn
      exact ⟨fun f => by cases f <;> [exact le_refl _; exact Nat.le_succ _; exact le_refl _], le_refl _⟩
    · exact ⟨fun _ => le_refl _, le_refl _⟩
  | ahx =>
    obtain ⟨-, ⟨c, io, hn, -, rfl⟩ | ⟨-, -, -, rfl⟩⟩ := fetchAhx_got hg
    · obtain ⟨-, rfl⟩ := Stream.inNext_some hn
      exact ⟨fun f => by cases f <;> [exact le_refl _; exact le_refl _; exact Nat.le_succ _], le_refl _⟩
    · exact ⟨fun _ => le_refl _, le_refl _⟩

/-! ### A step of an engine -/

/-- What a step of an engine leaves of every engine's streams: `OUT` is appended to, no cursor moves back, the host's side
stays. -/
theorem engineStep_streams (hs : s.Inv) (h : engineStep e s = .next t) (f : Engine) :
    (∃ x, (t.io f).out = (s.io f).out ++ x ∧ x.length ≤ 3839) ∧ (s.io f).ipos ≤ (t.io f).ipos ∧
      s.lzw.bitPos ≤ t.lzw.bitPos ∧ (t.io f).inp = (s.io f).inp ∧ (t.io f).eof = (s.io f).eof := by
  obtain ⟨hinp, heof, -⟩ := (engineStep_hostSide h).1 f
  refine ⟨?_, ?_, ?_, hinp, heof⟩ <;> obtain ⟨-, rfl⟩ | ⟨-, i, u, hfetch, hexec⟩ := engineStep_next h
  · exact ⟨[], by simp, by simp⟩
  · rw [← fetch_out hfetch f]
    exact exec_appends (fetch_inv hs hfetch) hexec f
  · exact le_refl _
  · exact ((fetch_forward hs hfetch).1 f).trans ((exec_forward (fetch_inv hs hfetch) hexec).1 f)
  · exact le_refl _
  · exact (fetch_forward hs hfetch).2.trans (exec_forward (fetch_inv hs hfetch) hexec).2

/-- A terminated engine has no step (R216). -/
theorem engineStep_terminated (h : s.terminated e = true) : engineStep e s = .next s := by
  have hfetch : fetch e s = .halted := by
    cases e <;> exact if_pos (by simpa using h)
  cases hfull : s.outFull e with
  | true => exact engineStep_full hfull
  | false => rw [engineStep_room hfull, hfetch]

/-! ### Streams over a step of the block -/

/-- What a step of the block but a reset of engine `e` does to its streams: `OUT` is appended to, no cursor moves back, `IN`
grows, `in_eof` stays high. -/
structure StreamsGrow (e : Engine) (s t : State) : Prop where
  out : ∃ x, (t.io e).out = (s.io e).out ++ x ∧ x.length ≤ 3839
  ipos : (s.io e).ipos ≤ (t.io e).ipos
  bitPos : e = .lzw → s.lzw.bitPos ≤ t.lzw.bitPos
  inp : ∃ x, (t.io e).inp = (s.io e).inp ++ x
  eof : (s.io e).eof = true → (t.io e).eof = true

theorem StreamsGrow.of_agreeOn (h : AgreeOn e s t) : StreamsGrow e s t where
  out := ⟨[], by rw [h.io]; simp, by simp⟩
  ipos := by rw [h.io]
  bitPos := by
    rintro rfl
    exact (congrArg Lzw.bitPos h).ge
  inp := ⟨[], by rw [h.io]; simp⟩
  eof := by rw [h.io]; exact id

theorem step_streams (hs : s.Inv) (h : step s = .next t) (hrst : ∀ rest, s.host ≠ .rst e :: rest) :
    StreamsGrow e s t := by
  cases step_effect h with
  | reset f rest hhost =>
    have hne : f ≠ e := by rintro rfl; exact hrst rest hhost
    exact .of_agreeOn ((hwReset_agreeOn { s with host := rest } f).2.agreeOn hne)
  | port a rest f x eof taken _ _ _ heof =>
    by_cases hf : f = e
    · subst hf
      have hio : (({ s with host := rest } : State).port f x eof taken).io f =
          { s.io f with inp := (s.io f).inp ++ x, eof := eof, taken := taken } := State.io_setIo _ _ _
      refine ⟨⟨[], by rw [hio]; simp, by simp⟩, by rw [hio], ?_, ⟨x, by rw [hio]⟩, fun h => by rw [hio]; exact heof h⟩
      rintro rfl
      exact le_refl _
    · exact .of_agreeOn ((State.port_elsewhere { s with host := rest } f x eof taken).agreeOn hf)
  | engine f rest _ _ hstep =>
    obtain ⟨hout, hipos, hbit, hinp, heof⟩ := engineStep_streams (hs.withHost f rest) hstep e
    exact ⟨hout, hipos, fun _ => hbit, ⟨[], hinp.trans (List.append_nil _).symm⟩, fun h => heof.trans h⟩

/-- The cursor of every engine is inside its input (R24). -/
theorem State.Inv.ipos_le (h : s.Inv) (e : Engine) : (s.io e).ipos ≤ (s.io e).inp.length := by
  cases e with
  | lzw => exact h.lzw.io.ipos_le
  | a85 => exact h.a85.io.ipos_le
  | ahx => exact h.ahx.io.ipos_le

/-- No engine's consumer has a byte that was not emitted (R22). -/
theorem State.Inv.taken_le (h : s.Inv) (e : Engine) : (s.io e).taken ≤ (s.io e).out.length := by
  cases e with
  | lzw => exact h.lzw.io.taken_le
  | a85 => exact h.a85.io.taken_le
  | ahx => exact h.ahx.io.taken_le

/-! ### Termination -/

/-- A terminated engine stays as it is over every step but its reset, `in_eof` and the count of bytes taken aside. -/
theorem step_frozen (hterm : s.terminated e = true) (h : step s = .next t) (hrst : ∀ rest, s.host ≠ .rst e :: rest) :
    ∃ eof taken, AgreeOn e (s.setIo e { s.io e with eof := eof, taken := taken }) t := by
  have hself : AgreeOn e s t → ∃ eof taken, AgreeOn e (s.setIo e { s.io e with eof := eof, taken := taken }) t :=
    fun hagree => ⟨(s.io e).eof, (s.io e).taken, by cases e <;> exact hagree⟩
  cases step_effect h with
  | reset f rest hhost =>
    have hne : f ≠ e := by rintro rfl; exact hrst rest hhost
    exact hself ((hwReset_agreeOn { s with host := rest } f).2.agreeOn hne)
  | port a rest f x eof taken _ _ hx =>
    by_cases hf : f = e
    · subst hf
      rw [hx hterm, State.port_nil]
      exact ⟨eof, taken, by cases f <;> rfl⟩
    · exact hself ((State.port_elsewhere { s with host := rest } f x eof taken).agreeOn hf)
  | engine f rest _ _ hstep =>
    by_cases hf : f = e
    · subst hf
      rw [engineStep_terminated (s := { s with active := f, host := rest }) hterm] at hstep
      cases hstep
      exact hself (by cases f <;> rfl)
    · exact hself ((engineStep_elsewhere hstep).agreeOn hf)

end Machine

open Machine

/-! ### The statements -/

/-- Settles O1: the values of the reset state, by evaluation. -/
theorem resetHoldsTheSpecsValues : Obligations.ResetHoldsTheSpecsValues := by
  intro m
  refine ⟨rfl, rfl, fun i hi => Memory.read_literal _ hi, rfl, rfl, rfl, rfl, rfl, rfl, rfl, rfl, rfl, rfl, rfl, rfl, ?_⟩
  intro e
  cases e <;> exact ⟨rfl, rfl, rfl⟩

/-- The step of a waiting `rst`. -/
theorem step_rst {s : State} {e : Engine} {rest : List HostAct} (h : s.host = .rst e :: rest) :
    step s = .next (hwReset e { s with host := rest }) := by
  rw [step, h]
  rfl

/-- Settles O2: the step is `hwReset`. -/
theorem hardwareResetRestoresOneEngine : Obligations.HardwareResetRestoresOneEngine :=
  fun _ _ _ h => ⟨_, step_rst h, hwReset_agreeOn _ _⟩

/-- Settles O3: the reset state has no dynamic entry and an empty `prev`. -/
theorem invariantsHoldAtReset : Obligations.InvariantsHoldAtReset :=
  fun m => ⟨State.resetWith_inv m, fun _ hlo hhi => absurd hhi (not_lt.mpr hlo), .inl rfl⟩

/-- Settles O5: the table's read after write, and its hardwired slots. -/
theorem tableSlotsBelow258AreHardwired : Obligations.TableSlotsBelow258AreHardwired :=
  fun m i j x => ⟨m.read_write i j x, fun h => m.read_literal h, fun h => m.read_reserved h⟩

/-- Settles O6: every effect on the table keeps its entries linked. -/
theorem stepKeepsEntriesLinked : Obligations.StepKeepsEntriesLinked :=
  fun _ _ hs hlinked h => hlinked.of_tableEffect hs.lzw.tlen_lo (step_tableEffect hs h)

/-- Settles O36: an append writes slot `tlen`, which no earlier entry has. -/
theorem tableIsAppendOnlyBetweenResets : Obligations.TableIsAppendOnlyBetweenResets := by
  intro s t hs h
  cases step_tableEffect hs h with
  | keeps hread htlen => exact .inr ⟨htlen.ge, by omega, fun i _ => hread i⟩
  | clear htlen hprev => exact .inl ⟨htlen, hprev⟩
  | append b x hp hother hroom => exact .inr ⟨by omega, by omega, fun i hi => hother i hi.ne⟩

/-- Settles O37: `tlen` grows by the append alone. -/
theorem newEntryIsPreviousChunkAndNextByte : Obligations.NewEntryIsPreviousChunkAndNextByte := by
  intro s t hs h hgrow
  have hlo := hs.lzw.tlen_lo
  cases step_tableEffect hs h with
  | keeps hread htlen => omega
  | clear htlen => omega
  | append b x hp hother hroom hchunk hprev hout =>
    obtain ⟨-, -, hnew⟩ | ⟨-, htlen⟩ := hroom
    · exact ⟨b, x, hout, hprev, hp, hnew⟩
    · omega

/-- Settles O12: over every step but a reset the streams only grow. -/
theorem outputIsOnlyAppended : Obligations.OutputIsOnlyAppended := fun _ _ _ hs h hrst => (step_streams hs h hrst).out

/-- Settles O13: over every step but a reset the streams only grow, and the invariant bounds the cursor. -/
theorem inputCursorMovesForwardOnly : Obligations.InputCursorMovesForwardOnly := by
  intro s t e hs h hrst
  have hgrow := step_streams hs h hrst
  exact ⟨hgrow.ipos, (step_inv hs h).ipos_le e, hgrow.inp, hgrow.bitPos⟩

/-- Settles O11: a terminated engine is frozen until its reset, which gives the reset state. -/
theorem onlyResetLeavesTermination : Obligations.OnlyResetLeavesTermination := by
  refine fun s t e hterm h => ⟨fun hrst => ?_, fun ⟨rest, hhost⟩ => ?_⟩
  · obtain ⟨eof, taken, hagree⟩ := step_frozen hterm h hrst
    obtain ⟨lzw, a85, ahx, active, host⟩ := t
    cases e with
    | lzw =>
      obtain rfl : lzw = _ := hagree
      exact ⟨hterm, rfl, fun _ => rfl, nofun, nofun⟩
    | a85 =>
      obtain rfl : a85 = _ := hagree
      exact ⟨hterm, rfl, nofun, fun _ => rfl, nofun⟩
    | ahx =>
      obtain rfl : ahx = _ := hagree
      exact ⟨hterm, rfl, nofun, nofun, fun _ => rfl⟩
  · rw [step_rst hhost] at h
    cases h
    cases e <;> exact ⟨rfl, rfl, rfl, rfl⟩

/-- Settles O16: the three answers to an offer by `terminated` and `in_eof`, and that no step but a reset lowers `in_eof`. -/
theorem hostSuppliesTheInput : Obligations.HostSuppliesTheInput := by
  refine ⟨fun s e b rest => ⟨?_, fun hhost => ?_, fun hhost => ?_⟩, fun s t e hs h hrst => (step_streams hs h hrst).eof⟩
  · simp [State.inReady]
  · have hstep : step s = hostOffer e b { s with host := rest } := by rw [step, hhost]; rfl
    have hterm : s.inReady e = !s.terminated e := rfl
    rw [hstep, hterm, hostOffer]
    refine ⟨fun hready heof => ?_, fun hready => ?_, fun hready heof => ?_⟩
    · have hready : ¬ s.terminated e = true := by simpa using hready
      have heof : ¬ (s.io e).eof = true := by simp [heof]
      exact (if_neg hready).trans (if_neg heof)
    · have hready : s.terminated e = true := by simpa using hready
      exact if_pos hready
    · have hready : ¬ s.terminated e = true := by simpa using hready
      exact (if_neg hready).trans (if_pos heof)
  · rw [step, hhost]
    rfl

namespace Machine

variable {s : State} {e : Engine}

theorem State.outValid_iff : s.outValid e = true ↔ (s.io e).taken < (s.io e).out.length := by
  simp [State.outValid]

/-- A transfer, with a byte on offer or with none (R22). -/
theorem hostTake_eq (s : State) (e : Engine) :
    hostTake e s = s.setIo e { s.io e with taken := (s.io e).taken + if s.outValid e then 1 else 0 } := by
  rw [hostTake]
  cases s.outValid e with
  | true => rfl
  | false => cases e <;> rfl

end Machine

/-- Settles O15: the step is one transfer, and the consumer never has more than was emitted. -/
theorem consumerTakesOutputInOrder : Obligations.ConsumerTakesOutputInOrder := by
  intro s e rest hs hhost
  have hstep : step s = .next (hostTake e { s with host := rest }) := by rw [step, hhost]; rfl
  rw [hostTake_eq] at hstep
  refine ⟨_, hstep, rfl, State.outValid_iff, rfl, ?_, fun hvalid => ?_, ?_⟩
  · rw [State.outValid_iff, State.outData, isSome_getElem?]
  · rw [State.outData, State.io_setIo, show ({ s with host := rest } : State).outValid e = true from hvalid]
    rfl
  · have hle := (step_inv hs hstep).taken_le e
    rw [State.done, Bool.and_eq_true, decide_eq_true_eq]
    exact and_congr_right fun _ => ⟨fun h => le_antisymm hle h, fun h => h.ge⟩

end Sys2Proof
end

section
/-!
PROOFS. Where the meanings answer: exactly where their class applies; and that a fetch finds a class that applies, so no step
of a state that meets the invariant stops while the host keeps its duties (spec/60_exceptions.md section 1).
-/

namespace Sys2Proof
namespace Machine

variable {s t u : State} {i : Instr} {e : Engine}

/-- The response that a read leaves, and the cursor behind the end of the input (R121, R122). -/
theorem readBits_resp {n : Nat} {e e' : Lzw} :
    (readBits n e = .endOfInput e' → e'.resp = .endOfInput ∧ e'.bpos = 8) ∧
      ∀ v, readBits n e = .value v e' → e'.resp = .value (BitVec.ofNat 32 v) := by
  unfold readBits
  split
  · exact ⟨nofun, fun v h => by cases h; rfl⟩
  · split
    · exact ⟨fun h => by cases h; exact ⟨rfl, rfl⟩, nofun⟩
    · exact ⟨nofun, nofun⟩

section Request

variable {n : BitVec 6} (hn : 1 ≤ n.toNat ∧ n.toNat ≤ 32)
include hn

theorem exec_brRead_value {v : Nat} {g : Lzw} (hr : readBits n.toNat s.lzw = .value v g) :
    exec (.brRead n) s = .next { s with lzw := g } := by
  rw [exec, execBrRead, if_pos hn, hr]

theorem exec_brRead_endOfInput {g : Lzw} (hr : readBits n.toNat s.lzw = .endOfInput g) :
    exec (.brRead n) s = .next { s with lzw := g } := by
  rw [exec, execBrRead, if_pos hn, hr]

theorem exec_brRead_waits (hr : readBits n.toNat s.lzw = .waits) : exec (.brRead n) s = .next s := by
  rw [exec, execBrRead, if_pos hn, hr]

/-- A request inside its contract is answered, or waits with the state unchanged. -/
theorem exec_brRead_answers (s : State) : ∃ t, exec (.brRead n) s = .next t := by
  cases hr : readBits n.toNat s.lzw with
  | waits => exact ⟨_, exec_brRead_waits hn hr⟩
  | endOfInput g => exact ⟨_, exec_brRead_endOfInput hn hr⟩
  | value v g => exact ⟨_, exec_brRead_value hn hr⟩

end Request

theorem exec_a85Digit_answers (hf : s.a85.fsm = .running) {c : Byte} (hc : 33 ≤ c.toNat ∧ c.toNat ≤ 117) :
    ∃ t, exec (.a85Digit c) s = .next t := by
  by_cases hn : s.a85.cnt = 4
  · obtain hfit | hover := lt_or_ge (s.a85.acc * 85 + (c.toNat - 33)) (2 ^ 32)
    · exact ⟨_, exec_a85Digit_fifth hf hc hn hfit⟩
    · exact ⟨_, exec_a85Digit_overflow hf hc hn hover⟩
  · exact ⟨_, exec_a85Digit_pending hf hc hn⟩

theorem exec_a85End_answers (hf : s.a85.fsm = .running) : ∃ t, exec .a85End s = .next t := by
  by_cases hn : s.a85.cnt = 0
  · exact ⟨_, exec_a85End_empty hf hn⟩
  · obtain hfit | hover := lt_or_ge (padGroup (5 - s.a85.cnt) s.a85.acc) (2 ^ 32)
    · exact ⟨_, exec_a85End_group hf hn hfit⟩
    · exact ⟨_, exec_a85End_overflow hf hn hover⟩

theorem exec_ahxDigit_answers (hf : s.ahx.fsm = .running) {c : Byte} {d : Nat} (hd : hexValue? c = some d) :
    ∃ t, exec (.ahxDigit c) s = .next t := by
  cases hp : s.ahx.pv with
  | false => exact ⟨_, exec_ahxDigit_begins hf hd hp⟩
  | true =>
    cases hm : s.ahx.mode with
    | stream => exact ⟨_, exec_ahxDigit_pair hf hd hp (.inl hm)⟩
    | adjacent =>
      cases hsep : s.ahx.sep with
      | false => exact ⟨_, exec_ahxDigit_pair hf hd hp (.inr hsep)⟩
      | true => exact ⟨_, exec_ahxDigit_dropped hf hd hp hm hsep⟩

theorem exec_ahxSkip_answers (hf : s.ahx.fsm = .running) {c : Byte} (hc : (Instr.ahxSkip c).wellFormed = true) :
    ∃ t, exec (.ahxSkip c) s = .next t := by
  by_cases hm : s.ahx.mode = .adjacent ∧ s.ahx.pv = true
  · exact ⟨_, exec_ahxSkip_marks hf hc hm.1 hm.2⟩
  · refine ⟨_, exec_ahxSkip_keeps hf hc ?_⟩
    cases hmode : s.ahx.mode with
    | stream => exact .inl rfl
    | adjacent => exact .inr (by simpa [hmode] using hm)

/-- Where its class can be met, a meaning with an operand of the table answers a next state. -/
theorem exec_answers (hs : s.Inv) (hwf : i.wellFormed = true) (hmeets : s.Meets i) : ∃ t, exec i s = .next t := by
  cases i with
  | brRead n => exact exec_brRead_answers ((wellFormed_brRead n).mp hwf) s
  | lzwEoi => exact ⟨_, exec_lzwEoi hmeets.1 hmeets.2⟩
  | lzwClear => exact ⟨_, exec_lzwClear hmeets⟩
  | lzwEod => exact ⟨_, exec_lzwEod hmeets⟩
  | lzwNoclear code => exact ⟨_, exec_lzwNoclear hmeets (isDataCode_iff.mpr ((wellFormed_lzwNoclear code).mp hwf))⟩
  | lzwFirst code => exact ⟨_, exec_lzwFirst hmeets.1 hmeets.2 ((wellFormed_lzwFirst code).mp hwf)⟩
  | lzwBadfirst code => exact ⟨_, exec_lzwBadfirst hmeets.1 hmeets.2 ((wellFormed_lzwBadfirst code).mp hwf)⟩
  | lzwRef code =>
    obtain ⟨hf, hp, hlt⟩ := hmeets
    have hd := (wellFormed_lzwRef code).mp hwf
    obtain ⟨b, x, hread⟩ := hs.lzw.readable hlt hd.1 hd.2
    exact ⟨_, exec_lzwRef hf hp hlt (isDataCode_iff.mpr hd) hread⟩
  | lzwKwkwk code =>
    obtain ⟨hf, hp, heq⟩ := hmeets
    have hlo := (wellFormed_lzwKwkwk code).mp hwf
    obtain ⟨b, x, hprev⟩ := List.exists_cons_of_ne_nil hp
    exact ⟨_, exec_lzwKwkwk hf hprev heq (isDataCode_iff.mpr (by omega))⟩
  | lzwCorrupt code =>
    obtain ⟨hf, hp, hgt⟩ := hmeets
    have hlo := (wellFormed_lzwCorrupt code).mp hwf
    exact ⟨_, exec_lzwCorrupt hf hp hgt (isDataCode_iff.mpr (by omega))⟩
  | a85Eoi => exact ⟨_, exec_a85Eoi hmeets.1 hmeets.2⟩
  | a85Digit c => exact exec_a85Digit_answers hmeets ((wellFormed_a85Digit c).mp hwf)
  | a85Z => exact ⟨_, exec_a85Z hmeets.1 hmeets.2⟩
  | a85Zbad => exact ⟨_, exec_a85Zbad hmeets.1 hmeets.2⟩
  | a85End => exact exec_a85End_answers hmeets
  | a85Skip c => exact ⟨_, exec_a85Skip hmeets hwf⟩
  | ahxEoi => exact ⟨_, exec_ahxEoi hmeets.1 hmeets.2⟩
  | ahxDigit c =>
    obtain ⟨d, hd⟩ := (wellFormed_ahxDigit c).mp hwf
    exact exec_ahxDigit_answers hmeets hd
  | ahxEnd => exact ⟨_, exec_ahxEnd hmeets⟩
  | ahxSkip c => exact exec_ahxSkip_answers hmeets hwf

/-- Elsewhere a meaning is refused: a request by its count, any other class because it does not apply (D12, log 9). -/
theorem exec_refuses (hs : s.Inv) (h : ¬ (i.wellFormed = true ∧ s.Meets i)) :
    exec i s = .refused .classDoesNotApply ∨ ∃ n, i = .brRead n ∧ exec i s = .refused (.requestOutOfContract n) := by
  have hlo := hs.lzw.tlen_lo
  cases i with
  | brRead n =>
    exact .inr ⟨n, rfl, if_neg fun hn => h ⟨(wellFormed_brRead n).mpr hn, trivial⟩⟩
  | lzwEoi | lzwClear | lzwEod | a85Eoi | a85Z | a85Zbad | a85End | ahxEoi | ahxEnd =>
    exact .inl (if_neg fun hc => h ⟨rfl, hc⟩)
  | lzwNoclear code =>
    exact .inl (if_neg fun ⟨hf, hd⟩ => h ⟨(wellFormed_lzwNoclear code).mpr (isDataCode_iff.mp hd), hf⟩)
  | lzwFirst code => exact .inl (if_neg fun ⟨hf, hp, hc⟩ => h ⟨(wellFormed_lzwFirst code).mpr hc, hf, hp⟩)
  | lzwBadfirst code => exact .inl (if_neg fun ⟨hf, hp, hc⟩ => h ⟨(wellFormed_lzwBadfirst code).mpr hc, hf, hp⟩)
  | lzwRef code =>
    exact .inl (if_neg fun ⟨hf, hp, hc, hd⟩ => h ⟨(wellFormed_lzwRef code).mpr (isDataCode_iff.mp hd), hf, hp, hc⟩)
  | lzwKwkwk code =>
    exact .inl (if_neg fun ⟨hf, hp, hc, _⟩ => h ⟨(wellFormed_lzwKwkwk code).mpr (by omega), hf, hp, hc⟩)
  | lzwCorrupt code =>
    exact .inl (if_neg fun ⟨hf, hp, hc, _⟩ => h ⟨(wellFormed_lzwCorrupt code).mpr (by omega), hf, hp, hc⟩)
  | a85Digit c =>
    exact .inl (if_neg fun ⟨hf, hc⟩ => h ⟨(wellFormed_a85Digit c).mpr (isA85Digit_iff.mp hc), hf⟩)
  | a85Skip c =>
    refine .inl (if_neg fun ⟨hf, hd, hz, htilde⟩ => h ⟨(wellFormed_a85Skip c).mpr ?_, hf⟩)
    rw [isA85Digit_iff] at hd
    rw [ne_eq, eq_a85ZChar_iff] at hz
    rw [ne_eq, eq_a85Tilde_iff] at htilde
    omega
  | ahxDigit c =>
    by_cases hf : s.ahx.fsm = .running
    · have hv : hexValue? c = none :=
        Option.eq_none_iff_forall_not_mem.mpr fun d hd => h ⟨(wellFormed_ahxDigit c).mpr ⟨d, hd⟩, hf⟩
      exact .inl (by simp only [exec, execAhxDigit, hf, hv, if_true])
    · exact .inl (if_neg hf)
  | ahxSkip c => exact .inl (if_neg fun ⟨hf, hc⟩ => h ⟨(wellFormed_ahxSkip c).mpr hc, hf⟩)

/-- The class of an ASCII85 byte can be met by a running engine, at its own count of pending digits (R100). -/
theorem meets_classifyA85 (hf : s.a85.fsm = .running) (c : Byte) : s.Meets (classifyA85 s.a85.cnt c) := by
  obtain ⟨-, hclass⟩ | ⟨⟨-, hn⟩, hclass⟩ | ⟨⟨-, hn⟩, hclass⟩ | ⟨-, hclass⟩ | ⟨-, hclass⟩ := classifyA85_cases s.a85.cnt c <;>
    rw [hclass]
  · exact hf
  · exact ⟨hf, hn⟩
  · exact ⟨hf, hn⟩
  · exact hf
  · exact hf

/-- The class of an ASCIIHex byte can be met by a running engine (R101). -/
theorem meets_classifyAhx (hf : s.ahx.fsm = .running) (c : Byte) : s.Meets (classifyAhx c) := by
  obtain ⟨-, hclass⟩ | ⟨-, -, hclass⟩ | ⟨-, -, hclass⟩ := classifyAhx_cases c <;> rw [hclass] <;> exact hf

/-- What a fetch finds has a meaning. -/
theorem exec_fetched (hs : s.Inv) (hg : fetch e s = .got i u) : ∃ t, exec i u = .next t := by
  have hu := fetch_inv hs hg
  cases e with
  | lzw =>
    obtain ⟨n, -, h1, h32, rfl, -, rfl⟩ | ⟨-, hf, hcode⟩ := fetchLzw_got hg
    · exact exec_brRead_answers ⟨h1, h32⟩ _
    have hw : 1 ≤ width s.lzw.tlen := le_trans (by decide) (width_range s.lzw.tlen).1
    obtain ⟨g, hr, rfl, rfl⟩ | ⟨v, g, hr, rfl, rfl⟩ := hcode
    · have hmoved := (hs.lzw.readBits_moved hw).1 _ hr
      exact ⟨_, exec_lzwEoi (hmoved.fsm.trans_ne hf) (readBits_resp.1 hr).1⟩
    · have hmoved := (hs.lzw.readBits_moved hw).2 _ _ hr
      rw [← hmoved.context]
      exact exec_classifyCode hu (hmoved.fsm.trans_ne hf) _
  | a85 =>
    obtain ⟨hf, ⟨c, io, -, rfl, rfl⟩ | ⟨-, he, rfl, rfl⟩⟩ := fetchA85_got hg
    · exact exec_answers hu (encode_classifyA85 s.context _ c).1 (meets_classifyA85 (s := s.setIo .a85 io) hf c)
    · exact ⟨_, exec_a85Eoi hf he⟩
  | ahx =>
    obtain ⟨hf, ⟨c, io, -, rfl, rfl⟩ | ⟨-, he, rfl, rfl⟩⟩ := fetchAhx_got hg
    · exact exec_answers hu (encode_classifyAhx s.context c).1 (meets_classifyAhx (s := s.setIo .ahx io) hf c)
    · exact ⟨_, exec_ahxEoi hf he⟩

/-- A fetch rejects nothing but a standing request outside its contract (R123). -/
theorem fetch_rejected {n : BitVec 6} (h : fetch e s = .rejected n) :
    s.lzw.req = some n ∧ ¬ (1 ≤ n.toNat ∧ n.toNat ≤ 32) := by
  cases e with
  | lzw =>
    simp only [fetch, fetchLzw] at h
    split at h
    · cases h
    · split at h
      · rename_i m hm
        unfold fetchRequest classifyRequest at h
        split at h
        · rename_i hc
          cases h
          exact ⟨hm, fun hn => by rw [if_pos hn] at hc; cases hc⟩
        · split at h <;> cases h
      · unfold fetchCode at h
        split at h <;> cases h
  | a85 =>
    simp only [fetch, fetchA85] at h
    split at h
    · cases h
    · split at h
      · cases h
      · split at h <;> cases h
  | ahx =>
    simp only [fetch, fetchAhx] at h
    split at h
    · cases h
    · split at h
      · cases h
      · split at h <;> cases h

/-- While a standing request is inside its contract, every engine's step answers. -/
theorem engineStep_answers (hs : s.Inv) (hreq : ∀ n, s.lzw.req = some n → 1 ≤ n.toNat ∧ n.toNat ≤ 32) (e : Engine) :
    ∃ t, engineStep e s = .next t := by
  cases hfull : s.outFull e with
  | true => exact ⟨s, engineStep_full hfull⟩
  | false =>
    rw [engineStep_room hfull]
    cases hfetch : fetch e s with
    | halted => exact ⟨s, rfl⟩
    | waits => exact ⟨s, rfl⟩
    | rejected n =>
      obtain ⟨hn, hout⟩ := fetch_rejected hfetch
      exact absurd (hreq n hn) hout
    | got i u => exact exec_fetched hs hfetch

end Machine

open Machine

/-- Settles O17: the condition of each meaning is its class's, with the operand ranges of the table. -/
theorem meaningsRunExactlyWhereTheirClassApplies : Obligations.MeaningsRunExactlyWhereTheirClassApplies :=
  fun _ _ hs => ⟨fun hwf hmeets => exec_answers hs hwf hmeets, fun h => exec_refuses hs h⟩

/-- Settles O7: an engine's step answers, and of the host's actions only an offer can be refused. -/
theorem stepAlwaysAnswersUnderHostDuty : Obligations.StepAlwaysAnswersUnderHostDuty := by
  intro s hs hduty
  obtain ⟨-, hstep⟩ | ⟨a, rest, hhost, hstep⟩ := step_eq s <;> rw [hstep]
  · exact engineStep_answers hs hduty.contract _
  · cases a with
    | rst e => exact ⟨_, rfl⟩
    | eof e => exact ⟨_, rfl⟩
    | take e => exact ⟨_, rfl⟩
    | run e => exact engineStep_answers (hs.withHost e rest) hduty.contract e
    | offer e b =>
      by_cases hterm : s.terminated e = true
      · exact ⟨_, if_pos hterm⟩
      · have heof : ¬ (s.io e).eof = true := by simp [(hduty.offer e b rest hhost).resolve_left hterm]
        exact ⟨_, (if_neg hterm).trans (if_neg heof)⟩

end Sys2Proof
end

section
/-!
PROOFS. What a step depends on. A step of an engine reads its own engine alone, and of that neither how many bytes the
consumer has taken nor input that comes later; so waits, transfers and other engines change no result. And what a step runs:
the instruction that the decoder reads from the unread bits.
-/

namespace Sys2Proof
namespace Machine

variable {s t u : State} {i : Instr} {e : Engine} {x : Bytes} {eof : Bool} {n : Nat}

/-! ### Fetches, case by case -/

/-- A standing request inside its contract is fetched once its read has an answer (R125; log 8). -/
theorem fetchLzw_request {k : BitVec 6} (hf : s.lzw.fsm ≠ .terminated) (hreq : s.lzw.req = some k)
    (hk : 1 ≤ k.toNat ∧ k.toNat ≤ 32) (hr : readBits k.toNat s.lzw ≠ .waits) :
    fetch .lzw s = .got (.brRead k) { s with lzw := { s.lzw with req := none } } := by
  simp only [fetch, fetchLzw, hreq, fetchRequest, classifyRequest, if_pos hk, if_neg hf]

/-- The LZW engine waits for the bytes of a standing request or of its next code (R22, R256). -/
theorem fetchLzw_waits_iff : fetch .lzw s = .waits ↔ s.lzw.fsm ≠ .terminated ∧
    ((∃ k, s.lzw.req = some k ∧ (1 ≤ k.toNat ∧ k.toNat ≤ 32) ∧ readBits k.toNat s.lzw = .waits) ∨
      (s.lzw.req = none ∧ readBits (width s.lzw.tlen) s.lzw = .waits)) := by
  by_cases hf : s.lzw.fsm = .terminated
  · simp [fetch, fetchLzw, hf]
  cases hreq : s.lzw.req with
  | none =>
    rw [fetchLzw_noreq hreq hf, fetchCode]
    cases readBits (width s.lzw.tlen) s.lzw <;> simp [hf]
  | some k =>
    simp only [fetch, fetchLzw, hreq, hf, if_false, fetchRequest, classifyRequest]
    by_cases hk : 1 ≤ k.toNat ∧ k.toNat ≤ 32
    · cases hr : readBits k.toNat s.lzw <;> simp [hf, hk, hr]
    · simp [hk]

/-- A text engine waits where no byte is left and `in_eof` is low (R22, R256). -/
theorem fetchA85_waits_iff : fetch .a85 s = .waits ↔
    s.a85.fsm ≠ .terminated ∧ s.a85.io.inNext = none ∧ s.a85.io.inExhausted = false := by
  simp only [fetch, fetchA85]
  by_cases hf : s.a85.fsm = .terminated
  · simp [hf]
  cases s.a85.io.inNext <;> simp [hf]

theorem fetchAhx_waits_iff : fetch .ahx s = .waits ↔
    s.ahx.fsm ≠ .terminated ∧ s.ahx.io.inNext = none ∧ s.ahx.io.inExhausted = false := by
  simp only [fetch, fetchAhx]
  by_cases hf : s.ahx.fsm = .terminated
  · simp [hf]
  cases s.ahx.io.inNext <;> simp [hf]

/-- A fetch is halted in `Terminated` alone (R216). -/
theorem fetch_halted (h : fetch e s = .halted) : s.terminated e = true := by
  cases e with
  | lzw =>
    by_contra hf
    have hf : s.lzw.fsm ≠ .terminated := by simpa using hf
    cases hreq : s.lzw.req with
    | none =>
      rw [fetchLzw_noreq hreq hf, fetchCode] at h
      split at h <;> cases h
    | some k =>
      simp only [fetch, fetchLzw, hreq, hf, if_false, fetchRequest] at h
      split at h
      · cases h
      · split at h <;> cases h
  | a85 =>
    by_contra hf
    have hf : s.a85.fsm ≠ .terminated := by simpa using hf
    simp only [fetch, fetchA85, hf, if_false] at h
    split at h
    · cases h
    · split at h <;> cases h
  | ahx =>
    by_contra hf
    have hf : s.ahx.fsm ≠ .terminated := by simpa using hf
    simp only [fetch, fetchAhx, hf, if_false] at h
    split at h
    · cases h
    · split at h <;> cases h

/-! ### Input that comes later -/

/-- An LZW engine with its host's side moved on. -/
def Lzw.port (e : Lzw) (x : Bytes) (eof : Bool) (taken : Nat) : Lzw := { e with io := e.io.port x eof taken }

/-- The bytes `x` and the level of `in_eof` can still come: `in_eof` is low, or there is nothing new. -/
def Stream.Later (io : Stream) (x : Bytes) (eof : Bool) : Prop := io.eof = false ∨ (x = [] ∧ eof = io.eof)

theorem Stream.Later.nothing {io : Stream} (h : io.Later x eof) (heof : io.eof = true) : x = [] ∧ eof = io.eof :=
  h.resolve_left (by simp [heof])

/-- A read that finds its bits finds the same ones whatever bytes follow. -/
theorem readLoop_append {v k : Nat} {cur : Byte} {bpos ipos : Nat} {rest : Bytes} {w : Nat} {cur' : Byte} {bpos' ipos' : Nat}
    (x : Bytes) (h : readLoop v k cur bpos ipos rest = .value w cur' bpos' ipos') :
    readLoop v k cur bpos ipos (rest ++ x) = .value w cur' bpos' ipos' := by
  induction rest generalizing v k cur bpos ipos with
  | nil =>
    rw [readLoop] at h
    split at h
    case isFalse => cases h
    case isTrue hk =>
      cases x with
      | nil => exact (if_pos hk).trans h
      | cons b x => exact (if_pos hk).trans h
  | cons b rest ih =>
    rw [readLoop] at h
    rw [List.cons_append, readLoop]
    split at h
    case isTrue hk => rwa [if_pos hk]
    case isFalse hk =>
      rw [if_neg hk]
      exact ih h

section Reads

variable {g : Lzw} {k : Nat} {l : Lzw} (hin : x = [] ∨ l.io.ipos ≤ l.io.inp.length)
include hin

theorem Lzw.port_rest : (l.port x eof n).io.inp.drop (l.port x eof n).io.ipos = l.io.inp.drop l.io.ipos ++ x := by
  show (l.io.inp ++ x).drop l.io.ipos = _
  obtain rfl | hle := hin
  · simp
  · exact List.drop_append_of_le_length hle

/-- A read that has its bits does not depend on later input, nor on the bytes taken. -/
theorem readBits_port_value {v : Nat} (h : readBits k l = .value v g) :
    readBits k (l.port x eof n) = .value v (g.port x eof n) := by
  unfold readBits at h
  split at h
  · rename_i w cur bpos ipos hloop
    cases h
    have hloop' := readLoop_append x hloop
    rw [← Lzw.port_rest (eof := eof) (n := n) hin] at hloop'
    have hloop' : readLoop 0 k (l.port x eof n).cur (l.port x eof n).bpos (l.port x eof n).io.ipos _ = _ := hloop'
    rw [readBits, hloop']
    rfl
  · split at h <;> cases h

end Reads

/-- With nothing new to read, a read ends as before. -/
theorem readBits_port_nil {k : Nat} {l : Lzw} :
    (∀ g, readBits k l = .endOfInput g → readBits k (l.port [] l.io.eof n) = .endOfInput (g.port [] l.io.eof n)) ∧
      (readBits k l = .waits → readBits k (l.port [] l.io.eof n) = .waits) := by
  have hrest := Lzw.port_rest (x := []) (eof := l.io.eof) (n := n) (l := l) (.inl rfl)
  rw [List.append_nil] at hrest
  have hloop : readLoop 0 k (l.port [] l.io.eof n).cur (l.port [] l.io.eof n).bpos (l.port [] l.io.eof n).io.ipos
      ((l.port [] l.io.eof n).io.inp.drop (l.port [] l.io.eof n).io.ipos) =
      readLoop 0 k l.cur l.bpos l.io.ipos (l.io.inp.drop l.io.ipos) := by rw [hrest]; rfl
  unfold readBits
  rw [hloop]
  split
  · exact ⟨nofun, nofun⟩
  · by_cases heof : l.io.eof = true
    · have heof' : (l.port [] l.io.eof n).io.eof = true := heof
      rw [if_pos heof, if_pos heof']
      exact ⟨fun g h => by cases h; rfl, nofun⟩
    · have heof' : ¬ (l.port [] l.io.eof n).io.eof = true := heof
      rw [if_neg heof, if_neg heof']
      exact ⟨nofun, fun _ => rfl⟩

theorem readBits_waits_iff {k : Nat} {l : Lzw} : readBits k l = .waits ↔
    (∃ cur ipos, readLoop 0 k l.cur l.bpos l.io.ipos (l.io.inp.drop l.io.ipos) = .noByte cur ipos) ∧ l.io.eof = false := by
  rw [readBits]
  cases readLoop 0 k l.cur l.bpos l.io.ipos (l.io.inp.drop l.io.ipos) with
  | value v cur bpos ipos => simp
  | noByte cur ipos => cases l.io.eof <;> simp

/-- A standing request is fetched only where its read has an answer. -/
theorem fetch_brRead {k : BitVec 6} (hg : fetch e s = .got (.brRead k) t) : readBits k.toNat t.lzw ≠ .waits := by
  obtain ⟨hunit, -⟩ := fetch_unit hg
  obtain rfl : Engine.lzw = e := hunit
  obtain ⟨m, -, -, -, hi, hr, rfl⟩ | ⟨-, -, ⟨g, -, hi, -⟩ | ⟨v, g, -, hi, -⟩⟩ := fetchLzw_got hg
  · cases hi
    intro hwait
    obtain ⟨hloop, heof⟩ := readBits_waits_iff.mp hwait
    exact hr (readBits_waits_iff.mpr ⟨hloop, heof⟩)
  · cases hi
  · have hcode := classifyCode_unit s.context (BitVec.ofNat 12 v)
    rw [← hi] at hcode
    cases hcode

/-- `EndOfInput` is answered once `in_eof` is high only (R122). -/
theorem readBits_endOfInput_eof {k : Nat} {l g : Lzw} (h : readBits k l = .endOfInput g) : l.io.eof = true := by
  unfold readBits at h
  split at h
  · cases h
  · split at h
    · assumption
    · cases h

/-- A byte that is there is the next one whatever follows. -/
theorem Stream.inNext_port {io jo : Stream} {c : Byte} (h : io.inNext = some (c, jo)) :
    (io.port x eof n).inNext = some (c, jo.port x eof n) := by
  obtain ⟨hc, rfl⟩ := Stream.inNext_some h
  obtain ⟨hlt, -⟩ := List.getElem?_eq_some_iff.mp hc
  have hc' : (io.port x eof n).inp[(io.port x eof n).ipos]? = some c := (List.getElem?_append_left hlt).trans hc
  simp only [Stream.inNext, hc']
  rfl

theorem Stream.inNext_port_nil {io : Stream} (h : io.inNext = none) : (io.port [] eof n).inNext = none := by
  simp only [Stream.inNext, Stream.port, List.append_nil] at h ⊢
  split at h
  · cases h
  · rfl

theorem Stream.inExhausted_port_nil (io : Stream) : (io.port [] io.eof n).inExhausted = io.inExhausted := by
  simp [Stream.inExhausted, Stream.port]

/-- What an engine fetches does not depend on later input, on the bytes taken, or on other engines. -/
theorem fetch_port (hin : x = [] ∨ s.Inv) (hlater : (s.io e).Later x eof) (ht : AgreeOn e (s.port e x eof n) t)
    (hg : fetch e s = .got i u) : ∃ v, fetch e t = .got i v ∧ AgreeOn e (u.port e x eof n) v := by
  obtain ⟨lzw, a85, ahx, active, host⟩ := t
  cases e with
  | lzw =>
    obtain rfl : lzw = s.lzw.port x eof n := ht
    have hin : x = [] ∨ s.lzw.io.ipos ≤ s.lzw.io.inp.length := hin.imp_right fun hs => hs.ipos_le .lzw
    have hend : ∀ {k g}, readBits k s.lzw = .endOfInput g → readBits k (s.lzw.port x eof n) = .endOfInput (g.port x eof n) := by
      intro k g hr
      obtain ⟨rfl, rfl⟩ := hlater.nothing (readBits_endOfInput_eof hr)
      exact readBits_port_nil.1 g hr
    obtain ⟨k, hreq, h1, h32, rfl, hr, rfl⟩ | ⟨hreq, hf, ⟨g, hr, rfl, rfl⟩ | ⟨v, g, hr, rfl, rfl⟩⟩ := fetchLzw_got hg
    · have hf := fetchLzw_running hg
      refine ⟨_, fetchLzw_request (s := ⟨s.lzw.port x eof n, a85, ahx, active, host⟩) hf hreq ⟨h1, h32⟩ ?_, rfl⟩
      show readBits _ (s.lzw.port x eof n) ≠ .waits
      cases hread : readBits k.toNat s.lzw with
      | waits => exact absurd hread hr
      | endOfInput g => rw [hend hread]; nofun
      | value v g => rw [readBits_port_value hin hread]; nofun
    · have hr' : readBits (width (s.lzw.port x eof n).tlen) (s.lzw.port x eof n) = .endOfInput (g.port x eof n) := hend hr
      rw [fetchLzw_noreq (by exact hreq) (by exact hf)]
      exact ⟨⟨g.port x eof n, a85, ahx, active, host⟩, by simp only [fetchCode, hr'], rfl⟩
    · have hr' : readBits (width (s.lzw.port x eof n).tlen) (s.lzw.port x eof n) = .value v (g.port x eof n) :=
        readBits_port_value hin hr
      rw [fetchLzw_noreq (by exact hreq) (by exact hf)]
      exact ⟨⟨g.port x eof n, a85, ahx, active, host⟩, by simp only [fetchCode, hr']; rfl, rfl⟩
  | a85 =>
    obtain rfl : a85 = { s.a85 with io := s.a85.io.port x eof n } := ht
    obtain ⟨hf, ⟨c, io, hn, rfl, rfl⟩ | ⟨hn, he, rfl, rfl⟩⟩ := fetchA85_got hg
    · have hn' := Stream.inNext_port (x := x) (eof := eof) (n := n) hn
      exact ⟨⟨lzw, { s.a85 with io := io.port x eof n }, ahx, active, host⟩, by simp only [fetch, fetchA85, hf, hn']; rfl, rfl⟩
    · obtain ⟨rfl, rfl⟩ := hlater.nothing (Stream.inExhausted_iff.mp he).2
      have he' : (u.a85.io.port [] u.a85.io.eof n).inExhausted = true := (Stream.inExhausted_port_nil _).trans he
      exact ⟨_, fetchA85_eq_eoi_iff.mpr ⟨hf, he', rfl⟩, rfl⟩
  | ahx =>
    obtain rfl : ahx = { s.ahx with io := s.ahx.io.port x eof n } := ht
    obtain ⟨hf, ⟨c, io, hn, rfl, rfl⟩ | ⟨hn, he, rfl, rfl⟩⟩ := fetchAhx_got hg
    · have hn' := Stream.inNext_port (x := x) (eof := eof) (n := n) hn
      exact ⟨⟨lzw, a85, { s.ahx with io := io.port x eof n }, active, host⟩, by simp only [fetch, fetchAhx, hf, hn']; rfl, rfl⟩
    · obtain ⟨rfl, rfl⟩ := hlater.nothing (Stream.inExhausted_iff.mp he).2
      have he' : (u.ahx.io.port [] u.ahx.io.eof n).inExhausted = true := (Stream.inExhausted_port_nil _).trans he
      exact ⟨_, fetchAhx_eq_eoi_iff.mpr ⟨hf, he', rfl⟩, rfl⟩

/-- With nothing new to read, an engine that waits still waits. -/
theorem fetch_port_waits (ht : AgreeOn e (s.port e [] (s.io e).eof n) t) (h : fetch e s = .waits) : fetch e t = .waits := by
  obtain ⟨lzw, a85, ahx, active, host⟩ := t
  cases e with
  | lzw =>
    obtain rfl : lzw = s.lzw.port [] s.lzw.io.eof n := ht
    obtain ⟨hf, ⟨k, hreq, hk, hr⟩ | ⟨hreq, hr⟩⟩ := fetchLzw_waits_iff.mp h
    · exact fetchLzw_waits_iff.mpr ⟨hf, .inl ⟨k, hreq, hk, readBits_port_nil.2 hr⟩⟩
    · exact fetchLzw_waits_iff.mpr ⟨hf, .inr ⟨hreq, readBits_port_nil.2 hr⟩⟩
  | a85 =>
    obtain rfl : a85 = { s.a85 with io := s.a85.io.port [] s.a85.io.eof n } := ht
    obtain ⟨hf, hn, he⟩ := fetchA85_waits_iff.mp h
    exact fetchA85_waits_iff.mpr ⟨hf, Stream.inNext_port_nil hn, (Stream.inExhausted_port_nil _).trans he⟩
  | ahx =>
    obtain rfl : ahx = { s.ahx with io := s.ahx.io.port [] s.ahx.io.eof n } := ht
    obtain ⟨hf, hn, he⟩ := fetchAhx_waits_iff.mp h
    exact fetchAhx_waits_iff.mpr ⟨hf, Stream.inNext_port_nil hn, (Stream.inExhausted_port_nil _).trans he⟩

/-- What a meaning does to its engine does not depend on later input, on the bytes taken, or on other engines, where it does
not wait for that input. -/
theorem exec_port (hunit : i.unit.engine = e) (hin : x = [] ∨ s.Inv) (hlater : (s.io e).Later x eof)
    (hread : ∀ k, i = .brRead k → readBits k.toNat s.lzw = .waits → x = [] ∧ eof = (s.io e).eof)
    (ht : AgreeOn e (s.port e x eof n) t) (h : exec i s = .next u) :
    ∃ v, exec i t = .next v ∧ AgreeOn e (u.port e x eof n) v := by
  cases hu : i.unit with
  | bitReader =>
    cases i with
    | brRead k =>
      obtain rfl : Engine.lzw = e := hunit
      obtain ⟨lzw, a85, ahx, active, host⟩ := t
      obtain rfl : lzw = s.lzw.port x eof n := ht
      have hin : x = [] ∨ s.lzw.io.ipos ≤ s.lzw.io.inp.length := hin.imp_right fun hs => hs.ipos_le .lzw
      obtain ⟨h1, h32, hcase⟩ := execBrRead_next h
      obtain ⟨hr, rfl⟩ | ⟨g, hr, rfl⟩ | ⟨v, g, hr, rfl⟩ := hcase
      · obtain ⟨rfl, rfl⟩ := hread k rfl hr
        exact ⟨_, exec_brRead_waits ⟨h1, h32⟩ (readBits_port_nil.2 hr), rfl⟩
      · obtain ⟨rfl, rfl⟩ := hlater.nothing (readBits_endOfInput_eof hr)
        exact ⟨_, exec_brRead_endOfInput ⟨h1, h32⟩ (readBits_port_nil.1 g hr), rfl⟩
      · exact ⟨_, exec_brRead_value ⟨h1, h32⟩ (readBits_port_value hin hr), rfl⟩
    | _ => cases hu
  | lzw =>
    obtain rfl : e = .lzw := by rw [← hunit, hu]; rfl
    refine ⟨_, exec_lzw_withInput (f := s.lzw.port x eof n) hu h ht, ?_⟩
    show u.lzw.withInput _ = u.lzw.port x eof n
    rw [exec_lzw_input hu h]
    rfl
  | a85 =>
    obtain rfl : e = .a85 := by rw [← hunit, hu]; rfl
    refine ⟨_, exec_a85_withSupply (jo := s.a85.io.port x eof n) hu h ?_ ht, ?_⟩
    · rintro rfl
      have he := (execA85Eoi_next h).2.1
      obtain ⟨rfl, rfl⟩ := hlater.nothing (Stream.inExhausted_iff.mp he).2
      rw [ht]
      exact (Stream.inExhausted_port_nil _).trans he
    · show u.a85.withSupply _ = { u.a85 with io := u.a85.io.port x eof n }
      rw [exec_a85_input hu h]
      rfl
  | ahx =>
    obtain rfl : e = .ahx := by rw [← hunit, hu]; rfl
    refine ⟨_, exec_ahx_withSupply (jo := s.ahx.io.port x eof n) hu h ?_ ht, ?_⟩
    · rintro rfl
      have he := (execAhxEoi_next h).2.1
      obtain ⟨rfl, rfl⟩ := hlater.nothing (Stream.inExhausted_iff.mp he).2
      rw [ht]
      exact (Stream.inExhausted_port_nil _).trans he
    · show u.ahx.withSupply _ = { u.ahx with io := u.ahx.io.port x eof n }
      rw [exec_ahx_input hu h]
      rfl

/-- What a step of an engine does to it does not depend on the bytes taken, on other engines, or, unless it waits, on later
input. -/
theorem engineStep_port (hin : x = [] ∨ s.Inv) (hlater : (s.io e).Later x eof)
    (hgo : u ≠ s ∨ (x = [] ∧ eof = (s.io e).eof)) (hroom : s.outFull e = false) (hroom' : t.outFull e = false)
    (ht : AgreeOn e (s.port e x eof n) t) (h : engineStep e s = .next u) :
    ∃ v, engineStep e t = .next v ∧ AgreeOn e (u.port e x eof n) v := by
  obtain ⟨hstay, rfl⟩ | ⟨-, i, w, hfetch, hexec⟩ := engineStep_next h
  · obtain ⟨rfl, rfl⟩ := hgo.resolve_left (absurd rfl)
    obtain hfull | hhalt | hwait := hstay
    · rw [hroom] at hfull; cases hfull
    · have hterm : t.terminated e = true := by
        rw [ht.terminated, State.port, State.terminated_setIo]
        exact fetch_halted hhalt
      exact ⟨t, engineStep_terminated hterm, ht⟩
    · rw [engineStep_room hroom', fetch_port_waits ht hwait]
      exact ⟨t, rfl, ht⟩
  · obtain ⟨hunit, -⟩ := fetch_unit hfetch
    obtain ⟨v, hfetch', hagree⟩ := fetch_port hin hlater ht hfetch
    rw [engineStep_room hroom', hfetch']
    obtain ⟨hio, -, -⟩ := fetch_hostSide hfetch
    have heof : (w.io e).eof = (s.io e).eof := (hio e).2.1
    refine exec_port hunit (hin.imp_right fun hs => fetch_inv hs hfetch) ?_ ?_ hagree hexec
    · rwa [Stream.Later, heof]
    · rintro k rfl hwait
      exact absurd hwait (fetch_brRead hfetch)

/-! ### What a step runs -/

/-- A fetch finds the class that the decoder reads from the unread bits, and stands behind its symbol (R140, R170, R190). -/
theorem fetch_decoded {rest : List Bool} (hs : s.Inv) (hterm : s.terminated e = false) (hreq : e = .lzw → s.lzw.req = none)
    (hdec : decode e.unit s.context (s.unread e) = .ok (i, rest)) (heoi : (s.io e).eof = true ∨ i.isEoi = false) :
    ∃ t, fetch e s = .got i t ∧ t.unread e = rest := by
  cases e with
  | lzw =>
    have hf : s.lzw.fsm ≠ .terminated := by simpa using hterm
    obtain ⟨hcode, hend, -⟩ := fetchCode_spec hs
    rw [fetchLzw_noreq (hreq rfl) hf]
    have hdec : decode .lzw s.context s.lzw.unread = .ok (i, rest) := hdec
    rw [decode] at hdec
    split at hdec
    case isTrue hlen =>
      cases hdec
      obtain ⟨g, hfetch, -, -, hunread⟩ := hend hlen (heoi.resolve_right (by decide))
      exact ⟨_, hfetch, hunread⟩
    case isFalse hlen =>
      cases hdec
      obtain ⟨g, hfetch, -, hunread⟩ := hcode (not_lt.mp hlen)
      exact ⟨_, hfetch, hunread⟩
  | a85 =>
    have hf : s.a85.fsm = .running := TextFsm.eq_running (by simpa using hterm)
    have hdec : decode .a85 s.context (streamBits (s.a85.io.inp.drop s.a85.io.ipos)) = .ok (i, rest) := hdec
    cases hrest : s.a85.io.inp.drop s.a85.io.ipos with
    | nil =>
      rw [hrest] at hdec
      cases hdec
      have heof : s.a85.io.eof = true := heoi.resolve_right (by decide)
      have he := Stream.inExhausted_iff.mpr ⟨(Stream.inNext_nil hrest).2, heof⟩
      exact ⟨s, fetchA85_eq_eoi_iff.mpr ⟨hf, he, rfl⟩, congrArg streamBits hrest⟩
    | cons c r =>
      rw [hrest, streamBits_cons, decode_a85_byteBits] at hdec
      cases hdec
      obtain ⟨hn, hr⟩ := Stream.inNext_cons hrest
      refine ⟨s.setIo .a85 { s.a85.io with ipos := s.a85.io.ipos + 1 }, ?_, congrArg streamBits hr⟩
      simp only [fetch, fetchA85, hf, hn]
      rfl
  | ahx =>
    have hf : s.ahx.fsm = .running := TextFsm.eq_running (by simpa using hterm)
    have hdec : decode .ahx s.context (streamBits (s.ahx.io.inp.drop s.ahx.io.ipos)) = .ok (i, rest) := hdec
    cases hrest : s.ahx.io.inp.drop s.ahx.io.ipos with
    | nil =>
      rw [hrest] at hdec
      cases hdec
      have heof : s.ahx.io.eof = true := heoi.resolve_right (by decide)
      have he := Stream.inExhausted_iff.mpr ⟨(Stream.inNext_nil hrest).2, heof⟩
      exact ⟨s, fetchAhx_eq_eoi_iff.mpr ⟨hf, he, rfl⟩, congrArg streamBits hrest⟩
    | cons c r =>
      rw [hrest, streamBits_cons, decode_ahx_byteBits] at hdec
      cases hdec
      obtain ⟨hn, hr⟩ := Stream.inNext_cons hrest
      refine ⟨s.setIo .ahx { s.ahx.io with ipos := s.ahx.io.ipos + 1 }, ?_, congrArg streamBits hr⟩
      simp only [fetch, fetchAhx, hf, hn]
      rfl

/-- An engine that has too few bits for a symbol, and may get more, waits (R22, R256). -/
theorem fetch_waits_of_short (hs : s.Inv) (hterm : s.terminated e = false) (hreq : e = .lzw → s.lzw.req = none)
    (heof : (s.io e).eof = false) (hshort : (s.unread e).length < if e = .lzw then width s.lzw.tlen else 8) :
    fetch e s = .waits := by
  cases e with
  | lzw =>
    rw [fetchLzw_noreq (hreq rfl) (by simpa using hterm)]
    exact (fetchCode_spec hs).2.2 hshort heof
  | a85 =>
    have hrest : s.a85.io.inp.drop s.a85.io.ipos = [] := by
      have hshort : (streamBits (s.a85.io.inp.drop s.a85.io.ipos)).length < 8 := hshort
      rw [streamBits_length] at hshort
      exact List.length_eq_zero_iff.mp (by omega)
    refine fetchA85_waits_iff.mpr ⟨by simpa using hterm, (Stream.inNext_nil hrest).1, ?_⟩
    rw [Stream.inExhausted, show s.a85.io.eof = false from heof, Bool.and_false]
  | ahx =>
    have hrest : s.ahx.io.inp.drop s.ahx.io.ipos = [] := by
      have hshort : (streamBits (s.ahx.io.inp.drop s.ahx.io.ipos)).length < 8 := hshort
      rw [streamBits_length] at hshort
      exact List.length_eq_zero_iff.mp (by omega)
    refine fetchAhx_waits_iff.mpr ⟨by simpa using hterm, (Stream.inNext_nil hrest).1, ?_⟩
    rw [Stream.inExhausted, show s.ahx.io.eof = false from heof, Bool.and_false]

/-- An engine that waits stays as it is. -/
theorem engineStep_waits (h : fetch e s = .waits) : engineStep e s = .next s := by
  cases hfull : s.outFull e with
  | true => exact engineStep_full hfull
  | false => rw [engineStep_room hfull, h]

/-- With no host action waiting a step is the active engine's. -/
theorem step_active (hhost : s.host = []) (hactive : s.active = e) : step s = engineStep e s := by
  rw [step, hhost, ← hactive]

/-- Two states with the same engine `e` and the same everything else are the same. -/
theorem eq_of_agreeOn (hagree : AgreeOn e s t) (helse : SameElsewhere e s t) : t = s := by
  obtain ⟨hlzw, ha85, hahx, hactive, hhost⟩ := helse
  obtain ⟨lzw, a85, ahx, active, host⟩ := t
  cases e with
  | lzw => cases hagree; cases ha85 nofun; cases hahx nofun; cases hactive; cases hhost; rfl
  | a85 => cases hagree; cases hlzw nofun; cases hahx nofun; cases hactive; cases hhost; rfl
  | ahx => cases hagree; cases hlzw nofun; cases ha85 nofun; cases hactive; cases hhost; rfl

theorem SameElsewhere.symm (h : SameElsewhere e s t) : SameElsewhere e t s := by
  obtain ⟨hlzw, ha85, hahx, hactive, hhost⟩ := h
  exact ⟨fun h => (hlzw h).symm, fun h => (ha85 h).symm, fun h => (hahx h).symm, hactive.symm, hhost.symm⟩

/-- The step of an engine whose host's side is moved on is its step, with the host's side moved on. -/
theorem step_port (hin : x = [] ∨ s.Inv) (hlater : (s.io e).Later x eof) (hgo : u ≠ s ∨ (x = [] ∧ eof = (s.io e).eof))
    (hhost : s.host = []) (hactive : s.active = e) (hroom : s.outFull e = false)
    (hroom' : (s.port e x eof n).outFull e = false) (h : step s = .next u) :
    step (s.port e x eof n) = .next (u.port e x eof n) := by
  rw [step_active hhost hactive] at h
  obtain ⟨v, hstep, hagree⟩ := engineStep_port hin hlater hgo hroom hroom' (AgreeOn.refl e _) h
  have hhost' : (s.port e x eof n).host = [] := (State.setIo_host _ _ _).trans hhost
  have hactive' : (s.port e x eof n).active = e := (State.setIo_active _ _ _).trans hactive
  rw [step_active hhost' hactive', hstep]
  refine congrArg _ (eq_of_agreeOn hagree ?_)
  exact ((u.port_elsewhere e x eof n).symm.trans (engineStep_elsewhere h).symm).trans
    ((s.port_elsewhere e x eof n).trans (engineStep_elsewhere hstep))

/-- The staging of an engine is full or not by its own streams. -/
theorem AgreeOn.outFull (h : AgreeOn e s t) : t.outFull e = s.outFull e := by
  rw [State.outFull, State.outValid, h.io]
  rfl

/-- What a step of an engine does to it depends on that engine alone (R20). -/
theorem engineStep_agree (hagree : AgreeOn e s t) (h : engineStep e s = .next u) :
    ∃ v, engineStep e t = .next v ∧ AgreeOn e u v := by
  cases hfull : s.outFull e with
  | true =>
    rw [engineStep_full hfull] at h
    cases h
    exact ⟨t, engineStep_full (hagree.outFull.trans hfull), hagree⟩
  | false =>
    have hport : AgreeOn e (s.port e [] (s.io e).eof (s.io e).taken) t := by rwa [State.port_self]
    obtain ⟨v, hstep, hagree'⟩ := engineStep_port (.inl rfl) (.inr ⟨rfl, rfl⟩) (.inr ⟨rfl, rfl⟩) hfull
      (hagree.outFull.trans hfull) hport h
    obtain ⟨-, heof, htaken⟩ := (engineStep_hostSide h).1 e
    rw [← heof, ← htaken, State.port_self] at hagree'
    exact ⟨v, hstep, hagree'⟩

/-! ### Steps and the host's list -/

/-- The next state, where there is one, seen through `f`. -/
def mapNext (f : State → State) : Host.Outcome State Fault Refusal → Host.Outcome State Fault Refusal
  | .next t => .next (f t)
  | .fault r => .fault r
  | .refused r => .refused r

/-- `s` with the host's actions `host` waiting. -/
def State.withActs (host : List HostAct) (s : State) : State := { s with host := host }

theorem mapNext_ite (f : State → State) (p : Prop) [Decidable p] (a b : Host.Outcome State Fault Refusal) :
    mapNext f (if p then a else b) = if p then mapNext f a else mapNext f b := by split <;> rfl

/-- No meaning reads the host's list. -/
theorem exec_withActs (host : List HostAct) (i : Instr) (s : State) :
    exec i (s.withActs host) = mapNext (State.withActs host) (exec i s) := by
  cases i with
  | brRead n =>
    simp only [exec, execBrRead, mapNext_ite, State.withActs]
    cases readBits n.toNat s.lzw <;> rfl
  | lzwEoi | lzwClear | lzwEod | lzwNoclear _ | lzwBadfirst _ | lzwCorrupt _ | a85Eoi | a85Z | a85Zbad | a85Skip _ =>
    simp only [exec, execLzwEoi, execLzwClear, execLzwEod, execLzwNoclear, execLzwBadfirst, execLzwCorrupt, execA85Eoi, execA85Z,
      execA85Zbad, execA85Skip, mapNext_ite]
    rfl
  | lzwFirst code =>
    simp only [exec, execLzwFirst, mapNext_ite, State.withActs]
    cases s.lzw.table.read code.toNat <;> rfl
  | lzwRef code =>
    simp only [exec, execLzwRef, mapNext_ite, State.withActs]
    rcases s.lzw.table.read code.toNat with _ | _ | _ <;> rfl
  | lzwKwkwk code =>
    simp only [exec, execLzwKwkwk, mapNext_ite, State.withActs]
    cases first? s.lzw.prev <;> rfl
  | a85Digit c =>
    simp only [exec, execA85Digit, mapNext_ite, State.withActs]
    rfl
  | a85End =>
    simp only [exec, execA85End, mapNext_ite, State.withActs]
    rfl
  | ahxEoi | ahxEnd =>
    simp only [exec, execAhxEoi, execAhxEnd, mapNext_ite, ahxFlush_eq]
    rfl
  | ahxDigit c =>
    simp only [exec, execAhxDigit, mapNext_ite, State.withActs]
    cases hexValue? c <;> simp only [mapNext_ite] <;> rfl
  | ahxSkip c =>
    simp only [exec, execAhxSkip, mapNext_ite, State.withActs]
    rfl

/-- What a fetch finds, seen through `f`. -/
def Fetched.mapGot (f : State → State) : Fetched → Fetched
  | .got i t => .got i (f t)
  | r => r

theorem Fetched.mapGot_ite (f : State → State) (p : Prop) [Decidable p] (a b : Fetched) :
    Fetched.mapGot f (if p then a else b) = if p then Fetched.mapGot f a else Fetched.mapGot f b := by split <;> rfl

/-- No fetch reads the host's list. -/
theorem fetch_withActs (host : List HostAct) (e : Engine) (s : State) :
    fetch e (s.withActs host) = (fetch e s).mapGot (State.withActs host) := by
  cases e with
  | lzw =>
    simp only [fetch, fetchLzw, Fetched.mapGot_ite, State.withActs]
    cases s.lzw.req with
    | none =>
      simp only [fetchCode]
      cases readBits (width s.lzw.tlen) s.lzw <;> rfl
    | some n =>
      simp only [fetchRequest]
      cases classifyRequest n with
      | none => rfl
      | some i => cases readBits n.toNat s.lzw <;> rfl
  | a85 =>
    simp only [fetch, fetchA85, Fetched.mapGot_ite, State.withActs]
    cases s.a85.io.inNext with
    | none => simp only [Fetched.mapGot_ite]; rfl
    | some p => rfl
  | ahx =>
    simp only [fetch, fetchAhx, Fetched.mapGot_ite, State.withActs]
    cases s.ahx.io.inNext with
    | none => simp only [Fetched.mapGot_ite]; rfl
    | some p => rfl

/-- No step of an engine reads the host's list. -/
theorem engineStep_withActs (host : List HostAct) (e : Engine) (s : State) :
    engineStep e (s.withActs host) = mapNext (State.withActs host) (engineStep e s) := by
  have hfull : (s.withActs host).outFull e = s.outFull e := rfl
  cases hroom : s.outFull e with
  | true => rw [engineStep_full hroom, engineStep_full (hfull.trans hroom)]; rfl
  | false =>
    rw [engineStep_room hroom, engineStep_room (hfull.trans hroom), fetch_withActs]
    cases fetch e s with
    | got i t => exact exec_withActs host i t
    | _ => rfl

end Machine

open Machine

/-- Settles O14: an engine's step depends on its own engine alone. -/
theorem enginesDoNotInteract : Obligations.EnginesDoNotInteract := by
  intro s t s' e hs ht hsa hta hagree h
  rw [step_active hs hsa] at h
  obtain ⟨t', hstep, hagree'⟩ := engineStep_agree hagree h
  exact ⟨engineStep_elsewhere h, t', (step_active ht hta).trans hstep, hagree', engineStep_elsewhere hstep⟩

/-- Settles O10: a hold leaves the state, and a step that is taken is the same under every pattern of waits. -/
theorem holdsChangeNothing : Obligations.HoldsChangeNothing := by
  intro s e hs hhost hactive
  refine ⟨fun hterm hreq heof hshort => ?_, fun hfull => ?_, fun t n hroom hroom' h => ?_, fun t x eof heof h hne => ?_⟩
  · rw [step_active hhost hactive]
    exact engineStep_waits (fetch_waits_of_short hs hterm hreq heof hshort)
  · rw [step_active hhost hactive]
    exact engineStep_full hfull
  · have hstep := engineStep_hostSide (e := e) (by rwa [← step_active hhost hactive])
    have heof : (t.io e).eof = (s.io e).eof := (hstep.1 e).2.1
    rw [← State.port_nil s e (s.io e).eof n] at hroom' ⊢
    rw [← State.port_nil t e (t.io e).eof n, heof]
    exact step_port (.inl rfl) (.inr ⟨rfl, rfl⟩) (.inr ⟨rfl, rfl⟩) hhost hactive hroom hroom' h
  · have hroom : s.outFull e = false := by
      by_contra hfull
      rw [step_active hhost hactive, engineStep_full (by simpa using hfull)] at h
      exact hne (Host.Outcome.next.inj h).symm
    have hstep := engineStep_hostSide (e := e) (by rwa [← step_active hhost hactive])
    have htaken : (t.io e).taken = (s.io e).taken := (hstep.1 e).2.2
    have hroom' : (s.port e x eof (s.io e).taken).outFull e = false := by
      rw [State.outFull, State.outValid, State.port, State.io_setIo]
      exact hroom
    have hport := step_port (.inr hs) (.inl heof) (.inl hne) hhost hactive hroom hroom' h
    exact hport.trans (by rw [← htaken]; rfl)

/-- Settles O9: a step of an engine only takes a request, the host's port moves no cursor, and a standing request's fetch is
decided by its count and the unread bits. -/
theorem bitReaderServesOneOwner : Obligations.BitReaderServesOneOwner := by
  refine ⟨fun s t h => ?_, fun s n hs hhost hactive hf hroom hreq => ⟨fun hn => ⟨fun hbits => ?_, fun hshort heof => ?_⟩,
    fun hn => ?_⟩⟩
  · cases step_effect h with
    | reset e rest hhost =>
      cases e with
      | lzw => exact ⟨fun _ => rfl, fun _ _ hrst => absurd hhost (hrst rest)⟩
      | a85 => exact ⟨id, fun _ _ _ => ⟨rfl, rfl, rfl⟩⟩
      | ahx => exact ⟨id, fun _ _ _ => ⟨rfl, rfl, rfl⟩⟩
    | port a rest e x eof taken => cases e <;> exact ⟨id, fun _ _ _ => ⟨rfl, rfl, rfl⟩⟩
    | engine e rest _ hwho hstep =>
      refine ⟨(engineStep_hostSide hstep).2.1, fun hidle hrun _ => ?_⟩
      have hne : e ≠ .lzw := by
        rintro rfl
        obtain ⟨hhost, hactive, -⟩ | hhost := hwho
        · exact hidle hhost hactive.symm
        · exact hrun rest hhost
      have helse := (engineStep_elsewhere hstep).1 hne
      rw [helse]
      exact ⟨rfl, rfl, rfl⟩
  all_goals rw [step_active hhost hactive]
  · have hr : readBits n.toNat s.lzw ≠ .waits := by
      obtain ⟨hvalue, hend, -⟩ := hs.lzw.readBits n.toNat hn.1
      obtain hlen | hlen := le_or_gt n.toNat s.lzw.unread.length
      · obtain ⟨g, hr, -⟩ := hvalue hlen
        rw [hr]; nofun
      · obtain ⟨g, hr, -⟩ := hend hlen (hbits.resolve_left (not_le.mpr hlen))
        rw [hr]; nofun
    rw [engineStep_room hroom, fetchLzw_request hf hreq hn hr]
  · exact engineStep_waits (fetchLzw_waits_iff.mpr ⟨hf, .inl ⟨n, hreq, hn, (hs.lzw.readBits n.toNat hn.1).2.2 hshort heof⟩⟩)
  · have hn : ¬ (1 ≤ n.toNat ∧ n.toNat ≤ 32) := by omega
    rw [engineStep_room hroom]
    simp only [fetch, fetchLzw, hf, hreq, if_false, fetchRequest, classifyRequest, hn]

/-- Settles O8: the fetch finds what the decoder reads; and the step of `run e` is the engine's step, which does not read
the host's list. -/
theorem stepRunsTheDecodedInstruction : Obligations.StepRunsTheDecodedInstruction := by
  refine ⟨fun s e i rest hs hhost hactive hterm hroom hreq hdec heoi => ?_, fun s e rest hhost => ?_⟩
  · obtain ⟨t, hfetch, hunread⟩ := fetch_decoded hs hterm hreq hdec heoi
    refine ⟨t, ?_, hunread, fetch_cursor hs hreq hfetch⟩
    rw [step_active hhost hactive, engineStep_room hroom, hfetch]
  · have hrun : step s = engineStep e (State.withActs rest { s with active := e, host := [] }) := by rw [step, hhost]; rfl
    rw [hrun, engineStep_withActs, step_active rfl rfl]
    cases engineStep e { s with active := e, host := [] } <;> rfl

/-- Settles O21: the meaning and the classifier test the count. -/
theorem brReadRefusesOutsideItsContract : Obligations.BrReadRefusesOutsideItsContract := by
  intro s n hn
  have hn : ¬ (1 ≤ n.toNat ∧ n.toNat ≤ 32) := by omega
  exact ⟨if_neg hn, if_neg hn⟩

end Sys2Proof
end

section
/-!
PROOFS. The BitReader (spec/40_bitreader.md): its answers as the stream bits at the cursor, its end, and two reads as one.
-/

namespace Sys2Proof
namespace Machine

variable {s t u : State} {n m : BitVec 6}

/-- A read in the spec's numbering: while the input holds the bits, the answer is the number that stream bits `p` to
`p + n - 1` are, and the cursor stands at `p + n` (R61, R124). -/
theorem Lzw.Inv.readBits_bitsAt {e : Lzw} (h : e.Inv) {k : Nat} (hk : 1 ≤ k) (h32 : k ≤ 32)
    (hbits : e.bitPos + k ≤ 8 * e.io.inp.length) :
    ∃ v g, Machine.readBits k e = .value v g ∧ CursorMoved e g ∧ g.resp = .value (BitVec.ofNat 32 v) ∧
      (BitVec.ofNat 32 v).toNat = v ∧ v = bitsAt e.io.inp e.bitPos k ∧ v < 2 ^ k ∧ g.bitPos = e.bitPos + k := by
  have hall := h.bitPos_add
  have hlen : k ≤ e.unread.length := by omega
  obtain ⟨g, hr, hmoved, hresp, hunread⟩ := (h.readBits k hk).1 hlen
  obtain ⟨hfit, hlt⟩ := takeBits_fit e.unread k h32 hlen
  refine ⟨_, g, hr, hmoved, hresp, hfit, ?_, hlt, ?_⟩
  · rw [e.unread_eq_drop h.bpos_hi h.cur_eq, bitsValue_eq_bitsAt _ _ _ hbits]
  · have hafter := (h.cursorMoved hmoved).bitPos_add
    rw [hunread, hmoved.inp, List.length_drop] at hafter
    omega

/-- The two parts of a number of `a + b` bits (R61). -/
theorem bitsAt_add (inp : Bytes) (p a b : Nat) : bitsAt inp p (a + b) = bitsAt inp p a * 2 ^ b + bitsAt inp (p + a) b := by
  simp only [bitsAt, Finset.sum_range_add, Finset.sum_mul]
  congr 1
  · refine Finset.sum_congr rfl fun j hj => ?_
    have hj := Finset.mem_range.mp hj
    rw [mul_assoc, ← pow_add]
    congr 2
    omega
  · refine Finset.sum_congr rfl fun j hj => ?_
    have hj := Finset.mem_range.mp hj
    rw [← add_assoc]
    congr 2
    omega

/-- The loop adds `k` bits to the value it has, whatever the cursor. -/
theorem readLoop_lt {v k : Nat} {cur : Byte} {bpos ipos : Nat} {rest : Bytes} {w : Nat} {cur' : Byte} {bpos' ipos' : Nat}
    (h : readLoop v k cur bpos ipos rest = .value w cur' bpos' ipos') : w < (v + 1) * 2 ^ k := by
  have hround : ∀ v k x : Nat, (v <<< k) ||| (x &&& (2 ^ k - 1)) < (v + 1) * 2 ^ k := fun v k x => by
    have := Nat.mod_lt x (Nat.two_pow_pos k)
    rw [shift_or_mask, Nat.add_mul]
    omega
  induction rest generalizing v k cur bpos ipos with
  | nil =>
    rw [readLoop] at h
    split at h <;> cases h
    exact hround _ _ _
  | cons b rest ih =>
    rw [readLoop] at h
    split at h
    case isTrue => cases h; exact hround _ _ _
    case isFalse hk =>
      have hrest := ih h
      have hfirst := hround v (8 - bpos) cur.toNat
      calc w < _ * 2 ^ (k - (8 - bpos)) := hrest
        _ ≤ (v + 1) * 2 ^ (8 - bpos) * 2 ^ (k - (8 - bpos)) := Nat.mul_le_mul_right _ hfirst
        _ = (v + 1) * 2 ^ k := by rw [mul_assoc, ← pow_add]; congr 2; omega

/-- The value that a read of `k` bits answers is below `2 ^ k`, in any state. -/
theorem readBits_lt {k v : Nat} {e g : Lzw} (h : readBits k e = .value v g) : v < 2 ^ k := by
  unfold readBits at h
  split at h
  · rename_i hloop
    cases h
    simpa using readLoop_lt hloop
  · split at h <;> cases h

/-- A read, in any state, is a change of cursors alone. -/
theorem readBits_onlyCursors {k : Nat} {g : Lzw}
    (h : readBits k s.lzw = .endOfInput g ∨ ∃ v, readBits k s.lzw = .value v g) :
    SameElsewhere .lzw s { s with lzw := g } ∧ OnlyCursors s { s with lzw := g } := by
  refine ⟨by simp [SameElsewhere], ?_⟩
  unfold OnlyCursors
  simp only [← readBits_frame h]

/-- A read reads the cursor and the input alone. -/
theorem readBits_congr {k : Nat} {e f : Lzw} (hcur : f.cur = e.cur) (hbpos : f.bpos = e.bpos) (hipos : f.io.ipos = e.io.ipos)
    (hinp : f.io.inp = e.io.inp) (heof : f.io.eof = e.io.eof) :
    (readBits k e = .waits → readBits k f = .waits) ∧
      (∀ g, readBits k e = .endOfInput g → ∃ g', readBits k f = .endOfInput g' ∧ g'.cur = g.cur ∧ g'.bpos = g.bpos ∧
        g'.io.ipos = g.io.ipos) ∧
      ∀ v g, readBits k e = .value v g → ∃ g', readBits k f = .value v g' ∧ g'.cur = g.cur ∧ g'.bpos = g.bpos ∧
        g'.io.ipos = g.io.ipos := by
  unfold readBits
  rw [hcur, hbpos, hipos, hinp, heof]
  cases readLoop 0 k e.cur e.bpos e.io.ipos (e.io.inp.drop e.io.ipos) with
  | value v cur bpos ipos => exact ⟨nofun, nofun, fun w g h => by cases h; exact ⟨_, rfl, rfl, rfl, rfl⟩⟩
  | noByte cur ipos =>
    cases e.io.eof with
    | true => exact ⟨nofun, fun g h => by cases h; exact ⟨_, rfl, rfl, rfl, rfl⟩, nofun⟩
    | false => exact ⟨fun _ => rfl, nofun, nofun⟩

end Machine

open Machine

/-- Settles O18: the read of the invariant's bit cursor, in the spec's numbering. -/
theorem brReadAnswersTheStreamBits : Obligations.BrReadAnswersTheStreamBits := by
  intro s n hs h1 h32 hbits
  obtain ⟨v, g, hr, hmoved, hresp, hfit, hval, -, hpos⟩ := hs.lzw.readBits_bitsAt h1 h32 hbits
  exact ⟨_, _, exec_brRead_value ⟨h1, h32⟩ hr, hresp, hfit.trans hval, hpos, hmoved.onlyCursors⟩

/-- Settles O19: fewer bits are unread than wanted. -/
theorem brReadAnswersEndOfInput : Obligations.BrReadAnswersEndOfInput := by
  intro s n hs h1 h32 hbits
  have hall := hs.lzw.bitPos_add
  have hshort : s.lzw.unread.length < n.toNat := by omega
  obtain ⟨-, hend, hwait⟩ := hs.lzw.readBits n.toNat h1
  refine ⟨fun heof => ?_, fun heof => exec_brRead_waits ⟨h1, h32⟩ (hwait hshort heof)⟩
  obtain ⟨g, hr, hmoved, hresp, hbpos, hipos, -⟩ := hend hshort heof
  exact ⟨_, exec_brRead_endOfInput ⟨h1, h32⟩ hr, hresp, hbpos, hipos, hmoved.onlyCursors⟩

/-- Settles O20: a failed read leaves nothing unread, so the next one fails too. -/
theorem brReadFailsForEverAfterEndOfInput : Obligations.BrReadFailsForEverAfterEndOfInput := by
  intro s t n m hs heof h hresp h1 h32
  obtain ⟨hn, hn32, ⟨hr, rfl⟩ | ⟨g, hr, rfl⟩ | ⟨v, g, hr, rfl⟩⟩ := execBrRead_next h
  · rw [(readBits_waits_iff.mp hr).2] at heof
    cases heof
  · obtain ⟨hvalue, hend, -⟩ := hs.lzw.readBits n.toNat hn
    obtain hlen | hshort := le_or_gt n.toNat s.lzw.unread.length
    · obtain ⟨g', hr', -⟩ := hvalue hlen
      rw [hr] at hr'
      cases hr'
    obtain ⟨g', hr', hmoved, -, -, hipos, hunread⟩ := hend hshort heof
    cases hr.symm.trans hr'
    have hshort' : g.unread.length < m.toNat := by rw [hunread]; exact h1
    obtain ⟨u, hru, -, hresp', hbpos', hipos', -⟩ :=
      ((hs.lzw.cursorMoved hmoved).readBits m.toNat h1).2.1 hshort' (by rw [hmoved.same]; exact heof)
    refine ⟨_, exec_brRead_endOfInput (s := { s with lzw := g }) ⟨h1, h32⟩ hru, hresp', hbpos', ?_⟩
    show u.io.ipos = g.io.ipos
    rw [hipos', hipos, hmoved.inp]
  · rw [(readBits_resp.2 v hr)] at hresp
    cases hresp

/-- Settles O22: the number of `a + b` bits is split at the `b` low ones. -/
theorem twoReadsAreOneRead : Obligations.TwoReadsAreOneRead := by
  intro s a b hs ha hb hab hbits
  have htoNat : ∀ {k}, k ≤ 32 → (BitVec.ofNat 6 k).toNat = k := fun hk => Nat.mod_eq_of_lt (by omega)
  obtain ⟨v, g, hr, -, hresp, hfit, hval, -, hpos⟩ := hs.lzw.readBits_bitsAt (by omega) hab hbits
  obtain ⟨x, g1, hr1, hmoved1, hresp1, hfit1, hval1, -, hpos1⟩ := hs.lzw.readBits_bitsAt ha (by omega) (by omega)
  have hs1 := hs.lzw.cursorMoved hmoved1
  obtain ⟨y, g2, hr2, -, hresp2, hfit2, hval2, hlt2, hpos2⟩ :=
    hs1.readBits_bitsAt hb (by omega) (by rw [hpos1, hmoved1.inp]; omega)
  have hparts : v = x * 2 ^ b + y := by
    rw [hval, bitsAt_add, hval1, hval2, hpos1, hmoved1.inp]
  refine ⟨_, _, _, _, _, _, exec_brRead_value (by rw [htoNat hab]; omega) (by rwa [htoNat hab]), hresp,
    exec_brRead_value (by rw [htoNat (by omega)]; omega) (by rwa [htoNat (by omega)]), hresp1,
    exec_brRead_value (s := { s with lzw := g1 }) (by rw [htoNat (by omega)]; omega) (by rwa [htoNat (by omega)]), hresp2,
    ?_, ?_, ?_⟩
  · apply BitVec.eq_of_toNat_eq
    rw [BitVec.toNat_ushiftRight, hfit, hfit1, hparts, Nat.shiftRight_eq_div_pow]
    exact (Nat.div_eq_of_lt_le (by omega) (by rw [Nat.add_mul]; omega)).symm
  · rw [hfit, hfit2, hparts, Nat.mul_add_mod', Nat.mod_eq_of_lt hlt2]
  · show g2.bitPos = g.bitPos
    omega

/-- Settles O23: in any state a request writes what a read writes, and reads what a read reads. -/
theorem brReadTouchesOnlyItsCursor : Obligations.BrReadTouchesOnlyItsCursor := by
  intro s t n h
  obtain ⟨h1, h32, ⟨hr, rfl⟩ | ⟨g, hr, rfl⟩ | ⟨v, g, hr, rfl⟩⟩ := execBrRead_next h
  · refine ⟨by simp [SameElsewhere], rfl, .inl rfl, fun s2 hcur hbpos hipos hinp heof => ?_⟩
    obtain ⟨hwaits, -, -⟩ := readBits_congr (k := n.toNat) hcur hbpos hipos hinp heof
    exact ⟨s2, exec_brRead_waits ⟨h1, h32⟩ (hwaits hr), hcur, hbpos, hipos, .inr ⟨rfl, rfl⟩⟩
  · obtain ⟨helse, honly⟩ := readBits_onlyCursors (.inl hr)
    refine ⟨helse, honly, .inr (.inl (readBits_resp.1 hr).1), fun s2 hcur hbpos hipos hinp heof => ?_⟩
    obtain ⟨-, hend, -⟩ := readBits_congr (k := n.toNat) hcur hbpos hipos hinp heof
    obtain ⟨g2, hr2, hcur2, hbpos2, hipos2⟩ := hend g hr
    exact ⟨_, exec_brRead_endOfInput ⟨h1, h32⟩ hr2, hcur2, hbpos2, hipos2,
      .inl ((readBits_resp.1 hr2).1.trans (readBits_resp.1 hr).1.symm)⟩
  · obtain ⟨helse, honly⟩ := readBits_onlyCursors (.inr ⟨v, hr⟩)
    refine ⟨helse, honly, .inr (.inr ⟨_, readBits_resp.2 v hr, ?_⟩), fun s2 hcur hbpos hipos hinp heof => ?_⟩
    · rw [BitVec.toNat_ofNat]
      exact (Nat.mod_le _ _).trans_lt (readBits_lt hr)
    · obtain ⟨-, -, hvalue⟩ := readBits_congr (k := n.toNat) hcur hbpos hipos hinp heof
      obtain ⟨g2, hr2, hcur2, hbpos2, hipos2⟩ := hvalue v g hr
      exact ⟨_, exec_brRead_value ⟨h1, h32⟩ hr2, hcur2, hbpos2, hipos2,
        .inl ((readBits_resp.2 v hr2).trans (readBits_resp.2 v hr).symm)⟩

end Sys2Proof
end

section
/-!
PROOFS. What no output shows (spec/10_state.md R46): blocks that differ in unreadable slots, in a consumed `cur` and in an
invalid `h_pend` only, step alike.
-/

namespace Sys2Proof

/-- The ASCIIHex engine has one unit. -/
theorem SymbolUnit.eq_ahx {x : SymbolUnit} (h : x.engine = .ahx) : x = .ahx := by
  cases x with
  | ahx => rfl
  | _ => cases h

namespace Machine

variable {s t u : State} {i : Instr} {e f : Lzw}

/-! ### LZW -/

theorem Lzw.Alike.refl (e : Lzw) : e.Alike e := ⟨rfl, fun _ _ => rfl, fun _ => rfl⟩

theorem Ahx.Alike.refl (e : Ahx) : e.Alike e := ⟨rfl, fun _ => rfl⟩

/-- A read that begins behind `cur` looks at no bit of it. -/
theorem readLoop_consumed {k : Nat} (hk : 1 ≤ k) (v ipos : Nat) (rest : Bytes) (cur cur' : Byte) :
    (readLoop v k cur 8 ipos rest = .noByte cur ipos ∧ readLoop v k cur' 8 ipos rest = .noByte cur' ipos) ∨
      readLoop v k cur' 8 ipos rest = readLoop v k cur 8 ipos rest := by
  have hne : ¬ k ≤ 8 - 8 := by omega
  cases rest with
  | nil => exact .inl ⟨if_neg hne, if_neg hne⟩
  | cons b rest =>
    refine .inr ?_
    rw [readLoop, readLoop, if_neg hne, if_neg hne]
    simp

/-- Reads of engines that are alike answer alike. -/
theorem Lzw.Alike.readBits (h : e.Alike f) {k : Nat} (hk : 1 ≤ k) :
    (Machine.readBits k e = .waits → Machine.readBits k f = .waits) ∧
      (∀ g, Machine.readBits k e = .endOfInput g → ∃ g', Machine.readBits k f = .endOfInput g' ∧ g.Alike g') ∧
      ∀ v g, Machine.readBits k e = .value v g → ∃ g', Machine.readBits k f = .value v g' ∧ g.Alike g' := by
  obtain ⟨hsame, hslots, hcur⟩ := h
  generalize f.table = table, f.cur = cur at hsame hslots hcur
  subst hsame
  have hloop : (∃ c p, readLoop 0 k e.cur e.bpos e.io.ipos (e.io.inp.drop e.io.ipos) = .noByte c p ∧
        ∃ c', readLoop 0 k cur e.bpos e.io.ipos (e.io.inp.drop e.io.ipos) = .noByte c' p) ∨
      readLoop 0 k cur e.bpos e.io.ipos (e.io.inp.drop e.io.ipos) =
        readLoop 0 k e.cur e.bpos e.io.ipos (e.io.inp.drop e.io.ipos) := by
    by_cases h8 : e.bpos = 8
    · rw [h8]
      exact (readLoop_consumed hk 0 e.io.ipos (e.io.inp.drop e.io.ipos) e.cur cur).imp_left
        fun ⟨h1, h2⟩ => ⟨_, _, h1, _, h2⟩
    · rw [hcur h8]
      exact .inr rfl
  unfold Machine.readBits
  obtain ⟨c, p, h1, c', h2⟩ | h2 := hloop <;> simp only [h2]
  · rw [h1]
    cases e.io.eof with
    | true => exact ⟨nofun, fun g h => by cases h; exact ⟨_, rfl, ⟨rfl, hslots, fun h => absurd rfl h⟩⟩, nofun⟩
    | false => exact ⟨fun _ => rfl, nofun, nofun⟩
  · cases readLoop 0 k e.cur e.bpos e.io.ipos (e.io.inp.drop e.io.ipos) with
    | value v c bpos ipos =>
      exact ⟨nofun, nofun, fun w g h => by cases h; exact ⟨_, rfl, ⟨rfl, hslots, fun _ => rfl⟩⟩⟩
    | noByte c p =>
      cases e.io.eof with
      | true => exact ⟨nofun, fun g h => by cases h; exact ⟨_, rfl, ⟨rfl, hslots, fun h => absurd rfl h⟩⟩, nofun⟩
      | false => exact ⟨fun _ => rfl, nofun, nofun⟩

/-- An append writes the same slot of both tables, and below it they read alike. -/
theorem Lzw.Alike.append (h : e.Alike f) (hlo : 258 ≤ e.tlen) (x : Bytes) : (e.append x).Alike (f.append x) := by
  obtain ⟨hsame, hslots, hcur⟩ := h
  generalize f.table = table, f.cur = cur at hsame hslots hcur
  subst hsame
  by_cases hroom : e.tlen < Config.tcap
  · rw [Lzw.append, Lzw.append, if_pos hroom]
    refine ⟨by rw [if_pos hroom], fun i hi => ?_, ?_⟩
    · rw [if_pos (by exact hroom)]
      have hi : i < e.tlen + 1 := hi
      show (table.write e.tlen x).read i = (e.table.write e.tlen x).read i
      obtain hlt | rfl : i < e.tlen ∨ i = e.tlen := by omega
      · rw [Memory.read_write_of_ne _ _ hlt.ne', Memory.read_write_of_ne _ _ hlt.ne', hslots i hlt]
      · rw [Memory.read_write_self _ _ hlo hroom, Memory.read_write_self _ _ hlo hroom]
    · rw [if_pos (by exact hroom)]
      exact hcur
  · rw [Lzw.append, Lzw.append, if_neg hroom, if_neg (by exact hroom)]
    exact ⟨rfl, hslots, hcur⟩

/-- An update that neither reads nor writes the table and the bit cursor, and does not raise `tlen`, keeps engines alike. -/
theorem Lzw.Alike.map (h : e.Alike f) (F : Lzw → Lzw)
    (hF : ∀ l table cur, F { l with table := table, cur := cur } = { F l with table := table, cur := cur })
    (hcursor : (F e).table = e.table ∧ (F e).cur = e.cur ∧ (F e).bpos = e.bpos) (htlen : (F e).tlen ≤ e.tlen) :
    (F e).Alike (F f) := by
  obtain ⟨hsame, hslots, hcur⟩ := h
  obtain ⟨htable, hcur', hbpos⟩ := hcursor
  generalize f.table = table, f.cur = cur at hsame hslots hcur
  subst hsame
  rw [hF e table cur]
  refine ⟨rfl, fun i hi => ?_, fun h8 => ?_⟩
  · rw [htable]
    exact hslots i (hi.trans_le htlen)
  · rw [hcur']
    exact hcur (hbpos ▸ h8)

theorem Lzw.Alike.emit (h : e.Alike f) (chunk : Bytes) :
    ({ e with prev := chunk, io := e.io.emit chunk } : Lzw).Alike { f with prev := chunk, io := f.io.emit chunk } :=
  h.map (fun l => { l with prev := chunk, io := l.io.emit chunk }) (fun _ _ _ => rfl) ⟨rfl, rfl, rfl⟩ le_rfl

theorem Lzw.Alike.raise (h : e.Alike f) (c : Cause) (v : BitVec 12) :
    ({ e with fsm := .terminated, io := e.io.raise c v } : Lzw).Alike
      { f with fsm := .terminated, io := f.io.raise c v } :=
  h.map (fun l => { l with fsm := .terminated, io := l.io.raise c v }) (fun _ _ _ => rfl) ⟨rfl, rfl, rfl⟩ le_rfl

theorem Lzw.Alike.clear (h : e.Alike f) (hlo : 258 ≤ e.tlen) :
    ({ e.tableReset with fsm := .running } : Lzw).Alike { f.tableReset with fsm := .running } :=
  h.map (fun l => { l.tableReset with fsm := .running }) (fun _ _ _ => rfl) ⟨rfl, rfl, rfl⟩ hlo

theorem appendEmit_alike (h : s.lzw.Alike t.lzw) (hlo : 258 ≤ s.lzw.tlen) (entry chunk : Bytes) :
    (appendEmit s entry chunk).lzw.Alike (appendEmit t entry chunk).lzw := by
  simpa only [appendEmit, Lzw.append_io] using (h.append hlo entry).emit chunk

/-- An LZW meaning does alike to engines that are alike: it reads slots below `tlen` alone, and no bit of `cur`. -/
theorem exec_lzw_alike (hu : i.unit = .lzw) (hlo : 258 ≤ s.lzw.tlen) (halike : s.lzw.Alike t.lzw) (h : exec i s = .next u) :
    ∃ v, exec i t = .next v ∧ u.lzw.Alike v.lzw := by
  have hfsm : t.lzw.fsm = s.lzw.fsm := by rw [halike.same]
  have hprev : t.lzw.prev = s.lzw.prev := by rw [halike.same]
  have htlen : t.lzw.tlen = s.lzw.tlen := by rw [halike.same]
  have hresp : t.lzw.resp = s.lzw.resp := by rw [halike.same]
  cases i with
  | lzwEoi =>
    obtain ⟨hf, hr, rfl⟩ := execLzwEoi_next h
    exact ⟨_, exec_lzwEoi (hfsm.trans_ne hf) (hresp.trans hr), halike.raise _ _⟩
  | lzwClear =>
    obtain ⟨hf, rfl⟩ := execLzwClear_next h
    exact ⟨_, exec_lzwClear (hfsm.trans_ne hf), halike.clear hlo⟩
  | lzwEod =>
    obtain ⟨hf, rfl⟩ := execLzwEod_next h
    exact ⟨_, exec_lzwEod (hfsm.trans_ne hf), halike.raise _ _⟩
  | lzwNoclear code =>
    obtain ⟨hf, hd, rfl⟩ := execLzwNoclear_next h
    exact ⟨_, exec_lzwNoclear (hfsm.trans hf) hd, halike.raise _ _⟩
  | lzwFirst code =>
    obtain ⟨hf, hp, hc, rfl⟩ := execLzwFirst_next h
    exact ⟨_, exec_lzwFirst (hfsm.trans hf) (hprev.trans hp) hc, halike.emit _⟩
  | lzwBadfirst code =>
    obtain ⟨hf, hp, hc, rfl⟩ := execLzwBadfirst_next h
    exact ⟨_, exec_lzwBadfirst (hfsm.trans hf) (hprev.trans hp) hc, halike.raise _ _⟩
  | lzwRef code =>
    obtain ⟨hf, hp, hc, hd, b, x, hread, rfl⟩ := execLzwRef_next h
    refine ⟨_, exec_lzwRef (hfsm.trans hf) (hprev.trans_ne hp) (hc.trans_eq htlen.symm) hd
      ((halike.slots _ hc).trans hread), ?_⟩
    rw [hprev]
    exact appendEmit_alike halike hlo _ _
  | lzwKwkwk code =>
    obtain ⟨hf, hc, hd, b, x, hp, rfl⟩ := execLzwKwkwk_next h
    exact ⟨_, exec_lzwKwkwk (hfsm.trans hf) (hprev.trans hp) (hc.trans htlen.symm) hd, appendEmit_alike halike hlo _ _⟩
  | lzwCorrupt code =>
    obtain ⟨hf, hp, hc, hd, rfl⟩ := execLzwCorrupt_next h
    exact ⟨_, exec_lzwCorrupt (hfsm.trans hf) (hprev.trans_ne hp) (htlen.trans_lt hc) hd, halike.raise _ _⟩
  | _ => cases hu

/-- A request is answered alike by engines that are alike. -/
theorem exec_brRead_alike {n : BitVec 6} (halike : s.lzw.Alike t.lzw) (h : exec (.brRead n) s = .next u) :
    ∃ v, exec (.brRead n) t = .next v ∧ u.lzw.Alike v.lzw := by
  obtain ⟨h1, h32, hcase⟩ := execBrRead_next h
  obtain ⟨hwaits, hend, hvalue⟩ := halike.readBits h1
  obtain ⟨hr, rfl⟩ | ⟨g, hr, rfl⟩ | ⟨v, g, hr, rfl⟩ := hcase
  · exact ⟨_, exec_brRead_waits ⟨h1, h32⟩ (hwaits hr), halike⟩
  · obtain ⟨g', hr', hg⟩ := hend g hr
    exact ⟨_, exec_brRead_endOfInput ⟨h1, h32⟩ hr', hg⟩
  · obtain ⟨g', hr', hg⟩ := hvalue v g hr
    exact ⟨_, exec_brRead_value ⟨h1, h32⟩ hr', hg⟩

/-- LZW engines that are alike fetch alike. -/
theorem fetchLzw_alike (halike : s.lzw.Alike t.lzw) :
    (fetch .lzw s = .waits → fetch .lzw t = .waits) ∧
      ∀ i u, fetch .lzw s = .got i u → ∃ v, fetch .lzw t = .got i v ∧ u.lzw.Alike v.lzw := by
  have hfsm : t.lzw.fsm = s.lzw.fsm := by rw [halike.same]
  have hprev : t.lzw.prev = s.lzw.prev := by rw [halike.same]
  have hreq : t.lzw.req = s.lzw.req := by rw [halike.same]
  have htlen : t.lzw.tlen = s.lzw.tlen := by rw [halike.same]
  have hw : 1 ≤ width s.lzw.tlen := le_trans (by decide) (width_range s.lzw.tlen).1
  refine ⟨fun h => ?_, fun i u h => ?_⟩
  · obtain ⟨hf, ⟨k, hk, hcount, hr⟩ | ⟨hk, hr⟩⟩ := fetchLzw_waits_iff.mp h
    · exact fetchLzw_waits_iff.mpr ⟨hfsm.trans_ne hf, .inl ⟨k, hreq.trans hk, hcount, (halike.readBits hcount.1).1 hr⟩⟩
    · exact fetchLzw_waits_iff.mpr ⟨hfsm.trans_ne hf, .inr ⟨hreq.trans hk, htlen.symm ▸ (halike.readBits hw).1 hr⟩⟩
  · have hf := hfsm.trans_ne (fetchLzw_running h)
    obtain ⟨k, hk, h1, h32, rfl, hr, rfl⟩ | ⟨hk, -, hcase⟩ := fetchLzw_got h
    · refine ⟨_, fetchLzw_request hf (hreq.trans hk) ⟨h1, h32⟩ ?_, ?_⟩
      · obtain ⟨-, hend, hvalue⟩ := halike.readBits h1
        cases hread : readBits k.toNat s.lzw with
        | waits => exact absurd hread hr
        | endOfInput g =>
          obtain ⟨g', hr', -⟩ := hend g hread
          rw [hr']; nofun
        | value v g =>
          obtain ⟨g', hr', -⟩ := hvalue v g hread
          rw [hr']; nofun
      · exact halike.map (fun l => { l with req := none }) (fun _ _ _ => rfl) ⟨rfl, rfl, rfl⟩ le_rfl
    · have hcontext : t.context = { s.context with aCnt := t.a85.cnt } := by
        simp only [State.context, hfsm, hprev, htlen]
      rw [fetchLzw_noreq (hreq.trans hk) hf, fetchCode, htlen]
      obtain ⟨-, hend, hvalue⟩ := halike.readBits hw
      obtain ⟨g, hr, rfl, rfl⟩ | ⟨v, g, hr, rfl, rfl⟩ := hcase
      · obtain ⟨g', hr', hg⟩ := hend g hr
        exact ⟨_, by rw [hr'], hg⟩
      · obtain ⟨g', hr', hg⟩ := hvalue v g hr
        exact ⟨{ t with lzw := g' }, by rw [hr', hcontext]; rfl, hg⟩

/-! ### ASCIIHex -/

/-- An ASCIIHex meaning does alike to engines that are alike: `h_pend` is read with a digit pending only. -/
theorem exec_ahx_alike (hu : i.unit = .ahx) (halike : s.ahx.Alike t.ahx) (h : exec i s = .next u) :
    ∃ v, exec i t = .next v ∧ u.ahx.Alike v.ahx := by
  obtain ⟨lzw, a85, ahx, active, host⟩ := t
  obtain ⟨hsame, hpend⟩ := halike
  replace hsame : ahx = { s.ahx with pend := ahx.pend } := hsame
  replace hpend : s.ahx.pv = true → ahx.pend = s.ahx.pend := hpend
  generalize ahx.pend = pend at hsame hpend
  subst hsame
  have hflush : ∀ c, (raise .ahx c 0 (ahxFlush s)).ahx.Alike
      (raise .ahx c 0 (ahxFlush ⟨lzw, a85, { s.ahx with pend := pend }, active, host⟩)).ahx := fun c => by
    rw [ahxFlush_eq, ahxFlush_eq]
    cases hp : s.ahx.pv with
    | true => simp only [hpend hp]; exact .refl _
    | false => exact ⟨rfl, nofun⟩
  cases i with
  | ahxEoi =>
    obtain ⟨hf, he, rfl⟩ := execAhxEoi_next h
    exact ⟨_, exec_ahxEoi hf he, hflush _⟩
  | ahxEnd =>
    obtain ⟨hf, rfl⟩ := execAhxEnd_next h
    exact ⟨_, exec_ahxEnd hf, hflush _⟩
  | ahxDigit c =>
    obtain ⟨hf, d, hd, ⟨hp, hm, rfl⟩ | ⟨hp, hm, hsep, rfl⟩ | ⟨hp, rfl⟩⟩ := execAhxDigit_next h
    · refine ⟨_, exec_ahxDigit_pair hf hd hp hm, ?_⟩
      simp only [hpend hp]
      exact .refl _
    · exact ⟨_, exec_ahxDigit_dropped hf hd hp hm hsep, .refl _⟩
    · exact ⟨_, exec_ahxDigit_begins hf hd hp, .refl _⟩
  | ahxSkip c =>
    obtain ⟨hf, hv, hgt, ⟨hm, hp, rfl⟩ | ⟨hm, rfl⟩⟩ := execAhxSkip_next h
    · exact ⟨_, exec_ahxSkip_marks hf ((wellFormed_ahxSkip c).mpr ⟨hv, hgt⟩) hm hp, ⟨rfl, hpend⟩⟩
    · exact ⟨_, exec_ahxSkip_keeps hf ((wellFormed_ahxSkip c).mpr ⟨hv, hgt⟩) hm, ⟨rfl, hpend⟩⟩
  | _ => cases hu

/-- ASCIIHex engines that are alike fetch alike. -/
theorem fetchAhx_alike (halike : s.ahx.Alike t.ahx) :
    (fetch .ahx s = .waits → fetch .ahx t = .waits) ∧
      ∀ i u, fetch .ahx s = .got i u → ∃ v, fetch .ahx t = .got i v ∧ u.ahx.Alike v.ahx := by
  have hfsm : t.ahx.fsm = s.ahx.fsm := by rw [halike.same]
  have hio : t.ahx.io = s.ahx.io := by rw [halike.same]
  refine ⟨fun h => ?_, fun i u h => ?_⟩
  · rw [fetchAhx_waits_iff, hfsm, hio]
    exact fetchAhx_waits_iff.mp h
  · obtain ⟨hf, ⟨c, io, hn, rfl, rfl⟩ | ⟨hn, he, rfl, rfl⟩⟩ := fetchAhx_got h
    · refine ⟨t.setIo .ahx io, ?_, ?_⟩
      · simp only [fetch, fetchAhx, hfsm, hf, hio, hn]
        rfl
      · obtain ⟨hsame, hpend⟩ := halike
        exact ⟨by simp only [State.setIo_ahx]; rw [hsame], hpend⟩
    · exact ⟨t, fetchAhx_eq_eoi_iff.mpr ⟨hfsm.trans hf, hio ▸ he, rfl⟩, halike⟩

/-! ### The block -/

theorem State.Alike.io (h : s.Alike t) (e : Engine) : t.io e = s.io e := by
  cases e with
  | lzw => rw [State.io_lzw, h.lzw.same]; rfl
  | a85 => exact congrArg A85.io h.a85
  | ahx => rw [State.io_ahx, h.ahx.same]; rfl

theorem State.Alike.terminated (h : s.Alike t) (e : Engine) : t.terminated e = s.terminated e := by
  cases e with
  | lzw => rw [State.terminated_lzw, h.lzw.same]; rfl
  | a85 => rw [State.terminated_a85, h.a85]; rfl
  | ahx => rw [State.terminated_ahx, h.ahx.same]; rfl

theorem State.Alike.setIo (h : s.Alike t) (e : Engine) (io : Stream) : (s.setIo e io).Alike (t.setIo e io) := by
  obtain ⟨hlzw, ha85, ⟨hsame, hpend⟩, hactive, hhost⟩ := h
  cases e with
  | lzw =>
    exact ⟨hlzw.map (fun l => { l with io := io }) (fun _ _ _ => rfl) ⟨rfl, rfl, rfl⟩ le_rfl, ha85, ⟨hsame, hpend⟩, hactive,
      hhost⟩
  | a85 => exact ⟨hlzw, congrArg (fun a : A85 => { a with io := io }) ha85, ⟨hsame, hpend⟩, hactive, hhost⟩
  | ahx => exact ⟨hlzw, ha85, ⟨by simp only [State.setIo_ahx]; rw [hsame], hpend⟩, hactive, hhost⟩

theorem State.Alike.withHost (h : s.Alike t) (active : Engine) (host : List HostAct) :
    ({ s with active := active, host := host } : State).Alike { t with active := active, host := host } :=
  ⟨h.lzw, h.a85, h.ahx, rfl, rfl⟩

/-- Two engines that are alike, as an engine of the block. -/
def AlikeOn (e : Engine) (s t : State) : Prop :=
  match e with
  | .lzw => s.lzw.Alike t.lzw
  | .a85 => t.a85 = s.a85
  | .ahx => s.ahx.Alike t.ahx

/-- Steps of one engine that leave it alike leave the blocks alike. -/
theorem State.Alike.of_engine {e : Engine} {u v : State} (h : s.Alike t) (hs : SameElsewhere e s u) (ht : SameElsewhere e t v)
    (hon : AlikeOn e u v) : u.Alike v := by
  obtain ⟨hslzw, hsa85, hsahx, hsactive, hshost⟩ := hs
  obtain ⟨htlzw, hta85, htahx, htactive, hthost⟩ := ht
  have hactive : v.active = u.active := htactive.trans (h.active.trans hsactive.symm)
  have hhost : v.host = u.host := hthost.trans (h.host.trans hshost.symm)
  cases e with
  | lzw =>
    exact ⟨hon, by rw [hta85 nofun, hsa85 nofun, h.a85], by rw [htahx nofun, hsahx nofun]; exact h.ahx, hactive, hhost⟩
  | a85 =>
    exact ⟨by rw [htlzw nofun, hslzw nofun]; exact h.lzw, hon, by rw [htahx nofun, hsahx nofun]; exact h.ahx, hactive, hhost⟩
  | ahx =>
    exact ⟨by rw [htlzw nofun, hslzw nofun]; exact h.lzw, by rw [hta85 nofun, hsa85 nofun, h.a85], hon, hactive, hhost⟩

theorem State.Alike.on (h : s.Alike t) (e : Engine) : AlikeOn e s t := by
  cases e with
  | lzw => exact h.lzw
  | a85 => exact h.a85
  | ahx => exact h.ahx

/-- A step of an engine does alike to blocks that are alike. -/
theorem engineStep_alikeOn {e : Engine} (hs : s.Inv) (halike : s.Alike t) (h : engineStep e s = .next u) :
    ∃ v, engineStep e t = .next v ∧ AlikeOn e u v := by
  have hfull : t.outFull e = s.outFull e := by rw [State.outFull, State.outValid, halike.io e]; rfl
  obtain ⟨hstay, rfl⟩ | ⟨hroom, i, w, hfetch, hexec⟩ := engineStep_next h
  · obtain hf | hhalt | hwait := hstay
    · exact ⟨t, engineStep_full (hfull.trans hf), halike.on e⟩
    · exact ⟨t, engineStep_terminated ((halike.terminated e).trans (fetch_halted hhalt)), halike.on e⟩
    · cases e with
      | lzw => exact ⟨t, engineStep_waits ((fetchLzw_alike halike.lzw).1 hwait), halike.lzw⟩
      | a85 => exact engineStep_agree (e := .a85) halike.a85 h
      | ahx => exact ⟨t, engineStep_waits ((fetchAhx_alike halike.ahx).1 hwait), halike.ahx⟩
  · obtain ⟨hunit, -⟩ := fetch_unit hfetch
    have hw := fetch_inv hs hfetch
    cases e with
    | lzw =>
      obtain ⟨w', hfetch', hw'⟩ := (fetchLzw_alike halike.lzw).2 i w hfetch
      rw [engineStep_room (hfull.trans hroom), hfetch']
      cases hu : i.unit with
      | bitReader =>
        cases i with
        | brRead n => exact exec_brRead_alike hw' hexec
        | _ => cases hu
      | lzw => exact exec_lzw_alike hu hw.lzw.tlen_lo hw' hexec
      | a85 => rw [hu] at hunit; cases hunit
      | ahx => rw [hu] at hunit; cases hunit
    | a85 => exact engineStep_agree (e := .a85) halike.a85 h
    | ahx =>
      obtain ⟨w', hfetch', hw'⟩ := (fetchAhx_alike halike.ahx).2 i w hfetch
      rw [engineStep_room (hfull.trans hroom), hfetch']
      exact exec_ahx_alike (SymbolUnit.eq_ahx hunit) hw' hexec

theorem engineStep_alike {e : Engine} (hs : s.Inv) (halike : s.Alike t) (h : engineStep e s = .next u) :
    ∃ v, engineStep e t = .next v ∧ u.Alike v := by
  obtain ⟨v, hstep, hon⟩ := engineStep_alikeOn hs halike h
  exact ⟨v, hstep, halike.of_engine (engineStep_elsewhere h) (engineStep_elsewhere hstep) hon⟩

/-- A host action does alike to blocks that are alike. -/
theorem hostStep_alike {a : HostAct} (hs : s.Inv) (halike : s.Alike t) (h : hostStep a s = .next u) :
    ∃ v, hostStep a t = .next v ∧ u.Alike v := by
  cases a with
  | rst e =>
    cases h
    refine ⟨_, rfl, ?_⟩
    cases e with
    | lzw => exact ⟨.refl _, halike.a85, halike.ahx, halike.active, halike.host⟩
    | a85 => exact ⟨halike.lzw, rfl, halike.ahx, halike.active, halike.host⟩
    | ahx =>
      have hmode : t.ahx.mode = s.ahx.mode := by rw [halike.ahx.same]
      refine ⟨halike.lzw, halike.a85, ?_, halike.active, halike.host⟩
      rw [hwReset_ahx, hwReset_ahx, hmode]
      exact .refl _
  | run e => exact engineStep_alike (hs.withHost e s.host) (halike.host ▸ halike.withHost e s.host) h
  | eof e =>
    cases h
    refine ⟨_, rfl, ?_⟩
    rw [hostEof, hostEof, halike.io e]
    exact halike.setIo e _
  | offer e b =>
    rw [hostStep, hostOffer] at h ⊢
    rw [halike.terminated e, halike.io e]
    split at h
    case isTrue hterm => cases h; exact ⟨t, if_pos hterm, halike⟩
    case isFalse hterm =>
      rw [if_neg hterm]
      split at h
      case isTrue => cases h
      case isFalse heof =>
        cases h
        exact ⟨_, if_neg heof, halike.setIo e _⟩
  | take e =>
    cases h
    refine ⟨_, rfl, ?_⟩
    have hvalid : t.outValid e = s.outValid e := by rw [State.outValid, halike.io e]; rfl
    rw [hostTake_eq, hostTake_eq, halike.io e, hvalid]
    exact halike.setIo e _

end Machine

open Machine

/-- Settles O38: each kind of step does alike to blocks that are alike. -/
theorem unobservableStateNeverShows : Obligations.UnobservableStateNeverShows := by
  intro s t u hs halike h
  obtain ⟨hhost, hstep⟩ | ⟨a, rest, hhost, hstep⟩ := step_eq s <;> rw [hstep] at h
  · rw [step_active (halike.host.trans hhost) halike.active]
    exact engineStep_alike hs halike h
  · have hhost' : t.host = a :: rest := halike.host.trans hhost
    have hpopped : ({ s with host := rest } : State).Alike { t with host := rest } :=
      ⟨halike.lzw, halike.a85, halike.ahx, halike.active, rfl⟩
    obtain ⟨v, hv, hv'⟩ := hostStep_alike (hs.withHost s.active rest) hpopped h
    refine ⟨v, ?_, hv'⟩
    rw [step, hhost']
    exact hv

end Sys2Proof
end

section
/-!
PROOFS. Whole decodes of the two text engines, byte by byte: they terminate, skipped bytes do not matter, and the pair
modes agree where no digit is separated.
-/

namespace Sys2Proof
namespace Machine

variable {s t u v : State} {i : Instr} {e : Engine} {c : Byte} {rest bytes : Bytes} {k : Nat}

/-! ### The start of a decode -/

/-- A decode about to begin is the reset state with its input supplied at the host's port. -/
theorem startDecode_inv (e : Engine) (m : PairMode) (bytes : Bytes) : (startDecode e m bytes).Inv := by
  have hport := ((State.resetWith_inv m).withHost e []).port (e := e) bytes true (Nat.zero_le _)
  cases e <;> exact hport

/-! ### The runs -/

theorem run_succ (h : step (s.drained e) = .next t) : run e (k + 1) s = run e k t := by rw [run, h]

/-- A decode of engine `e` has come to its end: nothing is left to happen. -/
structure Finished (e : Engine) (s : State) : Prop where
  inv : s.Inv
  host : s.host = []
  active : s.active = e
  terminated : s.terminated e = true

theorem State.Inv.drained (h : s.Inv) (e : Engine) : (s.drained e).Inv := by
  have hport := h.port (e := e) [] (s.io e).eof (le_refl (s.io e).out.length)
  rwa [State.port_nil] at hport

theorem Finished.drained (h : Finished e s) : Finished e (s.drained e) :=
  ⟨h.inv.drained e, (s.setIo_host e _).trans h.host, (s.setIo_active e _).trans h.active,
    (s.terminated_setIo e e _).trans h.terminated⟩

/-- A finished decode stays as it is, but that the consumer takes what is on offer. -/
theorem Finished.run_eq (h : Finished e s) (k : Nat) :
    run e (k + 1) s = .next (s.drained e) ∧ Finished e (s.drained e) := by
  refine ⟨?_, h.drained⟩
  have hstep : step (s.drained e) = .next (s.drained e) := by
    rw [step_active h.drained.host h.drained.active, engineStep_terminated h.drained.terminated]
  induction k generalizing s with
  | zero => rw [run_succ hstep, run]
  | succ k ih =>
    have hagain : (s.drained e).drained e = s.drained e := by cases e <;> rfl
    rw [run_succ hstep, ih h.drained (by rwa [hagain]), hagain]

/-- What the host gets back of a finished decode. -/
theorem Finished.ended (h : Finished e s) :
    Ended (.next s) e (s.io e).out (s.io e).cause (s.io e).err (s.io e).info :=
  ⟨s, rfl, h.terminated, rfl, rfl, rfl, rfl⟩

/-! ### A text engine at work -/

/-- The class of a byte at a text engine; the LZW engine reads no bytes. -/
def textClass (e : Engine) (s : State) (c : Byte) : Instr :=
  match e with
  | .lzw => .lzwEoi
  | .a85 => classifyA85 s.a85.cnt c
  | .ahx => classifyAhx c

/-- The class of the end of input at a text engine. -/
def textEoi : Engine → Instr
  | .lzw => .lzwEoi
  | .a85 => .a85Eoi
  | .ahx => .ahxEoi

/-- The classes of bytes that a text engine skips. -/
def isSkip (e : Engine) (c : Byte) : Bool :=
  match e with
  | .lzw => false
  | .a85 => (Instr.a85Skip c).wellFormed
  | .ahx => (Instr.ahxSkip c).wellFormed

/-- A byte consumed, with everything on offer taken before. -/
def State.fetched (s : State) (e : Engine) : State :=
  s.setIo e { s.io e with ipos := (s.io e).ipos + 1, taken := (s.io e).out.length }

/-- A decode by a text engine under way, its input complete and `rest` still unread. -/
structure TextDecoding (e : Engine) (s : State) (rest : Bytes) : Prop where
  inv : s.Inv
  text : e ≠ .lzw
  host : s.host = []
  active : s.active = e
  running : s.terminated e = false
  eof : (s.io e).eof = true
  unread : (s.io e).inp.drop (s.io e).ipos = rest

/-- A decode about to begin has every byte of its input unread. -/
theorem TextDecoding.start (he : e ≠ .lzw) (m : PairMode) (bytes : Bytes) :
    TextDecoding e (startDecode e m bytes) bytes where
  inv := startDecode_inv e m bytes
  text := he
  host := by cases e <;> rfl
  active := by cases e <;> rfl
  running := by cases e <;> rfl
  eof := by rw [startDecode, State.io_setIo]
  unread := by
    rw [startDecode, State.io_setIo]
    cases e <;> rfl

/-- Other streams of the engine leave the decode under way. -/
theorem TextDecoding.setIo {io : Stream} (h : TextDecoding e s bytes) (hinv : (s.setIo e io).Inv) (heof : io.eof = (s.io e).eof)
    (hunread : io.inp.drop io.ipos = rest) : TextDecoding e (s.setIo e io) rest where
  inv := hinv
  text := h.text
  host := (s.setIo_host e io).trans h.host
  active := (s.setIo_active e io).trans h.active
  running := (s.terminated_setIo e e io).trans h.running
  eof := by rw [State.io_setIo, heof, h.eof]
  unread := by rw [State.io_setIo, hunread]

theorem TextDecoding.drained (h : TextDecoding e s rest) : TextDecoding e (s.drained e) rest :=
  h.setIo (h.inv.drained e) rfl h.unread

/-- A fetch meets the next byte and leaves the ones behind it unread. -/
theorem TextDecoding.fetch_cons (h : TextDecoding e s (c :: rest)) :
    fetch e (s.drained e) = .got (textClass e s c) (s.fetched e) ∧ TextDecoding e (s.fetched e) rest := by
  obtain ⟨hnext, hunread⟩ := Stream.inNext_cons h.drained.unread
  have hrunning := h.drained.running
  have hfetch : fetch e (s.drained e) = .got (textClass e s c) (s.fetched e) := by
    cases e with
    | lzw => exact absurd rfl h.text
    | a85 =>
      rw [fetch, fetchA85, if_neg (by simpa using hrunning)]
      simp only [State.io_a85] at hnext
      rw [hnext]
      rfl
    | ahx =>
      rw [fetch, fetchAhx, if_neg (by simpa using hrunning)]
      simp only [State.io_ahx] at hnext
      rw [hnext]
      rfl
  rw [State.drained, State.io_setIo] at hunread
  exact ⟨hfetch, h.setIo (fetch_inv h.drained.inv hfetch) rfl hunread⟩

theorem TextDecoding.inExhausted (h : TextDecoding e s []) : (s.io e).inExhausted = true :=
  Stream.inExhausted_iff.mpr ⟨(Stream.inNext_nil h.unread).2, h.eof⟩

/-- A fetch with every byte consumed meets the end of input. -/
theorem TextDecoding.fetch_nil (h : TextDecoding e s []) : fetch e s = .got (textEoi e) s := by
  have hrunning := h.running
  have hexhausted := h.inExhausted
  cases e with
  | lzw => exact absurd rfl h.text
  | a85 => exact fetchA85_eq_eoi_iff.mpr ⟨TextFsm.eq_running (by simpa using hrunning), hexhausted, rfl⟩
  | ahx => exact fetchAhx_eq_eoi_iff.mpr ⟨TextFsm.eq_running (by simpa using hrunning), hexhausted, rfl⟩

/-- A meaning of the engine ends the decode or leaves it under way with as much unread. -/
theorem TextDecoding.of_exec (h : TextDecoding e s rest) (hu : i.unit = (textEoi e).unit) (hx : exec i s = .next u) :
    Finished e u ∨ TextDecoding e u rest := by
  have hinv : u.Inv := exec_inv hx h.inv
  obtain ⟨-, -, -, hactive, hhost⟩ := exec_elsewhere hx
  have hsupply : (u.io e).eof = (s.io e).eof ∧ (u.io e).inp = (s.io e).inp ∧ (u.io e).ipos = (s.io e).ipos := by
    cases e with
    | lzw => exact absurd rfl h.text
    | a85 => rw [State.io_a85, exec_a85_input hu hx]; exact ⟨rfl, rfl, rfl⟩
    | ahx => rw [State.io_ahx, exec_ahx_input hu hx]; exact ⟨rfl, rfl, rfl⟩
  obtain ⟨heof, hinp, hipos⟩ := hsupply
  cases hterm : u.terminated e with
  | true => exact .inl ⟨hinv, hhost.trans h.host, hactive.trans h.active, hterm⟩
  | false =>
    exact .inr ⟨hinv, h.text, hhost.trans h.host, hactive.trans h.active, hterm, heof.trans h.eof,
      by rw [hinp, hipos]; exact h.unread⟩

theorem textClass_unit (he : e ≠ .lzw) (s : State) (c : Byte) : (textClass e s c).unit = (textEoi e).unit := by
  cases e with
  | lzw => exact absurd rfl he
  | a85 => exact classifyA85_unit _ c
  | ahx => exact classifyAhx_unit c

/-- A step on a byte runs the byte's class; it ends the decode or leaves one byte less unread. -/
theorem TextDecoding.step_cons (h : TextDecoding e s (c :: rest)) :
    ∃ u, step (s.drained e) = .next u ∧ exec (textClass e s c) (s.fetched e) = .next u ∧
      (Finished e u ∨ TextDecoding e u rest) := by
  obtain ⟨hfetch, hfetched⟩ := h.fetch_cons
  obtain ⟨u, hx⟩ := exec_fetched h.drained.inv hfetch
  refine ⟨u, ?_, hx, hfetched.of_exec (textClass_unit h.text s c) hx⟩
  rw [step_active h.drained.host h.drained.active, engineStep_room (State.outFull_drained s e), hfetch]
  exact hx

/-- The end of input terminates a text engine. -/
theorem exec_textEoi_terminated (he : e ≠ .lzw) (hx : exec (textEoi e) s = .next u) : u.terminated e = true := by
  cases e with
  | lzw => exact absurd rfl he
  | a85 => obtain ⟨-, -, rfl⟩ := execA85Eoi_next hx; rfl
  | ahx => obtain ⟨-, -, rfl⟩ := execAhxEoi_next hx; rfl

/-- A step with every byte consumed ends the decode. -/
theorem TextDecoding.step_nil (h : TextDecoding e s []) :
    ∃ u, step (s.drained e) = .next u ∧ exec (textEoi e) (s.drained e) = .next u ∧ Finished e u := by
  have hfetch := h.drained.fetch_nil
  obtain ⟨u, hx⟩ := exec_fetched h.drained.inv hfetch
  refine ⟨u, ?_, hx, ?_⟩
  · rw [step_active h.drained.host h.drained.active, engineStep_room (State.outFull_drained s e), hfetch]
    exact hx
  · refine (h.drained.of_exec rfl hx).resolve_right fun hrunning => ?_
    cases hrunning.running.symm.trans (exec_textEoi_terminated h.text hx)

/-- A text decode finishes with one step for each byte and one for the end of input at most. -/
theorem TextDecoding.run_finishes (h : TextDecoding e s rest) :
    ∃ u, run e (rest.length + 1) s = .next u ∧ Finished e u := by
  induction rest generalizing s with
  | nil =>
    obtain ⟨u, hstep, -, hu⟩ := h.step_nil
    exact ⟨u, run_succ hstep, hu⟩
  | cons c rest ih =>
    obtain ⟨u, hstep, -, hu | hu⟩ := h.step_cons <;> rw [List.length_cons, run_succ hstep]
    · exact ⟨_, hu.run_eq rest.length⟩
    · exact ih hu

/-- What the status registers of a terminated ASCII85 engine say (R37, R210). -/
theorem A85.Inv.terminated_status {a : A85} (h : a.Inv) (hf : a.fsm = .terminated) :
    (a.io.cause = .endOfInput ∨ a.io.cause = .terminator ∨ a.io.cause = .invalidShorthand ∨ a.io.cause = .a85Overflow) ∧
      (a.io.err = true ↔ a.io.cause = .invalidShorthand ∨ a.io.cause = .a85Overflow) := by
  have hne : a.io.cause ≠ .none := by simp [h.io.cause_iff, hf]
  refine ⟨by simpa [hne] using h.causes, ?_⟩
  rw [h.io.err_eq]
  cases a.io.cause <;> decide

/-- What the status registers of a terminated ASCIIHex engine say (R37, R210). -/
theorem Ahx.Inv.terminated_status {a : Ahx} (h : a.Inv) (hf : a.fsm = .terminated) :
    (a.io.cause = .endOfInput ∨ a.io.cause = .terminator) ∧ a.io.err = false ∧ a.io.info = 0 := by
  have hne : a.io.cause ≠ .none := by simp [h.io.cause_iff, hf]
  have hcause : a.io.cause = .endOfInput ∨ a.io.cause = .terminator := by simpa [hne] using h.causes
  obtain ⟨hfailure, hinfo⟩ : a.io.cause.isFailure = false ∧ a.io.cause.hasInfo = false := by
    obtain hc | hc := hcause <;> rw [hc] <;> exact ⟨rfl, rfl⟩
  exact ⟨hcause, h.io.err_eq.trans hfailure, h.io.info_eq hinfo⟩

/-- What the host gets back of a finished ASCIIHex decode. -/
theorem Finished.ended_ahx (h : Finished .ahx s) :
    Ended (.next s) .ahx s.ahx.io.out s.ahx.io.cause false 0 := by
  obtain ⟨-, herr, hinfo⟩ := h.inv.ahx.terminated_status (by simpa using h.terminated)
  have hended := h.ended
  rwa [State.io_ahx, herr, hinfo] at hended

/-! ### Two decodes over different supplies -/

/-- The two states hold the same text engine `e` but for its input side. -/
def Twins (e : Engine) (s t : State) : Prop :=
  ∃ jo : Stream, match e with
    | .lzw => False
    | .a85 => t.a85 = s.a85.withSupply jo
    | .ahx => t.ahx = s.ahx.withSupply jo

/-- The input cursor or the count of bytes taken may move on either side. -/
theorem Twins.moved (h : Twins e s t) (p n q m : Nat) :
    Twins e (s.setIo e { s.io e with ipos := p, taken := n }) (t.setIo e { t.io e with ipos := q, taken := m }) := by
  obtain ⟨jo, h⟩ := h
  refine ⟨{ jo with ipos := q, taken := m }, ?_⟩
  cases e with
  | lzw => exact h
  | a85 => exact congrArg (fun a : A85 => { a with io := { a.io with ipos := q, taken := m } }) h
  | ahx => exact congrArg (fun a : Ahx => { a with io := { a.io with ipos := q, taken := m } }) h

theorem Twins.terminated (h : Twins e s t) : t.terminated e = s.terminated e := by
  obtain ⟨jo, h⟩ := h
  cases e with
  | lzw => exact h.elim
  | a85 => simp only [State.terminated_a85]; rw [h]; rfl
  | ahx => simp only [State.terminated_ahx]; rw [h]; rfl

theorem Twins.results (h : Twins e s t) :
    (t.io e).out = (s.io e).out ∧ (t.io e).cause = (s.io e).cause ∧ (t.io e).err = (s.io e).err ∧
      (t.io e).info = (s.io e).info := by
  obtain ⟨jo, h⟩ := h
  cases e with
  | lzw => exact h.elim
  | a85 => simp only [State.io_a85]; rw [h]; exact ⟨rfl, rfl, rfl, rfl⟩
  | ahx => simp only [State.io_ahx]; rw [h]; exact ⟨rfl, rfl, rfl, rfl⟩

/-- A byte is of the same class at both. -/
theorem Twins.textClass (h : Twins e s t) (c : Byte) : textClass e t c = textClass e s c := by
  obtain ⟨jo, h⟩ := h
  cases e with
  | a85 => simp only [Machine.textClass]; rw [h]; rfl
  | _ => rfl

/-- A meaning does the same to both. -/
theorem Twins.exec (h : Twins e s t) (hu : i.unit = (textEoi e).unit)
    (heoi : i = textEoi e → (t.io e).inExhausted = true) (hs : exec i s = .next u) (ht : exec i t = .next v) :
    Twins e u v := by
  obtain ⟨jo, h⟩ := h
  refine ⟨jo, ?_⟩
  cases e with
  | lzw => exact h
  | a85 =>
    rw [exec_a85_withSupply hu hs heoi h] at ht
    cases ht
    rfl
  | ahx =>
    rw [exec_ahx_withSupply hu hs heoi h] at ht
    cases ht
    rfl

/-- The end of input is no byte's class. -/
theorem textClass_ne_textEoi (he : e ≠ .lzw) (s : State) (c : Byte) : textClass e s c ≠ textEoi e := by
  cases e with
  | lzw => exact absurd rfl he
  | a85 => exact classifyA85_ne_a85Eoi _ c
  | ahx =>
    obtain ⟨-, hclass⟩ | ⟨-, -, hclass⟩ | ⟨-, -, hclass⟩ := classifyAhx_cases c <;> rw [textClass, hclass] <;> nofun

/-! ### Skipped bytes -/

/-- The engine is no ASCIIHex engine that tells separated digits apart. -/
def IgnoresSkips (e : Engine) (s : State) : Prop := e = .ahx → s.ahx.mode = .stream

/-- A skipped byte does nothing. -/
theorem exec_skip (hrunning : s.terminated e = false) (hmode : IgnoresSkips e s) (hc : isSkip e c = true) :
    exec (textClass e s c) s = .next s := by
  cases e with
  | lzw => cases hc
  | a85 =>
    rw [textClass, (classifyA85_skip_iff _ c).mpr hc]
    exact exec_a85Skip (TextFsm.eq_running (by simpa using hrunning)) hc
  | ahx =>
    rw [textClass, (classifyAhx_skip_iff c).mpr hc]
    exact exec_ahxSkip_keeps (TextFsm.eq_running (by simpa using hrunning)) hc (.inl (hmode rfl))

/-- No ASCIIHex meaning writes the pair mode. -/
theorem exec_ahx_mode (hu : i.unit = .ahx) (h : exec i s = .next t) : t.ahx.mode = s.ahx.mode := by
  cases i with
  | ahxEoi => obtain ⟨-, -, rfl⟩ := execAhxEoi_next h; rw [ahxFlush_eq]; rfl
  | ahxEnd => obtain ⟨-, rfl⟩ := execAhxEnd_next h; rw [ahxFlush_eq]; rfl
  | ahxDigit c => obtain ⟨-, d, -, ⟨-, -, rfl⟩ | ⟨-, -, -, rfl⟩ | ⟨-, rfl⟩⟩ := execAhxDigit_next h <;> rfl
  | ahxSkip c => obtain ⟨-, -, -, ⟨-, -, rfl⟩ | ⟨-, rfl⟩⟩ := execAhxSkip_next h <;> rfl
  | _ => cases hu

theorem IgnoresSkips.setIo (h : IgnoresSkips e s) (io : Stream) : IgnoresSkips e (s.setIo e io) := by
  rintro rfl
  exact h rfl

theorem IgnoresSkips.exec (h : IgnoresSkips e s) (hu : i.unit = (textEoi e).unit) (hx : exec i s = .next u) :
    IgnoresSkips e u := by
  rintro rfl
  exact (exec_ahx_mode hu hx).trans (h rfl)

/-- The decode of an input and that of the input without its skipped bytes go hand in hand. -/
theorem TextDecoding.run_filter (hs : TextDecoding e s rest) (ht : TextDecoding e t (rest.filter fun c => !isSkip e c))
    (htwins : Twins e s t) (hmode : IgnoresSkips e s) :
    ∃ u v, run e (rest.length + 1) s = .next u ∧ run e ((rest.filter fun c => !isSkip e c).length + 1) t = .next v ∧
      Finished e u ∧ Finished e v ∧ Twins e u v := by
  induction rest generalizing s t with
  | nil =>
    obtain ⟨u, hstepS, hexecS, hu⟩ := hs.step_nil
    obtain ⟨v, hstepT, hexecT, hv⟩ := TextDecoding.step_nil ht
    exact ⟨u, v, run_succ hstepS, run_succ hstepT, hu, hv,
      (htwins.moved _ _ _ _).exec rfl (fun _ => (TextDecoding.drained ht).inExhausted) hexecS hexecT⟩
  | cons c rest ih =>
    obtain ⟨u, hstepS, hexecS, hu⟩ := hs.step_cons
    rw [List.length_cons, run_succ hstepS]
    cases hskip : isSkip e c with
    | true =>
      have hfetched := hs.fetch_cons.2
      have hexec : exec (textClass e s c) (s.fetched e) = .next (s.fetched e) := by
        have hclass := exec_skip hfetched.running (hmode.setIo _) hskip
        cases e <;> exact hclass
      obtain rfl : s.fetched e = u := Host.Outcome.next.inj (hexec.symm.trans hexecS)
      rw [List.filter_cons_of_neg (by simp [hskip])] at ht ⊢
      have hmoved : Twins e (s.fetched e) t := by
        have := htwins.moved ((s.io e).ipos + 1) (s.io e).out.length (t.io e).ipos (t.io e).taken
        cases e <;> exact this
      exact ih hfetched ht hmoved (hmode.setIo _)
    | false =>
      rw [List.filter_cons_of_pos (by simp [hskip])] at ht ⊢
      obtain ⟨v, hstepT, hexecT, hv⟩ := ht.step_cons
      rw [List.length_cons, run_succ hstepT]
      rw [htwins.textClass] at hexecT
      have hunit := textClass_unit hs.text s c
      have htwins' : Twins e u v := (htwins.moved _ _ _ _).exec hunit
        (fun heoi => absurd heoi (textClass_ne_textEoi hs.text s c)) hexecS hexecT
      obtain hu | hu := hu
      · have hv : Finished e v := hv.resolve_right fun hrunning => by
          cases hrunning.running.symm.trans (htwins'.terminated.trans hu.terminated)
        obtain ⟨hrunS, hfinS⟩ := hu.run_eq rest.length
        obtain ⟨hrunT, hfinT⟩ := hv.run_eq (rest.filter fun c => !isSkip e c).length
        exact ⟨_, _, hrunS, hrunT, hfinS, hfinT, htwins'.moved _ _ _ _⟩
      · have hv : TextDecoding e v _ := hv.resolve_left fun hfinished => by
          cases hu.running.symm.trans (htwins'.terminated.symm.trans hfinished.terminated)
        exact ih hu hv htwins' ((hmode.setIo _).exec hunit hexecS)

/-- A text decode of an input and that of the input without its skipped bytes finish alike. -/
theorem startDecode_filter (he : e ≠ .lzw) {m : PairMode} (hmode : IgnoresSkips e (startDecode e m bytes)) :
    ∃ u v, run e (bytes.length + 1) (startDecode e m bytes) = .next u ∧
      run e ((bytes.filter fun c => !isSkip e c).length + 1) (startDecode e m (bytes.filter fun c => !isSkip e c)) = .next v ∧
      Finished e u ∧ Finished e v ∧ Twins e u v := by
  refine (TextDecoding.start he m bytes).run_filter (TextDecoding.start he m _) ?_ hmode
  refine ⟨(startDecode e m (bytes.filter fun c => !isSkip e c)).io e, ?_⟩
  cases e with
  | lzw => exact he rfl
  | _ => rfl

/-! ### The pair modes -/

/-- The ASCIIHex engine in `STREAM` mode, in which no digit is marked as separated (R194). -/
def State.streamed (s : State) : State := { s with ahx := { s.ahx with mode := .stream, sep := false } }

/-- No hex digit comes before the terminator. -/
def NoLaterDigit (rest : Bytes) : Prop := ((rest.takeWhile (· != ahxGt)).all fun d => (hexValue? d).isNone) = true

/-- A pending digit is marked as separated only where no digit comes that would miss it, now and later. -/
structure Joined (a : Ahx) (rest : Bytes) : Prop where
  sep : a.sep = true → NoLaterDigit rest
  adjacent : adjacentDigits a.pv rest = true

theorem NoLaterDigit.tail (h : NoLaterDigit (c :: rest)) (hc : c ≠ ahxGt) : hexValue? c = none ∧ NoLaterDigit rest := by
  rw [NoLaterDigit, List.takeWhile_cons_of_pos (by simpa using hc), List.all_cons, Bool.and_eq_true, Option.isNone_iff_eq_none]
    at h
  exact h

/-- A digit meets no separated one, and comes to a state of the same kind. -/
theorem Joined.digit {a : Ahx} {d : Nat} (h : Joined a (c :: rest)) (hd : hexValue? c = some d) :
    a.sep = false ∧ adjacentDigits (!a.pv) rest = true := by
  have hgt : c ≠ ahxGt := by
    rintro rfl
    cases hd
  refine ⟨Bool.eq_false_iff.mpr fun hsep => ?_, ?_⟩
  · rw [((h.sep hsep).tail hgt).1] at hd
    cases hd
  · have hadjacent := h.adjacent
    rwa [adjacentDigits, hd] at hadjacent

/-- A skipped byte after a pending digit comes before no digit. -/
theorem Joined.skip {a : Ahx} (h : Joined a (c :: rest)) (hv : hexValue? c = none) (hgt : c ≠ ahxGt) :
    Joined a rest ∧ (a.pv = true → NoLaterDigit rest) := by
  have hadjacent := h.adjacent
  simp only [adjacentDigits, hv, if_neg hgt, Bool.and_eq_true] at hadjacent
  obtain ⟨hlater, hrest⟩ := hadjacent
  refine ⟨⟨fun hsep => ((h.sep hsep).tail hgt).2, hrest⟩, fun hpv => ?_⟩
  rw [hpv] at hlater
  simpa [NoLaterDigit] using hlater

/-- A digit does the same in both modes where none is separated. -/
theorem exec_ahxDigit_streamed (hsep : s.ahx.sep = false) (h : exec (.ahxDigit c) s = .next u) :
    exec (.ahxDigit c) s.streamed = .next u.streamed ∧ u.ahx.pv = !s.ahx.pv ∧ u.ahx.sep = false := by
  obtain ⟨hf, d, hd, ⟨hp, -, rfl⟩ | ⟨-, -, hmarked, -⟩ | ⟨hp, rfl⟩⟩ := execAhxDigit_next h
  · exact ⟨exec_ahxDigit_pair hf hd hp (.inl rfl), by simp [hp], hsep⟩
  · rw [hsep] at hmarked
    cases hmarked
  · exact ⟨exec_ahxDigit_begins hf hd hp, by simp [hp], rfl⟩

/-- A skipped byte does nothing in `STREAM` mode, and at most marks a pending digit in the other. -/
theorem exec_ahxSkip_streamed (h : exec (.ahxSkip c) s = .next u) :
    exec (.ahxSkip c) s.streamed = .next u.streamed ∧ u.ahx.pv = s.ahx.pv ∧
      (u.ahx.sep = true → s.ahx.sep = true ∨ s.ahx.pv = true) := by
  obtain ⟨hf, hv, hgt, hcase⟩ := execAhxSkip_next h
  have hstreamed := exec_ahxSkip_keeps (s := s.streamed) hf ((wellFormed_ahxSkip c).mpr ⟨hv, hgt⟩) (.inl rfl)
  obtain ⟨-, hp, rfl⟩ | ⟨-, rfl⟩ := hcase
  · exact ⟨hstreamed, rfl, fun _ => .inr hp⟩
  · exact ⟨hstreamed, rfl, .inl⟩

/-- A byte's class does the same in both modes where no digit is separated, and either ends the decode or keeps to such
states. -/
theorem exec_ahx_streamed (hjoined : Joined s.ahx (c :: rest)) (h : exec (classifyAhx c) s = .next u) :
    exec (classifyAhx c) s.streamed = .next u.streamed ∧ (u.terminated .ahx = true ∨ Joined u.ahx rest) := by
  obtain ⟨⟨d, hd⟩, hclass⟩ | ⟨-, -, hclass⟩ | ⟨hv, hgt, hclass⟩ := classifyAhx_cases c <;> rw [hclass] at h ⊢
  · obtain ⟨hsep, hadjacent⟩ := hjoined.digit hd
    obtain ⟨hstreamed, hpv, husep⟩ := exec_ahxDigit_streamed hsep h
    exact ⟨hstreamed, .inr ⟨fun hmarked => absurd (husep.symm.trans hmarked) nofun, hpv ▸ hadjacent⟩⟩
  · obtain ⟨hf, rfl⟩ := execAhxEnd_next h
    refine ⟨?_, .inl rfl⟩
    rw [exec_ahxEnd (s := s.streamed) hf, ahxFlush_eq, ahxFlush_eq]
    rfl
  · obtain ⟨hstreamed, hpv, hmarked⟩ := exec_ahxSkip_streamed h
    obtain ⟨hrest, hlater⟩ := hjoined.skip hv hgt
    exact ⟨hstreamed, .inr ⟨fun hsep => (hmarked hsep).elim hrest.sep hlater, hpv ▸ hrest.adjacent⟩⟩

theorem exec_ahxEoi_streamed (h : exec .ahxEoi s = .next u) : exec .ahxEoi s.streamed = .next u.streamed := by
  obtain ⟨hf, he, rfl⟩ := execAhxEoi_next h
  rw [exec_ahxEoi (s := s.streamed) hf he, ahxFlush_eq, ahxFlush_eq]
  rfl

/-- The decodes of one input in both modes go hand in hand where no digit is separated. -/
theorem TextDecoding.run_streamed (hs : TextDecoding .ahx s rest) (ht : TextDecoding .ahx s.streamed rest)
    (hjoined : Joined s.ahx rest) :
    ∃ u, run .ahx (rest.length + 1) s = .next u ∧ run .ahx (rest.length + 1) s.streamed = .next u.streamed ∧
      Finished .ahx u ∧ Finished .ahx u.streamed := by
  induction rest generalizing s with
  | nil =>
    obtain ⟨u, hstepS, hexecS, hu⟩ := hs.step_nil
    obtain ⟨v, hstepT, hexecT, hv⟩ := ht.step_nil
    obtain rfl : u.streamed = v := Host.Outcome.next.inj ((exec_ahxEoi_streamed hexecS).symm.trans hexecT)
    exact ⟨u, run_succ hstepS, run_succ hstepT, hu, hv⟩
  | cons c rest ih =>
    obtain ⟨u, hstepS, hexecS, hu⟩ := hs.step_cons
    obtain ⟨v, hstepT, hexecT, hv⟩ := ht.step_cons
    obtain ⟨hexec, hnext⟩ := exec_ahx_streamed (s := s.fetched .ahx) ⟨hjoined.sep, hjoined.adjacent⟩ hexecS
    obtain rfl : u.streamed = v := Host.Outcome.next.inj (hexec.symm.trans hexecT)
    rw [List.length_cons, run_succ hstepS, run_succ hstepT]
    obtain hu | hu := hu
    · have hv : Finished .ahx u.streamed := hv.resolve_right fun hrunning => by
        cases hrunning.running.symm.trans hu.terminated
      obtain ⟨hrunS, hfinS⟩ := hu.run_eq rest.length
      obtain ⟨hrunT, hfinT⟩ := hv.run_eq rest.length
      exact ⟨_, hrunS, hrunT, hfinS, hfinT⟩
    · have hv : TextDecoding .ahx u.streamed rest := hv.resolve_left fun hfinished => by
        cases hu.running.symm.trans hfinished.terminated
      exact ih hu hv (hnext.resolve_left (by simp [hu.running]))

end Machine

open Machine

/-- Settles O48: each step consumes a byte or ends the decode; the invariant gives the causes. -/
theorem a85DecodeTerminates : Obligations.A85DecodeTerminates := by
  intro m bytes
  obtain ⟨u, hrun, hu⟩ := (TextDecoding.start (e := .a85) nofun m bytes).run_finishes
  exact ⟨_, _, _, _, hrun ▸ hu.ended, hu.inv.a85.terminated_status (by simpa using hu.terminated)⟩

/-- Settles O54: each step consumes a byte or ends the decode; the invariant gives the status. -/
theorem ahxDecodeTerminates : Obligations.AhxDecodeTerminates := by
  intro m bytes
  obtain ⟨u, hrun, hu⟩ := (TextDecoding.start (e := .ahx) nofun m bytes).run_finishes
  exact ⟨_, _, hrun ▸ hu.ended_ahx, (hu.inv.ahx.terminated_status (by simpa using hu.terminated)).1⟩

/-- Settles O49: a skipped byte moves the cursor alone, and no meaning reads the input side. -/
theorem a85SkippedBytesDoNotMatter : Obligations.A85SkippedBytesDoNotMatter := by
  intro m bytes
  obtain ⟨u, v, hrunS, hrunT, hu, hv, htwins⟩ := startDecode_filter (e := .a85) (m := m) (bytes := bytes) nofun nofun
  obtain ⟨hout, hcause, herr, hinfo⟩ := htwins.results
  have hended := hv.ended
  rw [hout, hcause, herr, hinfo] at hended
  exact ⟨_, _, _, _, hrunS ▸ hu.ended, hrunT ▸ hended⟩

/-- Settles O55: in `STREAM` mode a skipped byte moves the cursor alone. -/
theorem streamModeIgnoresSkippedBytes : Obligations.StreamModeIgnoresSkippedBytes := by
  intro bytes
  obtain ⟨u, v, hrunS, hrunT, hu, hv, htwins⟩ :=
    startDecode_filter (e := .ahx) (m := .stream) (bytes := bytes) nofun (fun _ => rfl)
  obtain ⟨hout, hcause, -⟩ := htwins.results
  have hended := hv.ended_ahx
  simp only [State.io_ahx] at hout hcause
  rw [hout, hcause] at hended
  exact ⟨_, _, hrunS ▸ hu.ended_ahx, hrunT ▸ hended⟩

/-- Settles O56: in step with the same engine in `STREAM` mode, no digit is ever dropped. -/
theorem pairModesAgreeOnAdjacentDigits : Obligations.PairModesAgreeOnAdjacentDigits := by
  intro bytes hadjacent
  obtain ⟨u, hrunS, hrunT, hu, hv⟩ := (TextDecoding.start (e := .ahx) nofun .adjacent bytes).run_streamed
    (TextDecoding.start (e := .ahx) nofun .stream bytes) ⟨nofun, hadjacent⟩
  exact ⟨_, _, hrunS ▸ hu.ended_ahx, hrunT ▸ hv.ended_ahx⟩

end Sys2Proof
end

section
/-!
PROOFS. The whole LZW decode of a stream of literal codes: each literal code appends its byte, at the width the table
length gives.
-/

namespace Sys2Proof
namespace Machine

variable {s t u : State} {i : Instr} {rest pad : List Bool} {n : Nat} {b : Byte} {literals bytes : Bytes}

/-- What a step finds that has fetched a code and left `rest` unread: nothing but the cursor has moved. -/
structure CodeFetched (s t : State) (rest : List Bool) : Prop where
  inv : t.Inv
  fsm : t.lzw.fsm = s.lzw.fsm
  prev : t.lzw.prev = s.lzw.prev
  tlen : t.lzw.tlen = s.lzw.tlen
  out : t.lzw.io.out = s.lzw.io.out
  unread : t.lzw.unread = rest

/-- A step on the bits of a code runs the code's class. -/
theorem Decoding.step_code (h : Decoding s) (hf : s.lzw.fsm ≠ .terminated) (hn : n < 512)
    (hunread : s.lzw.unread = valueBits (width s.lzw.tlen) n ++ rest) :
    ∃ t, step (s.drained .lzw) = exec (classifyCode t.context (BitVec.ofNat 12 n)) t ∧ CodeFetched s t rest := by
  have hfit : n < 2 ^ width s.lzw.tlen :=
    hn.trans_le (Nat.pow_le_pow_right (n := 2) (by decide) (width_range s.lzw.tlen).1)
  have hdrained : (s.drained .lzw).lzw.unread = valueBits (width s.lzw.tlen) n ++ rest := hunread
  obtain ⟨hvalue, hrest⟩ := take_valueBits hfit rest
  obtain ⟨e, hfetch, hmoved, heunread⟩ := (fetchCode_spec h.drained.inv).1 (by
    rw [hdrained, List.length_append, valueBits_length]
    exact Nat.le_add_right _ _)
  have hgot : fetch .lzw (s.drained .lzw) =
      .got (classifyCode (s.drained .lzw).context (BitVec.ofNat 12 n)) { s.drained .lzw with lzw := e } := by
    rw [fetchLzw_noreq h.drained.req hf, hfetch, hdrained]
    exact congrArg (fun v => Fetched.got (classifyCode _ (BitVec.ofNat 12 v)) _) hvalue
  refine ⟨{ s.drained .lzw with lzw := e }, ?_, ?_⟩
  · rw [hmoved.context, h.drained.step_eq_engineStep, engineStep_room (State.outFull_drained s .lzw), hgot]
  · exact
      { inv := fetch_inv h.drained.inv hgot
        fsm := hmoved.fsm
        prev := (congrArg Lzw.prev hmoved.same :)
        tlen := (congrArg Lzw.tlen hmoved.same :)
        out := (congrArg (fun l : Lzw => l.io.out) hmoved.same :)
        unread := by rw [heunread, hdrained]; exact hrest }

/-- Where a decode stands that has run the class of a fetched code. -/
theorem CodeFetched.after (h : Decoding s) (ht : CodeFetched s t rest) (hu : i.unit = .lzw) (hx : exec i t = .next u)
    (hstep : step (s.drained .lzw) = .next u) : Decoding u ∧ u.lzw.unread = rest := by
  have hengine : engineStep .lzw (s.drained .lzw) = .next u := h.drained.step_eq_engineStep.symm.trans hstep
  refine ⟨h.drained.of_engineStep (engineStep_inv hengine h.drained.inv) hengine, ?_⟩
  rw [exec_lzw_input hu hx, ← ht.unread]
  rfl

/-! ### The codes of the stream -/

/-- A literal code appends its byte; from the second one on it adds a table entry, while there is room. -/
theorem exec_literal (hs : s.Inv) (hf : s.lzw.fsm = .running) (b : Byte) :
    ∃ u, exec (classifyCode s.context (BitVec.ofNat 12 b.toNat)) s = .next u ∧ u.lzw.fsm = .running ∧ u.lzw.prev ≠ [] ∧
      u.lzw.tlen = (if s.lzw.prev.isEmpty then s.lzw.tlen else min (s.lzw.tlen + 1) Config.tcap) ∧
      u.lzw.io.out = s.lzw.io.out ++ [b] := by
  have hb := b.isLt
  have hcode : (BitVec.ofNat 12 b.toNat).toNat = b.toNat := by
    rw [BitVec.toNat_ofNat, Nat.mod_eq_of_lt (by omega)]
  have hbyte : BitVec.ofNat 8 b.toNat = b := by rw [BitVec.ofNat_toNat, BitVec.setWidth_eq]
  have hlo := hs.lzw.tlen_lo
  have hrun : s.context.fsm ≠ .awaitingClear := fun haw => absurd (hf.symm.trans haw) nofun
  have hclear : ¬ b.toNat = 256 := by omega
  have heod : ¬ b.toNat = 257 := by omega
  by_cases hp : s.lzw.prev = []
  · have hclass : classifyCode s.context (BitVec.ofNat 12 b.toNat) = .lzwFirst (BitVec.ofNat 12 b.toNat) := by
      have hempty : s.context.prevEmpty = true := List.isEmpty_iff.mpr hp
      simp only [classifyCode, hcode, if_neg hclear, if_neg heod, if_neg hrun, if_pos hempty]
      exact if_pos (by omega)
    have hexec := exec_lzwFirst (s := s) (code := BitVec.ofNat 12 b.toNat) hf hp (by omega)
    rw [hcode, hbyte] at hexec
    rw [hclass]
    exact ⟨_, hexec, hf, List.cons_ne_nil _ _, by rw [hp]; rfl, rfl⟩
  · have hclass : classifyCode s.context (BitVec.ofNat 12 b.toNat) = .lzwRef (BitVec.ofNat 12 b.toNat) := by
      have hempty : ¬ s.context.prevEmpty = true := fun hempty => hp (List.isEmpty_iff.mp hempty)
      simp only [classifyCode, hcode, if_neg hclear, if_neg heod, if_neg hrun, if_neg hempty]
      exact if_pos (show b.toNat < s.lzw.tlen by omega)
    have hread : s.lzw.table.read (BitVec.ofNat 12 b.toNat).toNat = some (b :: []) := by
      rw [hcode, Memory.read_literal _ hb, hbyte]
    have hdata : isDataCode (BitVec.ofNat 12 b.toNat) = true := isDataCode_iff.mpr ⟨by omega, by omega⟩
    have hexec := exec_lzwRef (s := s) hf hp (by omega) hdata hread
    rw [hclass]
    refine ⟨_, hexec, (Lzw.append_fsm _ _).trans hf, List.cons_ne_nil _ _, ?_, rfl⟩
    rw [if_neg (by rwa [List.isEmpty_iff])]
    obtain hlt | hfull := lt_or_eq_of_le hs.lzw.tlen_hi
    · exact (appendEmit_append hs hlt _ _).1.trans (min_eq_left hlt).symm
    · rw [(appendEmit_full hfull _ _).1, hfull]
      rfl

/-- A running decode whose unread bits are the codes of `literals`, END-OF-DATA and `pad`. -/
structure AtLiterals (s : State) (literals : Bytes) (pad : List Bool) : Prop where
  decoding : Decoding s
  running : s.lzw.fsm = .running
  unread : s.lzw.unread = packLiterals s.lzw.prev.isEmpty s.lzw.tlen literals ++ pad

/-- A step on a literal code appends its byte and comes to the next code. -/
theorem AtLiterals.step_literal (h : AtLiterals s (b :: literals) pad) :
    ∃ u, step (s.drained .lzw) = .next u ∧ AtLiterals u literals pad ∧ u.lzw.io.out = s.lzw.io.out ++ [b] := by
  have hb := b.isLt
  have hunread := h.unread
  rw [packLiterals, List.append_assoc] at hunread
  obtain ⟨t, hstep, ht⟩ := h.decoding.step_code (by rw [h.running]; nofun) (by omega) hunread
  obtain ⟨u, hexec, hf, hprev, htlen, hout⟩ := exec_literal ht.inv (ht.fsm.trans h.running) b
  have hnext : step (s.drained .lzw) = .next u := hstep.trans hexec
  obtain ⟨hdecoding, hrest⟩ := ht.after h.decoding (classifyCode_unit _ _) hexec hnext
  refine ⟨u, hnext, ⟨hdecoding, hf, ?_⟩, by rw [hout, ht.out]⟩
  rw [hrest, htlen, ht.prev, ht.tlen, List.isEmpty_eq_false_iff.mpr hprev]

/-- A step on END-OF-DATA ends the decode. -/
theorem AtLiterals.step_eod (h : AtLiterals s [] pad) :
    ∃ u, step (s.drained .lzw) = .next u ∧ Ended (.next u) .lzw s.lzw.io.out .endOfData false 0 := by
  have hf : s.lzw.fsm ≠ .terminated := by rw [h.running]; nofun
  obtain ⟨t, hstep, ht⟩ := h.decoding.step_code hf (by decide) h.unread
  have htf : t.lzw.fsm ≠ .terminated := ht.fsm.trans_ne hf
  obtain ⟨hends, -⟩ := raise_lzw_endsWith (c := .endOfData) (v := 0) ht.inv.lzw htf rfl (fun _ => rfl)
  refine ⟨_, hstep.trans (exec_lzwEod htf), _, rfl, rfl, ht.out, ?_⟩
  rw [hends]
  exact ⟨rfl, rfl, rfl⟩

/-- The decode appends the literals and ends. -/
theorem AtLiterals.run_ended (h : AtLiterals s literals pad) :
    Ended (run .lzw (literals.length + 1) s) .lzw (s.lzw.io.out ++ literals) .endOfData false 0 := by
  induction literals generalizing s with
  | nil =>
    obtain ⟨u, hstep, hended⟩ := h.step_eod
    rw [run_succ hstep, List.append_nil]
    exact hended
  | cons b literals ih =>
    obtain ⟨u, hstep, hu, hout⟩ := h.step_literal
    have hended := ih hu
    rw [hout, List.append_assoc] at hended
    rw [List.length_cons, run_succ hstep]
    exact hended

/-- A step on CLEAR comes to the codes behind it, with the table reset. -/
theorem Decoding.step_clear (h : Decoding s) (hf : s.lzw.fsm ≠ .terminated) (htlen : s.lzw.tlen = 258)
    (hunread : s.lzw.unread = valueBits 9 256 ++ (packLiterals true 258 literals ++ pad)) :
    ∃ u, step (s.drained .lzw) = .next u ∧ AtLiterals u literals pad ∧ u.lzw.io.out = s.lzw.io.out := by
  obtain ⟨t, hstep, ht⟩ := h.step_code (n := 256) hf (by decide) (by rw [htlen]; exact hunread)
  have hexec := exec_lzwClear (s := t) (ht.fsm.trans_ne hf)
  have hnext := hstep.trans hexec
  obtain ⟨hdecoding, hrest⟩ := ht.after h rfl hexec hnext
  exact ⟨_, hnext, ⟨hdecoding, rfl, hrest⟩, ht.out⟩

/-- An LZW decode about to begin has every bit of its input unread. -/
theorem startDecode_decoding (m : PairMode) (bytes : Bytes) :
    Decoding (startDecode .lzw m bytes) ∧ (startDecode .lzw m bytes).lzw.unread = streamBits bytes :=
  ⟨⟨startDecode_lzw_inv m bytes, rfl, rfl, rfl, rfl⟩, rfl⟩

end Machine

open Machine

/-- Settles O40: after CLEAR each literal code appends its byte, up to END-OF-DATA. -/
theorem literalStreamReproducesItsBytes : Obligations.LiteralStreamReproducesItsBytes := by
  intro m literals bytes pad hstream
  obtain ⟨hdecoding, hunread⟩ := startDecode_decoding m bytes
  rw [hstream, List.append_assoc] at hunread
  obtain ⟨u, hstep, hu, hout⟩ := hdecoding.step_clear nofun rfl hunread
  have hended := hu.run_ended
  rw [hout] at hended
  rw [run_succ hstep]
  exact hended

end Sys2Proof
end
